-- ==== Sys2Proof/Word.lean ====
section
/-! DEFINITION. The words, names and records the whole model speaks of: bytes, keys, station
numbers, modes, station states, and the frame as it travels on LINE with its named fields
(05_frames.md section 5.3 and 5.7). Data only; what is done with it stands under Machine/. -/

namespace Sys2Proof

/-- One character of LINE or one byte of the local port. -/
abbrev Byte := BitVec 8
/-- The number of a shared resource, 1..65535 (R1); 0 travels on LINE and on the port only to be turned away. -/
abbrev Key := BitVec 16
/-- A sequence number, 0..65535, wrapping (R124). -/
abbrev Seq := BitVec 16
/-- A ticket, 0..255, wrapping (R159). -/
abbrev Ticket := BitVec 8
/-- A station number, 0..31 (R51). -/
abbrev Station := Fin 32

/-- The mode of a slot, of a waiter and of a request (R2). -/
inductive Mode where
  | exclusive | shared
  deriving DecidableEq, Repr

/-- Why the station is in LEAVING (R49). -/
inductive LeaveKind where
  | member | withdrawn | failed
  deriving DecidableEq, Repr

/-- The station state (R49). The leave kind is held while, and only while, the state is LEAVING. -/
inductive StationState where
  | unconfigured | idle | joining | loading | synced
  | leaving (kind : LeaveKind)
  | halted
  deriving DecidableEq, Repr

/-- The recorded exit cause (R50). -/
inductive ExitCause where
  | none | left | streak | lapsed | joinRefused | joinFailed | leaveUnheard | duplicate
  deriving DecidableEq, Repr

/-- The kind of a local request (R158). -/
inductive RequestKind where
  | acquire | release | renew
  deriving DecidableEq, Repr

/-- An outcome's name: those of the outcome summary of 01_the_lease_table.md, the three a request can
complete with away from the line (R175), and EXPIRED, which only a TABLE report carries (R18). -/
inductive Outcome where
  | granted | queued | busy | queueFull | tableFull | already
  | released | cancelled | renewed | notHeld | lineRefused | aborted
  | expired
  deriving DecidableEq, Repr

/-- A holder record of a slot: station and remaining beats 1..255 (R3). -/
structure Holder where
  station : Station
  remaining : Nat
  deriving DecidableEq, Repr

/-- A waiter record of a slot: station, wanted mode and term 1..255 (R4). -/
structure Waiter where
  station : Station
  wanted : Mode
  term : Nat
  deriving DecidableEq, Repr

/-- An occupied slot: key, mode, holders oldest grant first, waiters oldest first (R1..R4). -/
structure Slot where
  key : Key
  mode : Mode
  holders : List Holder
  waiters : List Waiter
  deriving DecidableEq, Repr

/-- The lease table: position i is the slot of index i, `none` when the slot is free (R1). -/
abbrev Table := List (Option Slot)

/-- A member of the roster and its silence count (R57, R42). -/
structure Member where
  station : Station
  silence : Nat
  deriving DecidableEq, Repr

/-! ## The frame as carried -/

/-- The content of a HEAD or a FOUND, field by field as the layout of section 5.7 gives it (R106, R107). -/
structure HeadBody where
  joiner : Byte
  seq : Seq
  partCount : Byte
  /-- Bit k marks station k. -/
  rosterSet : BitVec 32
  /-- Bits 4k+3..4k are the silence count of station k. -/
  silences : BitVec 128
  queueCount : Byte
  /-- Four entries; those past the count are sent as 0xFF and not examined. -/
  entries : List Byte
  deriving DecidableEq, Repr

/-- A holder record of a PART: station in positions 4..0, positions 7..5 unused; then remaining beats. -/
structure HolderField where
  station : Station
  unused : BitVec 3
  remaining : Byte
  deriving DecidableEq, Repr

/-- A waiter record of a PART: station in 4..0, wanted mode code in 6..5, position 7 unused; then term. -/
structure WaiterField where
  station : Station
  wanted : BitVec 2
  unused : BitVec 1
  term : Byte
  deriving DecidableEq, Repr

/-- The content of a PART (R108). The summary's two counts are the lengths of the two lists. -/
structure PartBody where
  index : Byte
  slot : Byte
  key : Key
  mode : BitVec 2
  holders : List HolderField
  waiters : List WaiterField
  deriving DecidableEq, Repr

/-- A frame's class, subtype and body fields (R100, R102, R105). `misshapen` is a class 2 frame whose
subtype is undefined or whose length does not agree with its subtype (R105): it has no fields. -/
inductive Body where
  | beat
  | present
  | head (b : HeadBody)
  | part (b : PartBody)
  | found (b : HeadBody)
  | misshapen
  | leave
  | release (key : Key)
  | renew (key : Key) (term : Byte)
  | acquire (key : Key) (modeWait : Byte) (term : Byte)
  | join
  deriving DecidableEq, Repr

/-- The class of a frame, 0..7 (section 5.2). -/
def Body.cls : Body → Nat
  | .beat => 0
  | .present => 1
  | .head _ => 2
  | .part _ => 2
  | .found _ => 2
  | .misshapen => 2
  | .leave => 3
  | .release _ => 4
  | .renew _ _ => 5
  | .acquire _ _ _ => 6
  | .join => 7

/-- A frame: the sender's number and what it carries (R100). -/
structure Frame where
  sender : Station
  body : Body
  deriving DecidableEq, Repr

/-! ## What the station hears of LINE -/

/-- One bit cell as sampled at phases 5, 6 and 7; `true` is driven (R140). -/
structure Cell where
  s5 : Bool
  s6 : Bool
  s7 : Bool
  deriving DecidableEq, Repr

/-- What can come to the station while a frame is on LINE: an edge of SEL, a byte of the port, the expiry of
a countdown. (RESET asserted within a frame ends it for this station: it is a command of its own.) -/
inductive Event where
  | selFall
  | selRise
  | byte (b : Byte)
  | beatExpiry
  | windowExpiry
  deriving DecidableEq, Repr

/-- The events that fall within a frame: before the header's stop bit has been taken, from there to the check
character's stop bit, and from there to the end of the frame, each list in order (R56, R117, R129, R191). -/
structure Within where
  toHeader : List Event
  toCheck : List Event
  toEnd : List Event
  deriving DecidableEq, Repr

/-- Nothing falls within the frame. -/
def Within.nothing : Within := { toHeader := [], toCheck := [], toEnd := [] }

/-- The events in their order. -/
def Within.all (w : Within) : List Event := w.toHeader ++ w.toCheck ++ w.toEnd

/-- How the own station hears a frame whose content the command names: the released run at which its
start bit comes (R143, R145), the noisy cells it counts (R118), and what falls within the frame. -/
structure Hearing where
  startRun : Nat
  noisy : Nat
  within : Within
  deriving DecidableEq, Repr

/-- A stretch of LINE with a frame in it: what the LIU sees at each phase from the present on (`true` is
driven), the released cells before the frame and its verdict window included, and what falls within the
frame. -/
structure RawFrame where
  looks : List Bool
  within : Within
  deriving DecidableEq, Repr

/-- What the other stations do to the own frame on the line, carried to its end: the noisy cells the own
receiver counts in it, the verdict window phase by phase as the others drive it, and what falls within the
frame. -/
structure OwnObjection where
  noisy : Nat
  window : List Bool
  within : Within
  deriving DecidableEq, Repr

end Sys2Proof
end

