-- ==== Sys2Proof/Syntax.lean ====
section
/-! DEFINITION. The commands of the block: one constructor per row of spec/opcode_table.json, in the
table's order. The table gives no row any field, so the operands are what the row's rule says the event
carries (log entries 3, 4 and 14). -/

namespace Sys2Proof

/-- A command. -/
inductive Instr where
  /-- RESET_ASSERTED: RESET is driven low (R156, R184, R191). -/
  | resetAsserted
  /-- RESET_RELEASED: RESET rises with the straps STN4..STN0 and RATE1..RATE0 at these levels, 1 is high (R196, R197). -/
  | resetReleased (stn : BitVec 5) (rate : BitVec 2)
  /-- SEL_FALL (R185). -/
  | selFall
  /-- SEL_RISE (R188). -/
  | selRise
  /-- SETUP with the beat interval in milliseconds (R52). -/
  | setup (interval : Byte)
  /-- START (R53). -/
  | start
  /-- STOP (R54, R55). -/
  | stop
  /-- The port ACQUIRE (R160). -/
  | acquire (key : Key) (options : Byte) (term : Byte)
  /-- The port RELEASE (R160). -/
  | release (key : Key)
  /-- The port RENEW (R160). -/
  | renew (key : Key) (term : Byte)
  /-- TAKE (R180). -/
  | take
  /-- STATUS (R182). -/
  | status
  /-- QUERY (R193). -/
  | query (key : Key)
  /-- ROSTER (R194). -/
  | roster
  /-- UNKNOWN_COMMAND: a command byte that is none of the ten codes (R190). -/
  | unknownCommand (code : Byte)
  /-- BEAT_COUNTDOWN_EXPIRY (R32, R33). -/
  | beatCountdownExpiry
  /-- FOUND_WINDOW_EXPIRY (R63, R89). -/
  | foundWindowExpiry
  /-- IDLE_GAP: the released run reaches 12, or 24 when blind (R143, R144). -/
  | idleGap
  /-- YIELD_RUN: the released run reaches 24 (R137, R143). -/
  | yieldRun
  /-- BEAT: a BEAT frame whose window no other station drives (R35). -/
  | beat (sender : Station) (h : Hearing)
  /-- PRESENT frame (R44). -/
  | present (sender : Station) (h : Hearing)
  /-- HEAD frame (R78, R86). -/
  | head (sender : Station) (body : HeadBody) (h : Hearing)
  /-- PART frame (R81, R87). -/
  | part (sender : Station) (body : PartBody) (h : Hearing)
  /-- FOUND frame (R65). -/
  | found (sender : Station) (body : HeadBody) (h : Hearing)
  /-- LEAVE frame (R68, R69). -/
  | leave (sender : Station) (h : Hearing)
  /-- JOIN frame (R60, R61). -/
  | join (sender : Station) (h : Hearing)
  /-- ACQUIRE frame (R10..R13). -/
  | acquireFrame (sender : Station) (key : Key) (modeWait : Byte) (term : Byte) (h : Hearing)
  /-- RELEASE frame (R14..R16). -/
  | releaseFrame (sender : Station) (key : Key) (h : Hearing)
  /-- RENEW frame (R17). -/
  | renewFrame (sender : Station) (key : Key) (term : Byte) (h : Hearing)
  /-- FRAME_OBJECTED: a frame that reaches its verdict window and finds it driven (R123, R152). -/
  | frameObjected (raw : RawFrame)
  /-- EARLY_BREAK: a frame that ends at a framing error (R119, R150). -/
  | earlyBreak (raw : RawFrame)
  /-- DUPLICATE: a clean frame bearing the own number (R154), with its window phase by phase. -/
  | duplicate (frame : Frame) (window : List Bool) (h : Hearing)
  /-- EXPIRED: the BEAT in which a holder's remaining beats reach zero (R37). -/
  | expired (sender : Station) (h : Hearing)
  /-- LAPSE: the BEAT in which a member's silence count reaches 8 (R40). -/
  | lapse (sender : Station) (h : Hearing)
  /-- TRANSFER_IDLE_TIMEOUT: the BEAT in which the transfer's idle beats reach 4 (R41). -/
  | transferIdleTimeout (sender : Station) (h : Hearing)
  /-- SENDER_WATCH_LAPSE: the BEAT in which the joiner's sender watch reaches 8 (R89). -/
  | senderWatchLapse (sender : Station) (h : Hearing)
  /-- SPOIL: the frame that would be the 33rd journal record (R91). -/
  | spoil (frame : Frame) (h : Hearing)
  /-- STREAK: the frame that draws the fourth consecutive error objection (R131). -/
  | streak (raw : RawFrame)
  /-- LINE_REFUSED: the objection against the own request's frame, the eighth of which completes it (R128). -/
  | lineRefused (o : OwnObjection)
  /-- JOIN_REFUSED: the objection against the own JOIN, the eighth of which ends the attempt (R59, R128). -/
  | joinRefused (o : OwnObjection)
  /-- LEAVE_UNHEARD: the objection against the own LEAVE, the eighth of which ends the stay (R67, R128). -/
  | leaveUnheard (o : OwnObjection)
  /-- GIVE_UP_SENDING: the objection against the own PART, the eighth of which ends the sending (R84). -/
  | giveUpSending (o : OwnObjection)
  /-- HEAD_BARRED: the objection against the own HEAD, the eighth of which bars it (R128). -/
  | headBarred (o : OwnObjection)
  /-- START_BIT_NOT_ACCEPTED: an edge after a released run of 1..9 cells (R145). -/
  | startBitNotAccepted (run : Nat)
  /-- BYTE_RECEIVED: eight rising SCK edges carry this byte in and one byte out (R185, R186). -/
  | byteReceived (b : Byte)
  deriving DecidableEq, Repr

end Sys2Proof
end

