-- ==== Sys2Proof/Decode.lean ====
section
/-! DEFINITION. The command a table word spells. No row of spec/opcode_table.json gives bits: the
commands are events of pins, countdowns, LINE and the port, not words. (The layouts of the frames on
LINE and of the port's bytes are decoded where they are taken: Machine/Operands.lean.) -/

namespace Sys2Proof

/-- No row of the table has bits, so no word spells a command. -/
def decodeTableWord (_nbits _w : Nat) : Option Instr := none

end Sys2Proof
end

