-- ==== Sys2Proof/Config.lean ====
section
/-! DEFINITION. The figures the part fixes, and the one value the spec leaves open. -/

namespace Sys2Proof.Config

/-- Slots of the lease table (R1). -/
def slots : Nat := 64
/-- Holders a slot can have (R3). -/
def maxHolders : Nat := 4
/-- Waiters a slot can have (R4). -/
def maxWaiters : Nat := 4
/-- Join-queue and pre-group entries (R58, R59). -/
def maxJoiners : Nat := 4
/-- Local requests queued (R158). -/
def maxRequests : Nat := 8
/-- Own claims (R163). -/
def maxClaims : Nat := 16
/-- Places of the notice queue and its budget (R177, R178). -/
def maxNotices : Nat := 40
/-- Journal records (R85). -/
def maxJournal : Nat := 32
/-- The silence count, and the sender watch, at which a member lapses (R39, R89). -/
def lapseAt : Nat := 8
/-- The idle beats at which a transfer is abandoned (R41). -/
def idleAt : Nat := 4
/-- The objections at which a candidate's limit is reached (R128). -/
def objectionLimit : Nat := 8
/-- The consecutive error objections at which the station exits (R131). -/
def streakLimit : Nat := 4
/-- The attempts after which a joiner gives up (R96). -/
def maxAttempts : Nat := 3
/-- The noisy cells that still count as clean reception (R118). -/
def maxNoisy : Nat := 2
/-- The beat interval at hardware reset, in milliseconds (R31). -/
def defaultInterval : Nat := 20
/-- The least beat interval SETUP takes (R52). -/
def minInterval : Nat := 5
/-- The greatest beat interval SETUP takes (R52). -/
def maxInterval : Nat := 250
/-- The found window, in milliseconds (R63). -/
def foundWindow : Nat := 1000
/-- CLK periods in a millisecond: CLK is 8 MHz (section 10.6). -/
def clkPerMs : Nat := 8000
/-- CLK periods in a bit cell at a rate code: 128, 64, 32, 16 (R139, R196). -/
def clkPerCell (rate : BitVec 2) : Nat := 128 / 2 ^ rate.toNat
/-- The released run at which an idle gap is found (R143). -/
def gapRun : Nat := 12
/-- The released run at which a blind LIU finds a gap, at which the yield flag is released, and at
which the count stops (R137, R143, R144). -/
def longRun : Nat := 24
/-- The least released run after which a start bit is accepted (R145). -/
def startRun : Nat := 10

/-- FREE VALUE (log entry 7). Where the fourth error objection of the streak and the eighth objection
against an own JOIN or LEAVE fall on one frame end, either trigger may be taken first (R72, R128):
`true` when STREAK is. Applied to the count of such draws; nothing constrains it. -/
opaque streakFirst : Nat → Bool

end Sys2Proof.Config
end

