-- ==== Sys2Proof/Machine/State.lean ====
section
/-! DEFINITION. The station's state, block by block as 00_scope.md divides it, the reasons a step can
stop, and the state after reset. Plain data. -/

namespace Sys2Proof.Machine

/-! ## Line Interface Unit (07_line_signalling.md) -/

/-- The six line phases (section 7.2). -/
inductive LinePhase where
  | hunt | gap | contend | send | receive | verdict
  deriving DecidableEq, Repr

/-- The cell in progress: the phase to be looked at next, 0..11, LINE as seen at the phase before, whether
the cell began at a released-to-driven edge, and the samples taken of it (phases 5, 6 and 7, in order);
`true` is driven (R140, R141). -/
structure Sampler where
  phase : Nat
  seen : Bool
  edge : Bool
  samples : List Bool
  deriving DecidableEq, Repr

/-- The sampler at a cell boundary, LINE last seen driven or not. -/
def Sampler.boundary (seen : Bool) : Sampler := { phase := 0, seen := seen, edge := false, samples := [] }

/-- The frame record the LIU hands on (R116), with the duplicate mark of R154; `applied` is the verdict
the LIU completes it with (R152). -/
structure FrameRecord where
  frame : Frame
  matched : Bool
  own : Bool
  duplicate : Bool
  applied : Bool
  deriving DecidableEq, Repr

structure Liu where
  linePhase : LinePhase
  sampler : Sampler
  releasedRun : Nat
  blind : Bool
  /-- The hunt began after a released cell, a passed window's last for one, and no cell has been driven since: with the
  run at 0 (R143) an edge then has a released cell before it, and is a start bit (R145). -/
  quiet : Bool
  buffer : List Byte
  noisy : Nat
  errorSeen : Bool
  transmitting : Bool
  takingPart : Bool
  lastRecord : Option FrameRecord
  deriving DecidableEq, Repr

/-! ## Offer Selector (06_verdict_retry_and_yield.md) -/

/-- The candidate a frame was offered for (R133). A request is known by its ticket, a PART by its index. -/
inductive CandKind where
  | beat | present
  | part (index : Byte)
  | head | found | leave
  | request (ticket : Ticket)
  | join
  deriving DecidableEq, Repr

/-- The frame offered at a choice and on the line since, its content fixed (R134), with the candidate it was offered
for; `none` once that candidate is gone (R135). -/
structure Offer where
  kind : Option CandKind
  frame : Frame
  deriving DecidableEq, Repr

/-- Whether the own station transmitted the frame, and how far (R125). -/
inductive Sent where
  | none | lost | broken | carried
  deriving DecidableEq, Repr

/-- How the frame ended (R125). -/
inductive Ending where
  | applied | objected | earlyBreak
  deriving DecidableEq, Repr

/-- What the station itself raised (R125). -/
inductive Raised where
  | nothing | error | refusal | breakSeen
  deriving DecidableEq, Repr

/-- A frame end (R125); `applied` holds the frame when it was applied. -/
structure FrameEnd where
  sent : Sent
  ending : Ending
  raised : Raised
  clean : Bool
  applied : Option Frame
  deriving DecidableEq, Repr

/-- The frame end of an own broken frame, handed at the first idle gap after the break (R148), with the candidate
it counts against; `none` once that candidate is gone (R135). -/
structure BrokenEnd where
  kind : Option CandKind
  frameEnd : FrameEnd
  deriving DecidableEq, Repr

structure Selector where
  beat : Bool
  present : Bool
  found : Bool
  leave : Bool
  join : Bool
  requestCount : Nat
  joinCount : Nat
  leaveCount : Nat
  partCount : Nat
  headCount : Nat
  headBarred : Bool
  streak : Nat
  yielding : Bool
  onLine : Option Offer
  brokenEnds : List BrokenEnd
  lastEnd : Option FrameEnd
  deriving DecidableEq, Repr

/-! ## Replica Engine (01, 02, 03, 04) -/

/-- An ACTIVE transfer record (R75). -/
structure Transfer where
  joiner : Station
  sender : Station
  total : Nat
  applied : Nat
  idle : Nat
  deriving DecidableEq, Repr

/-- The replicated state. `roster` stands in ascending station number; `transfer` is `none` when the
record is NONE. -/
structure Replica where
  table : Table
  roster : List Member
  joinQueue : List Station
  transfer : Option Transfer
  seq : Seq
  deriving DecidableEq, Repr

/-! ## Beat Timer (02) -/

/-- A countdown: stopped, or running with the time left in CLK periods of 1/8000 ms (log entry 13).
`running 0` is a beat countdown that has expired and stays at zero (R32). -/
inductive Countdown where
  | stopped
  | running (clk : Nat)
  deriving DecidableEq, Repr

structure BeatTimer where
  /-- milliseconds -/
  interval : Nat
  countdown : Countdown
  window : Countdown
  deriving DecidableEq, Repr

/-! ## Transfer Unit (04) -/

/-- A journal record (R88). -/
structure JournalRecord where
  frame : Frame
  seq : Seq
  deriving DecidableEq, Repr

/-- The journal phase of a load (section 4.3). -/
inductive JournalPhase where
  | recording | spoiled
  deriving DecidableEq, Repr

structure TransferUnit where
  image : Option Table
  cursor : Option Nat
  journal : List JournalRecord
  phase : Option JournalPhase
  /-- The number of the HEAD that began the load: the replay's first comparison (R92). Outside a load it is 0 (DESIGN
  CHOICE, log entry 21). -/
  headSeq : Seq
  watch : Nat
  attempts : Nat
  deriving DecidableEq, Repr

/-! ## Station Controller (03) -/

structure Controller where
  state : StationState
  cause : ExitCause
  station : Station
  rate : BitVec 2
  configured : Bool
  preGroup : List Station
  groupSeen : Bool
  listed : Bool
  ownJoinApplied : Bool
  deriving DecidableEq, Repr

/-! ## Local Request Unit and Notice Queue (08, 09) -/

/-- A request record (R158). The mode and wait flag are those of an ACQUIRE, the term of an ACQUIRE or
RENEW; elsewhere they stand at EXCLUSIVE, clear and 0 and are never read. -/
structure Request where
  ticket : Ticket
  kind : RequestKind
  key : Key
  mode : Mode
  wait : Bool
  term : Byte
  deriving DecidableEq, Repr

/-- The state of a claim (R163). -/
inductive ClaimState where
  | pending | waiting | held
  deriving DecidableEq, Repr

/-- A claim record (R163). -/
structure Claim where
  key : Key
  ticket : Ticket
  state : ClaimState
  mode : Mode
  deriving DecidableEq, Repr

/-- The kind of a notice, with the outcome a DONE carries (R175). -/
inductive NoticeKind where
  | done (outcome : Outcome)
  | granted | expired | purged
  deriving DecidableEq, Repr

/-- A notice (R175); `none` is an absent mode or sequence number. -/
structure Notice where
  kind : NoticeKind
  ticket : Ticket
  key : Key
  mode : Option Mode
  seq : Option Seq
  deriving DecidableEq, Repr

/-- The Local Request Unit and the Notice Queue's lists: what an outcome report or a request can change. -/
structure Desk where
  requests : List Request
  claims : List Claim
  nextTicket : Ticket
  notices : List Notice
  reservation : Nat
  deriving DecidableEq, Repr

/-- The Notice Queue's flags (R180, R181). -/
structure Attention where
  changed : Bool
  readMark : Bool
  offered : Bool
  deriving DecidableEq, Repr

/-! ## Local Port and pins (10) -/

/-- The transaction phase (R186). -/
inductive PortPhase where
  | deselected | command | arguments | turnaround | reply | drain
  deriving DecidableEq, Repr

/-- The port's state (R186); the level of SDO follows from it (`Port.sdo`). -/
structure Port where
  phase : PortPhase
  command : Option Byte
  arguments : List Byte
  reply : List Byte
  clocked : Nat
  deriving DecidableEq, Repr

/-- The levels of the input pins that are state: RESET and SEL, both active low. -/
structure Pins where
  resetLow : Bool
  selLow : Bool
  deriving DecidableEq, Repr

/-! ## The station -/

structure State where
  pins : Pins
  liu : Liu
  sel : Selector
  replica : Replica
  timer : BeatTimer
  xfer : TransferUnit
  ctl : Controller
  desk : Desk
  attention : Attention
  port : Port
  /-- How many free values have been drawn (the model's own; log entry 7). -/
  freeDraws : Nat
  /-- The commands that wait, first in first out. -/
  pending : List Instr
  deriving DecidableEq, Repr

/-- The block has no fault: every error the spec describes is an effect on the state (log entry 18). -/
inductive Fault where
  deriving DecidableEq, Repr

/-- The reasons a command is refused. -/
inductive Refusal where
  /-- Raised by `exec` alone, for a command that has no meaning yet: none. Safe. -/
  | notModelled (mnemonic : String)
  deriving DecidableEq, Repr

/-! ## Reset -/

/-- R24: all 64 slots free. -/
def emptyTable : Table := List.replicate Config.slots none

/-- The LIU as the release of RESET leaves it: hunting blind (R156). The sampler's values are log entry 22's, and
`quiet`, which decides nothing while the LIU is blind, is log entry 21's. -/
def Liu.reset : Liu where
  linePhase := .hunt
  sampler := Sampler.boundary false
  releasedRun := 0
  blind := true
  quiet := false
  buffer := []
  noisy := 0
  errorSeen := false
  transmitting := false
  takingPart := false
  lastRecord := none

/-- The Offer Selector at hardware reset (R138). -/
def Selector.reset : Selector where
  beat := false
  present := false
  found := false
  leave := false
  join := false
  requestCount := 0
  joinCount := 0
  leaveCount := 0
  partCount := 0
  headCount := 0
  headBarred := false
  streak := 0
  yielding := false
  onLine := none
  brokenEnds := []
  lastEnd := none

/-- The replicated state at hardware reset (R24, R57, R58, R75, R124). -/
def Replica.empty : Replica where
  table := emptyTable
  roster := []
  joinQueue := []
  transfer := none
  seq := 0

/-- The Beat Timer at hardware reset (R47). -/
def BeatTimer.reset : BeatTimer where
  interval := Config.defaultInterval
  countdown := .stopped
  window := .stopped

/-- The Transfer Unit at hardware reset (R79, R85). The spec gives the number of the HEAD that began a load no value
where there is no load: 0 is the model's choice (DESIGN CHOICE, log entry 21). -/
def TransferUnit.reset : TransferUnit where
  image := none
  cursor := none
  journal := []
  phase := none
  headSeq := 0
  watch := 0
  attempts := 0

/-- The Station Controller at hardware reset, with the straps sampled (R49, R50, R51, R196). -/
def Controller.reset (stn : BitVec 5) (rate : BitVec 2) : Controller where
  state := .unconfigured
  cause := .none
  station := stn.toFin
  rate := rate
  configured := false
  preGroup := []
  groupSeen := false
  listed := false
  ownJoinApplied := false

/-- The Local Request Unit and the Notice Queue's lists at hardware reset (R173, R184). -/
def Desk.reset : Desk where
  requests := []
  claims := []
  nextTicket := 0
  notices := []
  reservation := 0

/-- The port with SEL high and nothing held (R197). -/
def Port.reset : Port where
  phase := .deselected
  command := none
  arguments := []
  reply := []
  clocked := 0

/-- The station right after reset: RESET released, with the straps low and SEL high (log entries 5 and
20), the station-changed flag set (R181, R197). -/
def State.reset : State where
  pins := { resetLow := false, selLow := false }
  liu := Liu.reset
  sel := Selector.reset
  replica := Replica.empty
  timer := BeatTimer.reset
  xfer := TransferUnit.reset
  ctl := Controller.reset 0 0
  desk := Desk.reset
  attention := { changed := true, readMark := false, offered := false }
  port := Port.reset
  freeDraws := 0
  pending := []

end Sys2Proof.Machine
end

