-- ==== Sys2Proof/Machine/Ops.lean ====
section
/-! DEFINITION. The named operations the meanings share: on slots and the lease table (chapter 1), on
the roster and the join queue (chapter 3), on the request queue, the claims, the notices and the
reservation (chapters 8 and 9), and on a countdown. -/

namespace Sys2Proof

/-- A station takes part in the group's traffic in these states (R117). -/
def StationState.participating : StationState → Bool
  | .unconfigured => false
  | .idle => false
  | .joining => true
  | .loading => true
  | .synced => true
  | .leaving _ => true
  | .halted => false

/-- The station is a member, with a live table (R1, R49). -/
def StationState.isMember : StationState → Bool
  | .synced => true
  | .leaving .member => true
  | _ => false

/-- Whether the state is LEAVING, of any kind. -/
def StationState.isLeaving : StationState → Bool
  | .leaving _ => true
  | _ => false

end Sys2Proof

namespace Sys2Proof.Machine

/-! ## Outcome reports (R18) -/

/-- Where a report comes from (R18). -/
inductive Origin where
  | ownFrame | table
  deriving DecidableEq, Repr

/-- An outcome report handed by the Replica Engine to the Local Request Unit (R18). -/
structure Report where
  origin : Origin
  outcome : Outcome
  key : Key
  mode : Option Mode
  seq : Seq
  deriving DecidableEq, Repr

/-! ## Slots -/

/-- The station has a holder record in the slot. -/
def slotHasHolder (p : Station) (s : Slot) : Bool := s.holders.any (·.station == p)

/-- The station has a waiter record in the slot. -/
def slotHasWaiter (p : Station) (s : Slot) : Bool := s.waiters.any (·.station == p)

/-- The station appears in the slot (R10). -/
def slotHas (p : Station) (s : Slot) : Bool := slotHasHolder p s || slotHasWaiter p s

/-- A waiter at the head is grantable (R6). -/
def grantable (mode : Mode) (holders : List Holder) (w : Waiter) : Bool :=
  holders.isEmpty ||
    (mode == .shared && w.wanted == .shared && decide (holders.length < Config.maxHolders))

/-- The promotion loop of R7 over the waiter list: the mode, the holders and the waiters it leaves, and
the stations promoted, each with the slot's mode after its pass. -/
def promoteLoop : Mode → List Holder → List Waiter →
    Mode × List Holder × List Waiter × List (Station × Mode)
  | mode, holders, [] => (mode, holders, [], [])
  | mode, holders, w :: ws =>
    if grantable mode holders w then
      let mode' := if holders.isEmpty then w.wanted else mode
      let r := promoteLoop mode' (holders ++ [{ station := w.station, remaining := w.term }]) ws
      (r.1, r.2.1, r.2.2.1, (w.station, mode') :: r.2.2.2)
    else (mode, holders, w :: ws, [])

/-- The GRANTED report of a promotion of the own station (R20). -/
def grantReports (own : Station) (key : Key) (seq : Seq) (promoted : List (Station × Mode)) : List Report :=
  (promoted.filter (·.1 == own)).map fun p =>
    { origin := .table, outcome := .granted, key := key, mode := some p.2, seq := seq }

/-- Promotion of a slot (R7): the slot, freed when it is left with no holders and no waiters, and the
reports that concern the own station. -/
def promote (own : Station) (seq : Seq) (s : Slot) : Option Slot × List Report :=
  let r := promoteLoop s.mode s.holders s.waiters
  (if r.2.1.isEmpty && r.2.2.1.isEmpty then none
   else some { key := s.key, mode := r.1, holders := r.2.1, waiters := r.2.2.1 },
   grantReports own s.key seq r.2.2.2)

/-- One slot's part of the purge of `p` (R8). -/
def purgeSlot (own : Station) (seq : Seq) (p : Station) (s : Slot) : Option Slot × List Report :=
  if slotHas p s then
    promote own seq { s with
      holders := s.holders.filter (·.station != p)
      waiters := s.waiters.filter (·.station != p) }
  else (some s, [])

/-- One slot's part of the term countdown (R37): every holder down by one, the ended holders out, with
an EXPIRED report for each of the own station (R21), and promotion if any went. -/
def countDownSlot (own : Station) (seq : Seq) (s : Slot) : Option Slot × List Report :=
  let down := s.holders.map fun h => { h with remaining := h.remaining - 1 }
  let ended := down.filter (·.remaining == 0)
  if ended.isEmpty then (some { s with holders := down }, [])
  else
    let expired := (ended.filter (·.station == own)).map fun _ =>
      { origin := .table, outcome := .expired, key := s.key, mode := none, seq := seq : Report }
    let r := promote own seq { s with holders := down.filter (·.remaining != 0) }
    (r.1, expired ++ r.2)

/-! ## The table -/

/-- Visit the occupied slots in ascending index: each slot becomes what `f` makes of it, and the reports
stand in the order of the visit (R8, R37). -/
def visitSlots (f : Slot → Option Slot × List Report) (t : Table) : Table × List Report :=
  (t.map fun o => o.bind fun s => (f s).1, t.flatMap fun o => (o.map fun s => (f s).2).getD [])

/-- Purge of station `p` from the whole table (R8). -/
def purge (own : Station) (seq : Seq) (p : Station) (t : Table) : Table × List Report :=
  visitSlots (purgeSlot own seq p) t

/-- Stage 2 of a BEAT (R37). -/
def countDown (own : Station) (seq : Seq) (t : Table) : Table × List Report :=
  visitSlots (countDownSlot own seq) t

/-- The slot of a key, from index `i` on (R1). -/
def findKeyFrom (key : Key) : Nat → Table → Option (Nat × Slot)
  | _, [] => none
  | i, none :: t => findKeyFrom key (i + 1) t
  | i, some s :: t => if s.key == key then some (i, s) else findKeyFrom key (i + 1) t

/-- The slot of a key: its index and what it holds, or none when the key is absent (R1). -/
def findKey (key : Key) (t : Table) : Option (Nat × Slot) := findKeyFrom key 0 t

/-- The lowest free index from `i` on. -/
def lowestFreeFrom : Nat → Table → Option Nat
  | _, [] => none
  | i, none :: _ => some i
  | i, some _ :: t => lowestFreeFrom (i + 1) t

/-- The lowest-indexed free slot (R5). -/
def lowestFree (t : Table) : Option Nat := lowestFreeFrom 0 t

/-- The lowest occupied index not below `low`, counting positions from `i` (R79, R81). -/
def nextOccupiedFrom (low : Nat) : Nat → Table → Option Nat
  | _, [] => none
  | i, o :: t => if o.isSome && decide (low ≤ i) then some i else nextOccupiedFrom low (i + 1) t

/-- The lowest occupied index that is at least `low`. -/
def nextOccupied (low : Nat) (t : Table) : Option Nat := nextOccupiedFrom low 0 t

/-- How many slots are occupied (R76). -/
def occupied (t : Table) : Nat := t.countP Option.isSome

/-- The slot at an index; none when it is free. -/
def slotAt (t : Table) (i : Nat) : Option Slot := (t[i]?).getD none

/-! ## The roster and the join queue -/

/-- The station is in the roster. -/
def inRoster (p : Station) (r : List Member) : Bool := r.any (·.station == p)

/-- A member's silence count set; the roster is as it was when the station is no member (R42). -/
def setSilence (p : Station) (n : Nat) (r : List Member) : List Member :=
  r.map fun m => if m.station == p then { m with silence := n } else m

/-- A member's silence count, if it is one. -/
def silenceOf (p : Station) (r : List Member) : Option Nat :=
  (r.find? (·.station == p)).map (·.silence)

/-- A member added with silence count 0, in its place in ascending station number (R83). -/
def addMember (p : Station) : List Member → List Member
  | [] => [{ station := p, silence := 0 }]
  | m :: ms =>
    if p < m.station then { station := p, silence := 0 } :: m :: ms
    else if p = m.station then { station := p, silence := 0 } :: ms
    else m :: addMember p ms

/-- A member removed, its count with it (R40, R68). -/
def dropMember (p : Station) (r : List Member) : List Member := r.filter (·.station != p)

/-! ## The desk: requests, claims, notices, reservation -/

/-- What a claim holds of the reservation (R172). -/
def ClaimState.holds : ClaimState → Nat
  | .pending => 0
  | .waiting => 2
  | .held => 1

/-- What a queued request holds of the reservation (R172). -/
def requestHolds : RequestKind → Nat
  | .acquire => 3
  | .release => 1
  | .renew => 1

/-- What the queue and the claims hold together (R172, R178). -/
def Desk.held (d : Desk) : Nat :=
  (d.requests.map fun r => requestHolds r.kind).sum + (d.claims.map (·.state.holds)).sum

/-- The claim for a key. -/
def Desk.claimFor (key : Key) (d : Desk) : Option Claim := d.claims.find? (·.key == key)

/-- A notice paid for by a reservation is appended: one reserved place becomes an entry (R177, R178). -/
def Desk.append (n : Notice) (d : Desk) : Desk :=
  { d with notices := d.notices ++ [n], reservation := d.reservation - 1 }

/-- Room no longer needed is returned (R178). -/
def Desk.giveBack (k : Nat) (d : Desk) : Desk := { d with reservation := d.reservation - k }

/-- A claim's state changes in place (R163). -/
def Desk.setClaim (key : Key) (st : ClaimState) (d : Desk) : Desk :=
  { d with claims := d.claims.map fun c => if c.key == key then { c with state := st } else c }

/-- A claim is removed, the order of the others kept (R163). -/
def Desk.dropClaim (key : Key) (d : Desk) : Desk :=
  { d with claims := d.claims.filter (·.key != key) }

/-- What the claim for a key holds, 0 when there is none. -/
def Desk.claimHolds (key : Key) (d : Desk) : Nat :=
  ((d.claimFor key).map (·.state.holds)).getD 0

/-- A request completes with an outcome: its DONE notice is appended and its claim and reservation
change as R164, R166, R167, R168 and R170 give. The queue is left to the caller. -/
def Desk.conclude (r : Request) (o : Outcome) (mode : Option Mode) (seq : Option Seq) (d : Desk) : Desk :=
  let d := d.append { kind := .done o, ticket := r.ticket, key := r.key, mode := mode, seq := seq }
  match r.kind with
  | .acquire =>
    match o with
    | .granted => (d.setClaim r.key .held).giveBack 1
    | .queued => d.setClaim r.key .waiting
    | .busy => (d.dropClaim r.key).giveBack 2
    | .queueFull => (d.dropClaim r.key).giveBack 2
    | .tableFull => (d.dropClaim r.key).giveBack 2
    | .already => (d.dropClaim r.key).giveBack 2
    | .lineRefused => (d.dropClaim r.key).giveBack 2
    | .aborted => (d.dropClaim r.key).giveBack 2
    | .released | .cancelled | .renewed | .notHeld | .expired => d
  | .release =>
    match o with
    | .released => (d.giveBack (d.claimHolds r.key)).dropClaim r.key
    | .cancelled => (d.giveBack (d.claimHolds r.key)).dropClaim r.key
    | .granted | .queued | .busy | .queueFull | .tableFull | .already | .renewed | .notHeld
    | .lineRefused | .aborted | .expired => d
  | .renew => d

/-- The head request completes and leaves the queue (R158). -/
def Desk.concludeHead (o : Outcome) (mode : Option Mode) (seq : Option Seq) (d : Desk) : Desk :=
  match d.requests with
  | [] => d
  | r :: rs => { d with requests := rs }.conclude r o mode seq

/-- A TABLE report is matched to the claim with its key (R169); one that finds no row is discarded. -/
def Desk.tableReport (r : Report) (d : Desk) : Desk :=
  match d.claimFor r.key with
  | none => d
  | some c =>
    match r.outcome, c.state with
    | .granted, .waiting =>
      (d.append { kind := .granted, ticket := c.ticket, key := c.key, mode := r.mode,
                  seq := some r.seq }).setClaim c.key .held
    | .expired, .held =>
      (d.append { kind := .expired, ticket := c.ticket, key := c.key, mode := none,
                  seq := some r.seq }).dropClaim c.key
    | _, _ => d

/-- The Local Request Unit takes a report: an OWN_FRAME report completes the head request (R166). -/
def Desk.takeReport (d : Desk) (r : Report) : Desk :=
  match r.origin with
  | .ownFrame => d.concludeHead r.outcome r.mode (some r.seq)
  | .table => d.tableReport r

/-- Reports are taken in the order they are handed over (R18, R169). -/
def Desk.takeReports (rs : List Report) (d : Desk) : Desk := rs.foldl Desk.takeReport d

/-- The requests of a list complete with ABORTED, head first (R170). -/
def Desk.abort (rs : List Request) (d : Desk) : Desk :=
  rs.foldl (fun d r => d.conclude r .aborted none none) d

/-- Every request completes with ABORTED but one whose frame is on the line, known by its ticket (R170). -/
def Desk.abortQueue (onLine : List Ticket) (d : Desk) : Desk :=
  { d with requests := d.requests.filter fun r => onLine.contains r.ticket }.abort
    (d.requests.filter fun r => !onLine.contains r.ticket)

/-- The claims of a list end with PURGED, oldest first: the notice consumes 1 and the rest of what the
claim holds is returned (R171). -/
def Desk.purgeClaims (seq : Seq) (cs : List Claim) (d : Desk) : Desk :=
  cs.foldl (fun d c =>
    (d.append { kind := .purged, ticket := c.ticket, key := c.key, mode := none, seq := some seq }).giveBack
      (c.state.holds - 1)) d

/-- What the exit report does at the Local Request Unit (R171). -/
def Desk.exitReport (seq : Seq) (d : Desk) : Desk :=
  let d := d.abortQueue []
  { d with claims := [] }.purgeClaims seq d.claims

/-- A RELEASE needs a claim WAITING or HELD, a RENEW a claim HELD; an ACQUIRE is handed over as it
stands (R136, R165). -/
def Desk.fits (r : Request) (d : Desk) : Bool :=
  match r.kind with
  | .acquire => true
  | .release => (d.claimFor r.key).any fun c => c.state == .waiting || c.state == .held
  | .renew => (d.claimFor r.key).any fun c => c.state == .held

/-- The pre-check at a choice: heads that do not fit complete with a local NOT_HELD until one fits or the
queue is empty (R136, R165). At most as many rounds as there are requests. -/
def Desk.preCheck : Nat → Desk → Desk
  | 0, d => d
  | n + 1, d =>
    match d.requests with
    | [] => d
    | r :: _ => if d.fits r then d else Desk.preCheck n (d.concludeHead .notHeld none none)

/-- The room left in the budget (R179). -/
def Desk.room (d : Desk) : Nat := Config.maxNotices - d.notices.length - d.reservation

/-! ## Countdowns -/

/-- A countdown loaded with a number of milliseconds. -/
def Countdown.load (ms : Nat) : Countdown := .running (ms * Config.clkPerMs)

/-- Whether a countdown runs. -/
def Countdown.isRunning : Countdown → Bool
  | .stopped => false
  | .running _ => true

/-! ## Candidates -/

/-- A request's candidate (R133). -/
def CandKind.isRequest : CandKind → Bool
  | .request _ => true
  | .beat | .present | .part _ | .head | .found | .leave | .join => false

/-- A PART's candidate (R133). -/
def CandKind.isPart : CandKind → Bool
  | .part _ => true
  | .beat | .present | .head | .found | .leave | .request _ | .join => false

/-- A frame whose candidate is gone counts against none, though a later one of its kind may stand (R135). -/
def Offer.settle (gone : CandKind → Bool) (o : Offer) : Offer :=
  { o with kind := o.kind.filter fun k => !gone k }

/-- A broken end whose candidate is gone counts against none, though a later one of its kind may stand (R135). -/
def BrokenEnd.settle (gone : CandKind → Bool) (b : BrokenEnd) : BrokenEnd :=
  { b with kind := b.kind.filter fun k => !gone k }

/-- The candidates of these kinds are gone: neither the frame on the line nor a broken end that waits counts against
a later one of the kind (R135, log entry 10). -/
def Selector.forget (gone : CandKind → Bool) (x : Selector) : Selector :=
  { x with onLine := x.onLine.map (Offer.settle gone)
           brokenEnds := x.brokenEnds.map (BrokenEnd.settle gone) }

/-- The head request has left the queue: the count starts at 0 for the next, and no broken end counts against it
(R127, R135). -/
def Selector.nextRequest (x : Selector) : Selector := { x.forget CandKind.isRequest with requestCount := 0 }

/-- The HEAD candidate is gone, its count cleared (R127). -/
def Selector.dropHead (x : Selector) : Selector := { x.forget (· == .head) with headCount := 0 }

/-- The PART candidate is gone, its count cleared (R127). -/
def Selector.dropPart (x : Selector) : Selector := { x.forget CandKind.isPart with partCount := 0 }

/-! ## Access to the blocks -/

/-- The own station's number. -/
abbrev State.own (s : State) : Station := s.ctl.station

/-- The notice queue and the flags as the Station Controller's report of a change of state leaves them:
the station-changed flag set and the status-read mark cleared (R49, R181). -/
def Attention.stateChanged (a : Attention) : Attention := { a with changed := true, readMark := false }

/-- The Station Controller sets the state and reports the change (R49, R181). -/
def State.enter (st : StationState) (s : State) : State :=
  { s with ctl := { s.ctl with state := st }, attention := s.attention.stateChanged }

end Sys2Proof.Machine
end

