-- ==== Sys2Proof/Machine/Operands.lean ====
section
/-! DEFINITION. The layouts: a frame as the characters and cells of LINE (05_frames.md section 5.7,
R100, R102, R104, R105, R109, R142) and back; the notices, the table and the roster as bytes of the
local port (10_local_port.md section 10.7). -/

namespace Sys2Proof.Machine

/-! ## Numbers of several characters, low-order character first (section 5.7) -/

/-- The low `n` characters of a number, low-order first. -/
def leBytes : Nat → Nat → List Byte
  | 0, _ => []
  | n + 1, v => BitVec.ofNat 8 v :: leBytes n (v / 256)

/-- The number a run of characters gives, low-order first. -/
def leNat : List Byte → Nat
  | [] => 0
  | b :: bs => b.toNat + 256 * leNat bs

/-- The high-order byte of a two-byte number. -/
def hiByte (w : BitVec 16) : Byte := w.extractLsb' 8 8

/-- The low-order byte of a two-byte number. -/
def loByte (w : BitVec 16) : Byte := w.extractLsb' 0 8

/-- A two-byte number of the port, the high-order byte first (R186). -/
def portWord (hi lo : Byte) : BitVec 16 := hi ++ lo

/-! ## Modes -/

/-- The mode code: 0 EXCLUSIVE, 1 SHARED (R104). -/
def modeCode : Mode → BitVec 2
  | .exclusive => 0
  | .shared => 1

/-- The mode of a mode code; 2 and 3 are undefined (R104). -/
def modeOf (c : BitVec 2) : Option Mode :=
  if c = 0 then some .exclusive else if c = 1 then some .shared else none

/-- The mode code of a mode and wait character, or of an options byte: positions 1..0. -/
def modeBits (b : Byte) : BitVec 2 := b.extractLsb' 0 2

/-- The wait flag: position 7. -/
def waitBit (b : Byte) : Bool := b.getLsbD 7

/-- Positions 6..2 are unused and 0. -/
def unusedClear (b : Byte) : Bool := b.extractLsb' 2 5 == 0

/-- A mode and wait character, and an options byte (section 5.7, section 10.7). -/
def modeWaitByte (m : Mode) (wait : Bool) : Byte := BitVec.ofBool wait ++ (0 : BitVec 5) ++ modeCode m

/-! ## The check character (R109) -/

/-- One bit into the check register: the feedback is the bit against stage c7; after the shift a feedback
of 1 inverts stages c6, c3, c2 and c0. -/
def crcBit (c : Byte) (bit : Bool) : Byte :=
  let shifted := c <<< 1
  if bit != c.getLsbD 7 then shifted ^^^ 0x4D else shifted

/-- A character's data bits in the order they go out on the line: the header most significant first,
every other character least significant first (R100). -/
def charBits (isHeader : Bool) (b : Byte) : List Bool :=
  let lsbFirst := [b.getLsbD 0, b.getLsbD 1, b.getLsbD 2, b.getLsbD 3,
                   b.getLsbD 4, b.getLsbD 5, b.getLsbD 6, b.getLsbD 7]
  if isHeader then lsbFirst.reverse else lsbFirst

/-- The character whose data bits went out in this order. -/
def charOfBits (isHeader : Bool) (bits : List Bool) : Byte :=
  let lsbFirst := if isHeader then bits.reverse else bits
  BitVec.ofNat 8 (lsbFirst.foldr (fun b acc => (if b then 1 else 0) + 2 * acc) 0)

/-- The bits of a run of characters that begins with the header. -/
def lineBits : List Byte → List Bool
  | [] => []
  | h :: cs => charBits true h ++ cs.flatMap (charBits false)

/-- The check value over the header and the body characters: every stage starts at 1 (R109). -/
def crc (chars : List Byte) : Byte := (lineBits chars).foldl crcBit 0xFF

/-! ## A frame as characters -/

/-- The header character: class times 32 plus the sender (R100). -/
def headerByte (f : Frame) : Byte := BitVec.ofNat 8 (f.body.cls * 32 + f.sender.val)

/-- The content of a HEAD or FOUND after its subtype (section 5.7). -/
def headContent (b : HeadBody) : List Byte :=
  [b.joiner] ++ leBytes 2 b.seq.toNat ++ [b.partCount] ++ leBytes 4 b.rosterSet.toNat ++
    leBytes 16 b.silences.toNat ++ [b.queueCount] ++ b.entries

/-- A holder record of a PART. -/
def holderChars (h : HolderField) : List Byte :=
  [h.unused ++ BitVec.ofNat 5 h.station.val, h.remaining]

/-- A waiter record of a PART. -/
def waiterChars (w : WaiterField) : List Byte :=
  [w.unused ++ w.wanted ++ BitVec.ofNat 5 w.station.val, w.term]

/-- The slot summary: mode code in 7..6, holder count in 5..3, waiter count in 2..0. -/
def summaryByte (mode : BitVec 2) (h w : Nat) : Byte := mode ++ BitVec.ofNat 3 h ++ BitVec.ofNat 3 w

/-- The content of a PART after its subtype (section 5.7). -/
def partContent (b : PartBody) : List Byte :=
  [b.index, b.slot] ++ leBytes 2 b.key.toNat ++ [summaryByte b.mode b.holders.length b.waiters.length] ++
    b.holders.flatMap holderChars ++ b.waiters.flatMap waiterChars

/-- The characters of a class 2 frame between header and check: the length counts the subtype and the
content (R105). -/
def transferChars (subtype : Byte) (content : List Byte) : List Byte :=
  BitVec.ofNat 8 (content.length + 1) :: subtype :: content

/-- The body characters of a frame, length character included (R102, R105). -/
def bodyChars : Body → List Byte
  | .beat => []
  | .present => []
  | .head b => transferChars 0x01 (headContent b)
  | .part b => transferChars 0x02 (partContent b)
  | .found b => transferChars 0x03 (headContent b)
  | .misshapen => []
  | .leave => []
  | .release k => leBytes 2 k.toNat
  | .renew k t => leBytes 2 k.toNat ++ [t]
  | .acquire k m t => leBytes 2 k.toNat ++ [m, t]
  | .join => []

/-- Header and body characters. -/
def uncheckedChars (f : Frame) : List Byte := headerByte f :: bodyChars f.body

/-- The frame's characters, from the header to the check character (R99, R110). -/
def encodeFrame (f : Frame) : List Byte := uncheckedChars f ++ [crc (uncheckedChars f)]

/-! ## A frame from characters -/

/-- The fields of a HEAD or FOUND from its 29 characters of content (R106). -/
def parseHead : List Byte → Option HeadBody
  | j :: s0 :: s1 :: n :: r0 :: r1 :: r2 :: r3 :: rest =>
    match rest.drop 16 with
    | c :: es =>
      if es.length = 4 then
        some { joiner := j, seq := BitVec.ofNat 16 (leNat [s0, s1]), partCount := n,
               rosterSet := BitVec.ofNat 32 (leNat [r0, r1, r2, r3]),
               silences := BitVec.ofNat 128 (leNat (rest.take 16)), queueCount := c, entries := es }
      else none
    | [] => none
  | _ => none

/-- A holder record from its two characters. -/
def parseHolder (a b : Byte) : HolderField :=
  { station := (a.extractLsb' 0 5).toFin, unused := a.extractLsb' 5 3, remaining := b }

/-- A waiter record from its two characters. -/
def parseWaiter (a b : Byte) : WaiterField :=
  { station := (a.extractLsb' 0 5).toFin, wanted := a.extractLsb' 5 2, unused := a.extractLsb' 7 1, term := b }

/-- The records of a run of character pairs. -/
def pairs {α : Type} (f : Byte → Byte → α) : List Byte → List α
  | a :: b :: rest => f a b :: pairs f rest
  | _ => []

/-- The fields of a PART from its content; none when the length does not equal 6 plus twice the sum of the
carried counts (R105, R113). -/
def parsePart : List Byte → Option PartBody
  | i :: s :: k0 :: k1 :: summary :: recs =>
    let h := (summary.extractLsb' 3 3).toNat
    let w := (summary.extractLsb' 0 3).toNat
    if recs.length = 2 * (h + w) then
      some { index := i, slot := s, key := BitVec.ofNat 16 (leNat [k0, k1]), mode := summary.extractLsb' 6 2,
             holders := pairs parseHolder (recs.take (2 * h)),
             waiters := pairs parseWaiter (recs.drop (2 * h)) }
    else none
  | _ => none

/-- The body of a class 2 frame from its characters between header and check (R105). -/
def parseTransfer : List Byte → Body
  | _ :: subtype :: content =>
    if subtype = 0x01 then ((parseHead content).map Body.head).getD .misshapen
    else if subtype = 0x02 then ((parsePart content).map Body.part).getD .misshapen
    else if subtype = 0x03 then ((parseHead content).map Body.found).getD .misshapen
    else .misshapen
  | _ => .misshapen

/-- The class of a header character (R100). -/
def headerClass (b : Byte) : Nat := (b.extractLsb' 5 3).toNat

/-- The sender of a header character (R100). -/
def headerSender (b : Byte) : Station := (b.extractLsb' 0 5).toFin

/-- The body of a frame of a class from its characters between header and check. Every frame taken to its
check character has as many characters as its class gives (R102), so the last case does not arise. -/
def parseBody (cls : Nat) (chars : List Byte) : Body :=
  match cls, chars with
  | 0, _ => .beat
  | 1, _ => .present
  | 2, cs => parseTransfer cs
  | 3, _ => .leave
  | 4, [k0, k1] => .release (BitVec.ofNat 16 (leNat [k0, k1]))
  | 5, [k0, k1, t] => .renew (BitVec.ofNat 16 (leNat [k0, k1])) t
  | 6, [k0, k1, m, t] => .acquire (BitVec.ofNat 16 (leNat [k0, k1])) m t
  | 7, _ => .join
  | _, _ => .misshapen

/-- The frame in a receive buffer, header to check character (R116). -/
def decodeFrame (chars : List Byte) : Frame :=
  match chars with
  | [] => { sender := 0, body := .misshapen }
  | h :: rest => { sender := headerSender h, body := parseBody (headerClass h) rest.dropLast }

/-- The check character matches the value over the characters before it (R110). -/
def checkMatches (chars : List Byte) : Bool :=
  chars.getLast? == some (crc chars.dropLast)

/-! ## A frame as cells: `true` is driven (R142) -/

/-- A character's ten cells: a driven start bit, eight data cells with 0 driven, a released stop bit. -/
def charLevels (isHeader : Bool) (b : Byte) : List Bool :=
  true :: ((charBits isHeader b).map not ++ [false])

/-- The cells of a run of characters that begins with the header. -/
def levelsOf : List Byte → List Bool
  | [] => []
  | h :: cs => charLevels true h ++ cs.flatMap (charLevels false)

/-- The cells a station sends for a frame, from the header's start bit to the check character's stop bit. -/
def frameLevels (f : Frame) : List Bool := levelsOf (encodeFrame f)

/-! ## Port layouts (section 10.7) -/

/-- The reply statuses and their codes (R192). -/
inductive ReplyStatus where
  | ok | badState | notMember | reqFull | claimsFull | dupClaim | noClaim | noRoom
  | badArg | unknown | empty | noEntry
  deriving DecidableEq, Repr

/-- Reply status codes. -/
def statusCode : ReplyStatus → Byte
  | .ok => 0x00
  | .badState => 0x01
  | .notMember => 0x02
  | .reqFull => 0x03
  | .claimsFull => 0x04
  | .dupClaim => 0x05
  | .noClaim => 0x06
  | .noRoom => 0x07
  | .badArg => 0x08
  | .unknown => 0x09
  | .empty => 0x0A
  | .noEntry => 0x0B

/-- Outcome codes; EXPIRED is in no DONE notice and has none. -/
def outcomeCode : Outcome → Byte
  | .granted => 0x01
  | .queued => 0x02
  | .busy => 0x03
  | .queueFull => 0x04
  | .tableFull => 0x05
  | .already => 0x06
  | .released => 0x07
  | .cancelled => 0x08
  | .renewed => 0x09
  | .notHeld => 0x0A
  | .lineRefused => 0x0B
  | .aborted => 0x0C
  | .expired => 0x00

/-- Station state codes (STATUS byte 1); LEAVING of every kind reads LEAVING (R195). -/
def stateCode : StationState → Byte
  | .unconfigured => 0
  | .idle => 1
  | .joining => 2
  | .loading => 3
  | .synced => 4
  | .leaving _ => 5
  | .halted => 6

/-- Exit cause codes (STATUS byte 2). -/
def causeCode : ExitCause → Byte
  | .none => 0
  | .left => 1
  | .streak => 2
  | .lapsed => 3
  | .joinRefused => 4
  | .joinFailed => 5
  | .leaveUnheard => 6
  | .duplicate => 7

/-- A flag as a byte. -/
def flagByte (b : Bool) : Byte := if b then 0x01 else 0x00

/-- The mode byte of a notice: 0xFF when absent. -/
def noticeModeByte : Option Mode → Byte
  | some .exclusive => 0x00
  | some .shared => 0x01
  | none => 0xFF

/-- The kind byte of a notice. -/
def noticeKindByte : NoticeKind → Byte
  | .done _ => 0x01
  | .granted => 0x02
  | .expired => 0x03
  | .purged => 0x04

/-- The outcome byte of a notice: DONE only, 0x00 in other kinds. -/
def noticeOutcomeByte : NoticeKind → Byte
  | .done o => outcomeCode o
  | .granted => 0x00
  | .expired => 0x00
  | .purged => 0x00

/-- The sequence marker and number of a notice. -/
def noticeSeqBytes : Option Seq → List Byte
  | some q => [0x01, hiByte q, loByte q]
  | none => [0x00, 0x00, 0x00]

/-- A notice as TAKE reply bytes 1..9. -/
def noticeBytes (n : Notice) : List Byte :=
  [noticeKindByte n.kind, n.ticket, hiByte n.key, loByte n.key, noticeOutcomeByte n.kind,
   noticeModeByte n.mode] ++ noticeSeqBytes n.seq

/-- A reply of fixed length whose status is not OK: every byte after the status is 0x00 (R188). -/
def statusReply (st : ReplyStatus) (length : Nat) : List Byte :=
  statusCode st :: List.replicate (length - 1) 0x00

/-- A holder position of a QUERY reply. Positions 7..5 of the station's byte are sent as 0 (DESIGN CHOICE, log
entry 26). -/
def queryHolder (h : Holder) : List Byte := [BitVec.ofNat 8 h.station.val, BitVec.ofNat 8 h.remaining]

/-- A waiter position of a QUERY reply: station in 4..0, wanted mode code in 6..5, term. Position 7 of the first
byte is sent as 0 (DESIGN CHOICE, log entry 26). -/
def queryWaiter (w : Waiter) : List Byte :=
  [(0 : BitVec 1) ++ modeCode w.wanted ++ BitVec.ofNat 5 w.station.val, BitVec.ofNat 8 w.term]

/-- Four positions of two bytes; those beyond the list are 0xFF, 0x00. -/
def fourPositions (ps : List (List Byte)) : List Byte :=
  ((ps ++ List.replicate 4 [0xFF, 0x00]).take 4).flatten

/-- The OK reply of QUERY for a slot (R193). -/
def queryReply (i : Nat) (s : Slot) : List Byte :=
  [statusCode .ok, BitVec.ofNat 8 i, hiByte s.key, loByte s.key,
   summaryByte (modeCode s.mode) s.holders.length s.waiters.length] ++
    fourPositions (s.holders.map queryHolder) ++ fourPositions (s.waiters.map queryWaiter)

/-- The numbers of the 32 stations in ascending order. -/
def stations : List Station := (List.range 32).map fun k => Fin.ofNat 32 k

/-- The roster set: bit k marks station k. -/
def rosterSetOf (r : List Member) : BitVec 32 :=
  BitVec.ofNat 32 (stations.foldr (fun p acc => (if inRoster p r then 1 else 0) + 2 * acc) 0)

/-- The silence counts, four bits a station, 0 for a station that is no member. -/
def silencesOf (r : List Member) : BitVec 128 :=
  BitVec.ofNat 128 (stations.foldr (fun p acc => ((silenceOf p r).getD 0) % 16 + 16 * acc) 0)

/-- Four queue entries, oldest first, the unused ones 0xFF. -/
def queueEntries (q : List Station) : List Byte :=
  (q.map (fun (p : Station) => BitVec.ofNat 8 p.val) ++ List.replicate 4 0xFF).take 4

/-- The transfer record's six bytes of a ROSTER reply. -/
def transferBytes : Option Transfer → List Byte
  | none => [0x00, 0x00, 0x00, 0x00, 0x00, 0x00]
  | some t => [0x01, BitVec.ofNat 8 t.joiner.val, BitVec.ofNat 8 t.sender.val, BitVec.ofNat 8 t.total,
               BitVec.ofNat 8 t.applied, BitVec.ofNat 8 t.idle]

/-- The ROSTER reply for a roster, a join queue and a transfer record (R194). -/
def rosterReply (roster : List Member) (queue : List Station) (t : Option Transfer) : List Byte :=
  [statusCode .ok] ++ leBytes 4 (rosterSetOf roster).toNat ++ leBytes 16 (silencesOf roster).toNat ++
    [BitVec.ofNat 8 queue.length] ++ queueEntries queue ++ transferBytes t

end Sys2Proof.Machine
end

