-- ==== Sys2Proof/Machine/Flags.lean ====
section
/-! DEFINITION. The flags and outputs computed from the state: ATTN (R183), which candidates stand
(R133), whether the station takes part in a frame (R117), the streak after a frame end (R130). -/

namespace Sys2Proof.Machine

/-- ATTN is driven low while the notice queue holds an entry or the station-changed flag is set; while
RESET is asserted it is released (R183). -/
def State.attnDriven (s : State) : Bool :=
  !s.pins.resetLow && (!s.desk.notices.isEmpty || s.attention.changed)

/-- The BEAT candidate stands in SYNCED or LEAVING of kind MEMBER (R133). -/
def State.beatStands (s : State) : Bool := s.sel.beat && s.ctl.state.isMember

/-- The PART candidate: the station is sending and its transfer record is ACTIVE with itself as sender (R80, R133). -/
def State.partStands (s : State) : Bool :=
  s.ctl.state.isMember && s.xfer.image.isSome && s.xfer.cursor.isSome &&
    s.replica.transfer.any fun t => t.sender == s.own

/-- The HEAD candidate: SYNCED, join queue non-empty, transfer record NONE, HEAD not barred (R76, R133). -/
def State.headStands (s : State) : Bool :=
  s.ctl.state == .synced && !s.replica.joinQueue.isEmpty && s.replica.transfer.isNone && !s.sel.headBarred

/-- The FOUND candidate stands in JOINING (R64, R133). -/
def State.foundStands (s : State) : Bool := s.sel.found && s.ctl.state == .joining

/-- The LEAVE candidate stands in LEAVING, any kind (R67, R133). -/
def State.leaveStands (s : State) : Bool := s.sel.leave && s.ctl.state.isLeaving

/-- The JOIN candidate stands in JOINING, or in LOADING with a restart pending (R59, R91, R133). -/
def State.joinStands (s : State) : Bool :=
  s.sel.join && (s.ctl.state == .joining || s.ctl.state == .loading)

/-- The station takes part in a frame of this class, taken in this state at the header's stop bit; `none`
is a header whose stop cell was sampled driven, so that the class is unknown (R117), or whose own start cell was
sampled released, which is taken alike (DESIGN CHOICE, log entry 25). -/
def takesPart (st : StationState) (cls : Option Nat) : Bool :=
  match st with
  | .unconfigured => false
  | .idle => false
  | .joining => cls == some 2 || cls == some 7
  | .loading => true
  | .synced => true
  | .leaving _ => true
  | .halted => false

/-- The streak count a frame end leaves, before the limit is looked at (R130). -/
def nextStreak (n : Nat) (e : FrameEnd) : Nat :=
  if e.sent == .broken then n
  else match e.raised with
    | .error => n + 1
    | .breakSeen => n
    | .refusal => if e.clean then 0 else n
    | .nothing => if e.clean then 0 else n

/-- The yield flag a frame end leaves: set by an applied own request frame, cleared by an applied frame
of another station (R137). -/
def nextYield (own : Station) (y : Bool) (e : FrameEnd) : Bool :=
  match e.applied with
  | none => y
  | some f =>
    if e.sent == .carried then y || (decide (4 ≤ f.body.cls) && decide (f.body.cls ≤ 6))
    else if f.sender == own then y else false

end Sys2Proof.Machine
end

