-- ==== Sys2Proof/Machine/Lease.lean ====
section
/-! DEFINITION. How an applied frame changes the replicated state of a member, or of a joiner that
replays it: ACQUIRE, RELEASE and RENEW (R10..R17), a BEAT's four stages (R35..R41), LEAVE (R68), JOIN
(R60), HEAD (R78), PART (R81), completion (R83) and abandonment (R94). -/

namespace Sys2Proof.Machine

/-! ## Requests against the table -/

/-- The table a request leaves, its outcome, the mode of a GRANTED or QUEUED, and the reports of the
promotion it sets going. -/
structure Answer where
  table : Table
  outcome : Outcome
  mode : Option Mode
  reports : List Report
  deriving DecidableEq, Repr

/-- A request is compatible with a slot (R12). -/
def compatible (mode : Mode) (slot : Slot) : Bool :=
  slot.mode == .shared && mode == .shared && decide (slot.holders.length < Config.maxHolders)

/-- An applied ACQUIRE from `s` (R10..R13). -/
def applyAcquire (s : Station) (key : Key) (mode : Mode) (wait : Bool) (term : Nat) (t : Table) : Answer :=
  match findKey key t with
  | some (i, slot) =>
    if slotHas s slot then { table := t, outcome := .already, mode := none, reports := [] }
    else if slot.waiters.isEmpty && compatible mode slot then
      { table := t.set i (some { slot with holders := slot.holders ++ [{ station := s, remaining := term }] })
        outcome := .granted, mode := some slot.mode, reports := [] }
    else if !wait then { table := t, outcome := .busy, mode := none, reports := [] }
    else if Config.maxWaiters ≤ slot.waiters.length then
      { table := t, outcome := .queueFull, mode := none, reports := [] }
    else
      { table := t.set i (some { slot with
          waiters := slot.waiters ++ [{ station := s, wanted := mode, term := term }] })
        outcome := .queued, mode := some mode, reports := [] }
  | none =>
    match lowestFree t with
    | none => { table := t, outcome := .tableFull, mode := none, reports := [] }
    | some i =>
      { table := t.set i (some { key := key, mode := mode,
                                 holders := [{ station := s, remaining := term }], waiters := [] })
        outcome := .granted, mode := some mode, reports := [] }

/-- An applied RELEASE from `s` (R14..R16). -/
def applyRelease (own : Station) (seq : Seq) (s : Station) (key : Key) (t : Table) : Answer :=
  match findKey key t with
  | none => { table := t, outcome := .notHeld, mode := none, reports := [] }
  | some (i, slot) =>
    if slotHasHolder s slot then
      let r := promote own seq { slot with holders := slot.holders.filter (·.station != s) }
      { table := t.set i r.1, outcome := .released, mode := none, reports := r.2 }
    else if slotHasWaiter s slot then
      let left := { slot with waiters := slot.waiters.filter (·.station != s) }
      if (slot.waiters.head?.map (·.station)) == some s then
        let r := promote own seq left
        { table := t.set i r.1, outcome := .cancelled, mode := none, reports := r.2 }
      else { table := t.set i (some left), outcome := .cancelled, mode := none, reports := [] }
    else { table := t, outcome := .notHeld, mode := none, reports := [] }

/-- An applied RENEW from `s` (R17). -/
def applyRenew (s : Station) (key : Key) (term : Nat) (t : Table) : Answer :=
  match findKey key t with
  | none => { table := t, outcome := .notHeld, mode := none, reports := [] }
  | some (i, slot) =>
    if slotHasHolder s slot then
      { table := t.set i (some { slot with
          holders := slot.holders.map fun h => if h.station == s then { h with remaining := term } else h })
        outcome := .renewed, mode := none, reports := [] }
    else { table := t, outcome := .notHeld, mode := none, reports := [] }

/-! ## The replicated state -/

/-- What an application makes of the replicated state, the reports it hands over, and whether it removed
the own station from the roster. -/
structure Effect where
  replica : Replica
  reports : List Report
  ownGone : Bool
  deriving DecidableEq, Repr

/-- The transfer record becomes NONE (R94). -/
def Replica.abandon (r : Replica) : Replica := { r with transfer := none }

/-- Completion at a member (R83): the joiner joins the roster with count 0, leaves the head of the join
queue, and the record becomes NONE. -/
def Replica.complete (joiner : Station) (r : Replica) : Replica :=
  { r with roster := addMember joiner r.roster, joinQueue := r.joinQueue.tail, transfer := none }

/-- Whether the record is ACTIVE with this sender. -/
def sentBy (p : Station) (t : Option Transfer) : Bool := t.any fun t => t.sender == p

/-- Whether the record is ACTIVE with this joiner. -/
def joinedBy (p : Station) (t : Option Transfer) : Bool := t.any fun t => t.joiner == p

/-- A member goes, by a LEAVE or a lapse: out of the roster, purged from the table, and a transfer it was
sending abandoned (R40, R68). In a replay (`live` false) the transfer record stands (R92). -/
def Replica.removeMember (own : Station) (live : Bool) (seq : Seq) (p : Station) (r : Replica) :
    Replica × List Report :=
  let t := purge own seq p r.table
  ({ r with roster := dropMember p r.roster, table := t.1,
            transfer := if live && sentBy p r.transfer then none else r.transfer }, t.2)

/-- A joiner withdraws by a LEAVE: out of the join queue, the order of the others kept, and an active transfer to
it abandoned (R68, R94); nothing for a station that is not queued. In a replay (`live` false) the transfer record
stands (R92). -/
def Replica.removeJoiner (live : Bool) (p : Station) (r : Replica) : Replica :=
  if r.joinQueue.contains p then
    { r with
      joinQueue := r.joinQueue.filter (· != p)
      transfer := if live && joinedBy p r.transfer then none else r.transfer }
  else r

/-- Stage 3 of a BEAT over the members as the stage found them, in ascending station number (R39, R40). -/
def presenceStage (own : Station) (live : Bool) (seq : Seq) (sender : Station) :
    List Member → Replica → Effect
  | [], r => { replica := r, reports := [], ownGone := false }
  | m :: ms, r =>
    if m.station == sender then presenceStage own live seq sender ms r
    else if Config.lapseAt ≤ m.silence + 1 then
      let a := r.removeMember own live seq m.station
      let b := presenceStage own live seq sender ms a.1
      { replica := b.replica, reports := a.2 ++ b.reports, ownGone := m.station == own || b.ownGone }
    else
      presenceStage own live seq sender ms
        { r with roster := setSilence m.station (m.silence + 1) r.roster }

/-- Stage 4 of a BEAT: the transfer's idle beats (R41). -/
def idleStage (r : Replica) : Replica :=
  match r.transfer with
  | none => r
  | some t =>
    if Config.idleAt ≤ t.idle + 1 then r.abandon
    else { r with transfer := some { t with idle := t.idle + 1 } }

/-- Stages 2 to 4 of a BEAT, stage 1 being the reset of R42; a replayed BEAT has no stage 4 (R35, R92). -/
def applyBeat (own : Station) (live : Bool) (seq : Seq) (sender : Station) (r : Replica) : Effect :=
  let two := countDown own seq r.table
  let three := presenceStage own live seq sender r.roster { r with table := two.1 }
  { replica := if live then idleStage three.replica else three.replica
    reports := two.2 ++ three.reports
    ownGone := three.ownGone }

/-- An applied LEAVE from `p` (R68): the sender goes wherever it stands (R58), out of the roster and out of the join
queue. The two cases of R68 do not shut each other out: a sender that stands in both, as the corner of log entry 30
lets it, takes both, and the transfer is abandoned at most once (R94). -/
def applyLeave (own : Station) (live : Bool) (seq : Seq) (p : Station) (r : Replica) : Effect :=
  let a := if inRoster p r.roster then r.removeMember own live seq p else (r, [])
  { replica := a.1.removeJoiner live p, reports := a.2, ownGone := inRoster p r.roster && p == own }

/-- An applied JOIN from `j` (R60). The refusals of R60 keep the queue at four stations outside the roster (R58); a
copy that took no part in the frame raised none, and there `j` is appended all the same, as a fifth or with `j` in
the roster (DESIGN CHOICE, log entry 30). -/
def applyJoin (live : Bool) (j : Station) (r : Replica) : Replica :=
  if r.joinQueue.contains j then
    if live && joinedBy j r.transfer then r.abandon else r
  else { r with joinQueue := r.joinQueue ++ [j] }

/-- An applied HEAD from `h` announcing `n` parts (R78). -/
def applyHead (h : Station) (n : Nat) (r : Replica) : Replica :=
  match r.joinQueue.head? with
  | none => r
  | some j =>
    let r := { r with transfer := some { joiner := j, sender := h, total := n, applied := 0, idle := 0 } }
    if n = 0 then r.complete j else r

/-- An applied PART (R81). -/
def applyPart (r : Replica) : Replica :=
  match r.transfer with
  | none => r
  | some t =>
    if t.applied + 1 = t.total then r.complete t.joiner
    else { r with transfer := some { t with applied := t.applied + 1, idle := 0 } }

/-- The reports of a request: the OWN_FRAME report of an own frame, then those of the promotion (R19). -/
def requestReports (ownFrame : Bool) (key : Key) (seq : Seq) (a : Answer) : List Report :=
  (if ownFrame then
    [{ origin := .ownFrame, outcome := a.outcome, key := key, mode := a.mode, seq := seq }]
   else []) ++ a.reports

/-- The application of a frame to the replicated state of a member, or in a replay (`live` false). The
sender's silence count is set to 0 first, if it is a member (R42). `seq` is the frame's number; the
number held is the caller's to advance (R124). A frame that only a copy without a part in it can apply, one that a
test of content or a refusal turns away elsewhere, has the effect of log entry 30 (DESIGN CHOICE). -/
def Replica.apply (own : Station) (ownFrame live : Bool) (seq : Seq) (f : Frame) (r : Replica) : Effect :=
  let r := { r with roster := setSilence f.sender 0 r.roster }
  match f.body with
  | .beat => applyBeat own live seq f.sender r
  | .present => { replica := r, reports := [], ownGone := false }
  | .head b => { replica := applyHead f.sender b.partCount.toNat r, reports := [], ownGone := false }
  | .part _ => { replica := applyPart r, reports := [], ownGone := false }
  | .found _ => { replica := r, reports := [], ownGone := false }
  | .misshapen => { replica := r, reports := [], ownGone := false }
  | .leave => applyLeave own live seq f.sender r
  | .release key =>
    let a := applyRelease own seq f.sender key r.table
    { replica := { r with table := a.table }, reports := requestReports ownFrame key seq a, ownGone := false }
  | .renew key term =>
    let a := applyRenew f.sender key term.toNat r.table
    { replica := { r with table := a.table }, reports := requestReports ownFrame key seq a, ownGone := false }
  | .acquire key mw term =>
    match modeOf (modeBits mw) with
    | none => { replica := r, reports := [], ownGone := false }
    | some mode =>
      let a := applyAcquire f.sender key mode (waitBit mw) term.toNat r.table
      { replica := { r with table := a.table }, reports := requestReports ownFrame key seq a, ownGone := false }
  | .join => { replica := applyJoin live f.sender r, reports := [], ownGone := false }

/-- The replay of a journal (R92): before a record whose number is more than one above that of the frame
before it, the sender's silence count is set to 0; then the record is applied with its own number. -/
def replay (own sender : Station) : Seq → List JournalRecord → Replica → Replica × List Report
  | _, [], r => (r, [])
  | prev, j :: js, r =>
    let r := if 1 < (j.seq - prev).toNat then { r with roster := setSilence sender 0 r.roster } else r
    let a := r.apply own false false j.seq j.frame
    let b := replay own sender j.seq js a.replica
    (b.1, a.reports ++ b.2)

end Sys2Proof.Machine
end

