-- ==== Sys2Proof/Machine/Membership.lean ====
section
/-! DEFINITION. The Station Controller's moves (chapter 3) and what each block does at them: exit from
membership (R72, R73), entry to SYNCED (R32, R138), entry to LOADING and the joiner's side of a transfer
(R86..R96), and the setting of the JOIN candidate (R59). -/

namespace Sys2Proof.Machine

/-! ## Candidates and the joining record -/

/-- Every candidate, count and flag of the Offer Selector cleared (R138). The last frame end stays as the record of
what was handed, and the end of an own broken frame that waits is still handed at the first idle gap, its candidate
gone (DESIGN CHOICE, log entry 10). -/
def Selector.cleared (x : Selector) : Selector :=
  { Selector.reset with lastEnd := x.lastEnd, brokenEnds := (x.forget fun _ => true).brokenEnds }

/-- The joining record at its starting values (R53, R59). -/
def Controller.clearJoining (c : Controller) : Controller :=
  { c with preGroup := [], groupSeen := false, listed := false, ownJoinApplied := false }

/-- The JOIN candidate is set: own-JOIN-applied is cleared and the JOIN's count starts at 0 (R59, R127). -/
def State.setJoin (s : State) : State :=
  { s with sel := { s.sel with join := true, joinCount := 0 }
           ctl := { s.ctl with ownJoinApplied := false } }

/-- The JOIN candidate is withdrawn, and its count cleared (R59, R127). -/
def State.dropJoin (s : State) : State :=
  { s with sel := { s.sel.forget (· == .join) with join := false, joinCount := 0 } }

/-- The found window loaded with 1000 ms (R63). -/
def State.loadWindow (s : State) : State :=
  { s with timer := { s.timer with window := .load Config.foundWindow } }

/-- The image and cursor cleared, and the PART candidate withdrawn with its count (R84, R95). -/
def State.stopSending (s : State) : State :=
  { s with xfer := { s.xfer with image := none, cursor := none }, sel := s.sel.dropPart }

/-! ## Exit from membership -/

/-- The LIU at entry to HALTED: hunting blind, everything clear, LINE let go (R156). -/
def Liu.halt (l : Liu) : Liu := { Liu.reset with sampler := l.sampler, lastRecord := l.lastRecord }

/-- Exit from membership to a state with a cause: each block acts on its own state (R73). The exit report
carries the sequence number as it stands, and reaches the Local Request Unit before the table is freed
(R22, R27); the number is 0 afterwards (R124). -/
def State.exit (cause : ExitCause) (st : StationState) (s : State) : State :=
  { s with
    desk := s.desk.exitReport s.replica.seq
    replica := Replica.empty
    xfer := TransferUnit.reset
    timer := { s.timer with countdown := .stopped, window := .stopped }
    sel := s.sel.cleared
    ctl := { s.ctl.clearJoining with state := st, cause := cause }
    attention := s.attention.stateChanged }

/-- The states in which a trigger of the Offer Selector or of an application is taken (R50); elsewhere it
has no effect (R56, R72). -/
def exitTaken (cause : ExitCause) (st : StationState) : Bool :=
  match cause with
  | .none => false
  | .left => st.isLeaving
  | .joinFailed => st.isLeaving
  | .lapsed => st.isMember
  | .streak => st.participating
  | .joinRefused => st == .joining || st == .loading
  | .leaveUnheard => st.isLeaving
  | .duplicate => st.participating

/-- A trigger that leads to IDLE reaches the Station Controller (R50). -/
def State.exitOn (cause : ExitCause) (s : State) : State :=
  if exitTaken cause s.ctl.state then s.exit cause .idle else s

/-- The DUPLICATE report reaches the Station Controller (R70): an exit to HALTED, or from IDLE the entry
to HALTED with no exit report; the LIU drives LINE no more (R156). -/
def State.duplicateReport (s : State) : State :=
  if s.ctl.state.participating then
    let s := s.exit .duplicate .halted
    { s with liu := s.liu.halt }
  else if s.ctl.state == .idle then
    let s := s.enter .halted
    { s with ctl := { s.ctl with cause := .duplicate }, liu := s.liu.halt,
             sel := s.sel.cleared }
  else s

/-! ## Entry to SYNCED -/

/-- Entry to SYNCED: the joining record cleared, the beat countdown loaded, the found window stopped, the
candidates by their rules, every count 0, the bar, the yield and the PRESENT flag clear, the streak kept
(R32, R47, R65, R138; log entry 11). -/
def State.enterSynced (s : State) : State :=
  let s := s.enter .synced
  { s with
    ctl := s.ctl.clearJoining
    timer := { s.timer with countdown := .load s.timer.interval, window := .stopped }
    sel := { s.sel.cleared with streak := s.sel.streak } }

/-- Entry to LEAVING from JOINING or LOADING: only the LEAVE candidate stands, the counts and flags clear
but the streak, no replicated state, no load, the found window stopped (R55, R96, R124, R138). The
attempt count is kept until the exit (R85). -/
def State.withdraw (kind : LeaveKind) (s : State) : State :=
  let s := s.enter (.leaving kind)
  { s with
    ctl := s.ctl.clearJoining
    replica := Replica.empty
    xfer := { TransferUnit.reset with attempts := s.xfer.attempts }
    timer := { s.timer with countdown := .stopped, window := .stopped }
    sel := { s.sel.cleared with leave := true, streak := s.sel.streak
                                onLine := (s.sel.forget fun _ => true).onLine } }

/-! ## The joiner's load -/

/-- Stations named by the first `count` entries of a carried join queue (R106). -/
def carriedQueue (b : HeadBody) : List Station :=
  (b.entries.take b.queueCount.toNat).map fun e => (e.extractLsb' 0 5).toFin

/-- The silence count a HEAD carries for a station (R106). -/
def carriedSilence (b : HeadBody) (p : Station) : Nat := (b.silences.extractLsb' (4 * p.val) 4).toNat

/-- The roster a HEAD carries, in ascending station number (R106). -/
def carriedRoster (b : HeadBody) : List Member :=
  (stations.filter fun p => b.rosterSet.getLsbD p.val).map fun p =>
    { station := p, silence := carriedSilence b p }

/-- A mode code of a PART that has passed R113 as the mode it names; for one that has not, log entry 30. -/
def carriedMode (c : BitVec 2) : Mode := (modeOf c).getD .exclusive

/-- The slot a PART carries (R26, R87). -/
def carriedSlot (b : PartBody) : Slot where
  key := b.key
  mode := carriedMode b.mode
  holders := b.holders.map fun h => { station := h.station, remaining := h.remaining.toNat }
  waiters := b.waiters.map fun w =>
    { station := w.station, wanted := carriedMode w.wanted, term := w.term.toNat }

/-- The rest of the final frame's application at the joiner, after the parts are in (R92, R93): the replay
from the HEAD's number, the sender's count to 0, the completion, and SYNCED. The replay's reports are
handed over (R18). -/
def State.completeLoad (s : State) : State :=
  match s.replica.transfer with
  | none => s
  | some t =>
    let played := replay s.own t.sender s.xfer.headSeq s.xfer.journal s.replica
    let r := { played.1 with roster := setSilence t.sender 0 played.1.roster }
    let s := { s with
      replica := r.complete s.own
      desk := s.desk.takeReports played.2
      xfer := TransferUnit.reset }
    s.enterSynced

/-- The entry to LOADING at a HEAD naming the own station (R86). -/
def State.loadBegun (h : Station) (b : HeadBody) (s : State) : State :=
  let s := s.enter .loading
  { s with
    replica := {
      table := emptyTable
      roster := setSilence h 0 (carriedRoster b)
      joinQueue := carriedQueue b
      transfer := some { joiner := s.own, sender := h, total := b.partCount.toNat, applied := 0, idle := 0 }
      seq := b.seq }
    xfer := { TransferUnit.reset with phase := some .recording, headSeq := b.seq,
                                        attempts := s.xfer.attempts + 1 }
    ctl := { s.ctl with preGroup := [], groupSeen := false } }.dropJoin.loadWindow

/-- A HEAD naming the own station, taken (R86); with no parts announced the load completes in the same
application. -/
def State.startLoad (h : Station) (b : HeadBody) (s : State) : State :=
  if b.partCount = 0 then (s.loadBegun h b).completeLoad else s.loadBegun h b

/-- Abandonment at the joiner (R96): the load cleared, the JOIN of a pending restart withdrawn, and by the
attempt count back to JOINING or on to LEAVING of kind FAILED. -/
def State.abandonLoad (s : State) : State :=
  let s := s.dropJoin
  let s := { s with replica := Replica.empty,
                    xfer := { TransferUnit.reset with attempts := s.xfer.attempts } }
  if s.xfer.attempts < Config.maxAttempts then
    let s := s.enter .joining
    { s with ctl := { s.ctl with groupSeen := true, preGroup := [] } }.loadWindow
  else s.withdraw .failed

end Sys2Proof.Machine
end

