-- ==== Sys2Proof/Machine/Apply.lean ====
section
/-! DEFINITION. What the station does with an applied frame, by its state (R117): as a member, in
JOINING (R61, R62, R65), in LOADING (R87..R91), and in LEAVING of kind WITHDRAWN or FAILED (R69). -/

namespace Sys2Proof.Machine

/-! ## A member -/

/-- The Beat Timer's and the Offer Selector's part of an applied BEAT: the countdown reloaded and the BEAT
candidate withdrawn (R32, R33), the bar on the HEAD lifted (R128), and the PRESENT flag set when the own
count stands at 6 or 7 (R43). -/
def State.beatApplied (s : State) : State :=
  let own := silenceOf s.own s.replica.roster
  { s with
    timer := { s.timer with countdown := .load s.timer.interval }
    sel := { s.sel with beat := false, headBarred := false,
                        present := s.sel.present || own == some 6 || own == some 7 } }

/-- The sender's part of its own HEAD: the table as it stood before it becomes the image, the cursor its
lowest occupied index (R79); the PART's count starts (R127). -/
def State.headSent (table : Table) (s : State) : State :=
  { s with xfer := { s.xfer with image := some table, cursor := nextOccupied 0 table }
           sel := s.sel.dropPart.dropHead }

/-- The sender's part of its own PART: the cursor moves to the next occupied slot of the image (R81), and
the next part's count starts (R127). -/
def State.partSent (s : State) : State :=
  { s with xfer := { s.xfer with
             cursor := s.xfer.cursor.bind fun c => s.xfer.image.bind (nextOccupied (c + 1)) }
           sel := s.sel.dropPart }

/-- The Offer Selector's part of a member's own frame: the PRESENT flag clears at any own frame (R43); an
applied request makes way for the next, whose count starts at 0 (R127); an applied LEAVE is withdrawn (R67). -/
def Selector.ownApplied (b : Body) (x : Selector) : Selector :=
  let x := { x with present := false }
  match b with
  | .release _ => x.nextRequest
  | .renew _ _ => x.nextRequest
  | .acquire _ _ _ => x.nextRequest
  | .leave => { x with leave := false, leaveCount := 0 }
  | .beat | .present | .head _ | .part _ | .found _ | .misshapen | .join => x

/-- Candidates follow the record: with a NONE record nothing is being sent (R83, R95); a HEAD candidate
that no longer stands takes its count with it (R127). -/
def State.settleCandidates (s : State) : State :=
  let s := if s.replica.transfer.isNone then s.stopSending else s
  if s.headStands then s else { s with sel := s.sel.dropHead }

/-- What the frame makes of a member's replicated state, with its number, one more than the last (R124). -/
def State.memberEffect (f : Frame) (own : Bool) (s : State) : Effect :=
  { s.replica with seq := s.replica.seq + 1 }.apply s.own own true (s.replica.seq + 1) f

/-- The Beat Timer's, the Transfer Unit's and the Offer Selector's part of an applied frame, by its body; the
table is that from before the frame. An applied HEAD of another member makes the record ACTIVE, so the own HEAD
candidate is withdrawn with its count, also where the transfer completes in the same application (R76, R127). -/
def State.memberParts (table : Table) (b : Body) (own : Bool) (s : State) : State :=
  match b with
  | .beat => s.beatApplied
  | .head _ => if own then s.headSent table else { s with sel := s.sel.dropHead }
  | .part _ => if own then s.partSent else s
  | .present | .found _ | .misshapen | .leave | .release _ | .renew _ _ | .acquire _ _ _ | .join => s

/-- A frame applied by a member (R35, R68, R78, R81, chapter 1): the replicated state changes, the reports
reach the Local Request Unit in order (R18), and the other blocks take their part. -/
def State.memberApplied (f : Frame) (own : Bool) (s : State) : State :=
  let a := s.memberEffect f own
  { s with
    replica := a.replica
    desk := s.desk.takeReports a.reports
    sel := if own then s.sel.ownApplied f.body else s.sel }.memberParts s.replica.table f.body own

/-- A frame applied by a member, to its end: an own LEAVE or an own lapse ends in the exit, after everything
else (R28, R40, R72). -/
def State.applyMember (f : Frame) (own : Bool) (s : State) : State :=
  let t := (s.memberApplied f own).settleCandidates
  if (s.memberEffect f own).ownGone then t.exitOn (if f.body = .leave then .left else .lapsed) else t

/-! ## A station in JOINING -/

/-- A JOIN's sender appended to the pre-group list, unless it is there (R61). The list holds up to four (R59): where the
station took no part in the frame and so did not refuse it, a fifth is left out (DESIGN CHOICE, log entry 30). -/
def appendPreGroup (j : Station) (l : List Station) : List Station :=
  if l.contains j || decide (Config.maxJoiners ≤ l.length) then l else l ++ [j]

/-- A JOIN applied in JOINING (R61). -/
def State.joinSeen (j : Station) (own : Bool) (s : State) : State :=
  let s :=
    if s.ctl.groupSeen then s
    else { s with ctl := { s.ctl with preGroup := appendPreGroup j s.ctl.preGroup } }
  if own then
    let s := { s with ctl := { s.ctl with listed := s.ctl.listed || s.ctl.groupSeen } }.dropJoin.loadWindow
    { s with ctl := { s.ctl with ownJoinApplied := true } }
  else s

/-- A group frame observed in JOINING (R62, steps 1 to 3). -/
def State.groupNoted (s : State) : State :=
  let t := { s with ctl := { s.ctl with groupSeen := true, preGroup := [] },
                    sel := { s.sel with found := false } }
  if s.timer.window.isRunning || s.ctl.ownJoinApplied then t.loadWindow else t

/-- The join queue that a HEAD or FOUND carries, read in JOINING (R62, step 4). -/
def State.queueRead (q : List Station) (s : State) : State :=
  if q.contains s.own then { s with ctl := { s.ctl with listed := true } }.dropJoin
  else if s.sel.join then { s with ctl := { s.ctl with listed := false } }
  else { s with ctl := { s.ctl with listed := false } }.setJoin

/-- A group frame observed in JOINING, with the join queue a HEAD or FOUND carries (R62). -/
def State.groupFrame (queue : Option (List Station)) (s : State) : State :=
  match queue with
  | none => s.groupNoted
  | some q => s.groupNoted.queueRead q

/-- The founder's application of its own FOUND (R65, R25). -/
def State.foundGroup (b : HeadBody) (s : State) : State :=
  { s with replica := { table := emptyTable, roster := [{ station := s.own, silence := 0 }],
                        joinQueue := carriedQueue b, transfer := none, seq := 0 } }.enterSynced

/-- A frame applied in JOINING (R61, R62, R65, R66). -/
def State.applyJoining (f : Frame) (own : Bool) (s : State) : State :=
  match f.body with
  | .join => s.joinSeen f.sender own
  | .found b => if own then s.foundGroup b else s.groupFrame (some (carriedQueue b))
  | .head b =>
    let s := s.groupFrame (some (carriedQueue b))
    if b.joiner.toNat = s.own.val then s.startLoad f.sender b else s
  | .beat | .present | .part _ | .misshapen | .leave | .release _ | .renew _ _ | .acquire _ _ _ =>
    s.groupFrame none

/-! ## A station in LOADING -/

/-- A live frame is recorded, with the number it received; the one that would be the 33rd record spoils
the load: the records are discarded and the restart JOIN becomes a candidate (R88, R91). -/
def State.record (f : Frame) (s : State) : State :=
  if s.xfer.phase = some .recording then
    if s.xfer.journal.length < Config.maxJournal then
      { s with xfer := { s.xfer with
          journal := s.xfer.journal ++ [{ frame := f, seq := s.replica.seq }] } }
    else { s with xfer := { s.xfer with journal := [], phase := some .spoiled } }.setJoin
  else s

/-- A PART of the own transfer counts as applied: idle beats, the sender watch and the sender's count go
to 0 (R75, R87). -/
def State.partCounted (t : Transfer) (s : State) : State :=
  { s with
    replica := { s.replica with
      transfer := some { t with applied := t.applied + 1, idle := 0 }
      roster := setSilence t.sender 0 s.replica.roster }
    xfer := { s.xfer with watch := 0 } }

/-- A PART applied in LOADING: installed exactly as carried at its index (R26, R87), and at the final part
the replay and completion follow (R92, R93). A PART of a spoiled load is refused (R91), so that case
only counts. -/
def State.partTaken (b : PartBody) (t : Transfer) (s : State) : State :=
  let s := s.partCounted t
  if s.xfer.phase = some .recording then
    let s := { s with replica := { s.replica with
      table := s.replica.table.set b.slot.toNat (some (carriedSlot b)) } }
    if t.applied + 1 = t.total then s.completeLoad else s
  else s

/-- Idle beats at a BEAT in LOADING; at 4 the transfer is abandoned (R89). -/
def State.idleBeat (t : Transfer) (s : State) : State :=
  if Config.idleAt ≤ t.idle + 1 then s.abandonLoad
  else { s with replica := { s.replica with transfer := some { t with idle := t.idle + 1 } } }

/-- The live effects of a BEAT in LOADING: the sender watch before the idle beats (R89). -/
def State.beatTracked (sender : Station) (t : Transfer) (s : State) : State :=
  if sender == t.sender then s.idleBeat t
  else if Config.lapseAt ≤ s.xfer.watch + 1 then s.abandonLoad
  else { s with xfer := { s.xfer with watch := s.xfer.watch + 1 } }.idleBeat t

/-- A frame applied in LOADING (R87, R88, R89): the number advances, the found window is loaded, the frame
is recorded where it is one to record, and its live effects are taken. A BEAT that would be the 33rd record sets
the restart JOIN before its live effects, so where it abandons the load as well the station goes back with
own-JOIN-applied cleared (R91, R96; DESIGN CHOICE, log entry 24). -/
def State.applyLoading (f : Frame) (own : Bool) (s : State) : State :=
  let s := { s with replica := { s.replica with seq := s.replica.seq + 1 } }.loadWindow
  match s.replica.transfer with
  | none => s
  | some t =>
    let s := if f.sender == t.sender then { s with xfer := { s.xfer with watch := 0 } } else s
    match f.body with
    | .beat => (s.record f).beatTracked f.sender t
    | .present => s.record f
    | .head _ => s
    | .part b => if f.sender == t.sender then s.partTaken b t else s
    | .found b =>
      let s := s.abandonLoad
      if s.ctl.state = .joining then s.groupFrame (some (carriedQueue b)) else s
    | .misshapen => s
    | .leave => if f.sender == t.sender then s.abandonLoad else s.record f
    | .release _ => s.record f
    | .renew _ _ => s.record f
    | .acquire _ _ _ => s.record f
    | .join =>
      if own then { s with ctl := { s.ctl with ownJoinApplied := true } }.abandonLoad else s.record f

/-! ## Every state -/

/-- What the station does with an applied frame (R117). A LEAVING station of kind WITHDRAWN or FAILED acts
on its own LEAVE alone (R55, R69). -/
def State.applyFrame (f : Frame) (own : Bool) (s : State) : State :=
  match s.ctl.state with
  | .unconfigured => s
  | .idle => s
  | .joining => s.applyJoining f own
  | .loading => s.applyLoading f own
  | .synced => s.applyMember f own
  | .leaving .member => s.applyMember f own
  | .leaving .withdrawn => if own && f.body == .leave then s.exitOn .left else s
  | .leaving .failed => if own && f.body == .leave then s.exitOn .joinFailed else s
  | .halted => s

end Sys2Proof.Machine
end

