-- ==== Sys2Proof/Machine/Content.lean ====
section
/-! DEFINITION. The findings made on a frame before its verdict window: malformed content (R77,
R111..R114) and refusals (R122). In each test `true` is "found wrong". -/

namespace Sys2Proof.Machine

/-! ## Tests that need the frame alone -/

/-- A request frame (R111): a key of 0, a term of 0, an undefined mode code, an unused position set. -/
def requestMalformed : Body → Bool
  | .release key => key == 0
  | .renew key term => key == 0 || term == 0
  | .acquire key mw term =>
    key == 0 || term == 0 || (modeOf (modeBits mw)).isNone || !unusedClear mw
  | .beat | .present | .head _ | .part _ | .found _ | .misshapen | .leave | .join => false

/-- No two of the list are equal. -/
def allDistinct {α : Type} [BEq α] : List α → Bool
  | [] => true
  | x :: xs => !xs.contains x && allDistinct xs

/-- The entries of a HEAD's or FOUND's queue that its count takes in. -/
def countedEntries (b : HeadBody) : List Byte := b.entries.take b.queueCount.toNat

/-- A silence count that does not fit the roster set (R112). -/
def silenceMalformed (b : HeadBody) (p : Station) : Bool :=
  if b.rosterSet.getLsbD p.val then decide (7 < carriedSilence b p) else carriedSilence b p != 0

/-- A station number given as a character is marked in the roster set. -/
def marked (b : HeadBody) (e : Byte) : Bool := decide (e.toNat < 32) && b.rosterSet.getLsbD e.toNat

/-- The tests of R112 made on a HEAD and a FOUND alike. -/
def bothMalformed (b : HeadBody) : Bool :=
  decide (31 < b.joiner.toNat) || decide (64 < b.partCount.toNat) ||
  decide (Config.maxJoiners < b.queueCount.toNat) ||
  (countedEntries b).any (fun e => decide (31 < e.toNat)) || !allDistinct (countedEntries b) ||
  stations.any (silenceMalformed b)

/-- The further tests of R112 on a HEAD. -/
def headMalformed (sender : Station) (b : HeadBody) : Bool :=
  bothMalformed b || !b.rosterSet.getLsbD sender.val || marked b b.joiner || b.queueCount == 0 ||
  b.entries.head? != some b.joiner || (countedEntries b).any (marked b)

/-- The further tests of R112 on a FOUND. -/
def foundMalformed (sender : Station) (b : HeadBody) : Bool :=
  bothMalformed b || b.joiner.toNat != sender.val || b.seq != 0 || b.partCount != 0 ||
  b.rosterSet != BitVec.ofNat 32 (2 ^ sender.val) || decide (3 < b.queueCount.toNat) ||
  (countedEntries b).any (fun e => e.toNat == sender.val)

/-- The carried slot's head waiter is grantable, judged against the carried holders (R6, R113). -/
def headGrantable (b : PartBody) : Bool :=
  match (carriedSlot b).waiters with
  | [] => false
  | w :: _ => grantable (carriedMode b.mode) (carriedSlot b).holders w

/-- The tests of R113 on a PART. The length test is made where the frame is read: a PART of the wrong
length is misshapen. -/
def partMalformed (b : PartBody) : Bool :=
  b.index == 0 || decide (64 < b.index.toNat) || decide (63 < b.slot.toNat) || b.key == 0 ||
  (modeOf b.mode).isNone ||
  b.holders.isEmpty || decide (Config.maxHolders < b.holders.length) ||
  decide (Config.maxWaiters < b.waiters.length) ||
  (carriedMode b.mode == .exclusive && decide (1 < b.holders.length)) ||
  b.holders.any (fun h => h.remaining == 0 || h.unused != 0) ||
  b.waiters.any (fun w => w.term == 0 || (modeOf w.wanted).isNone || w.unused != 0) ||
  !allDistinct (b.holders.map (·.station) ++ b.waiters.map (·.station)) ||
  headGrantable b

/-- The tests on a class 2 frame that need no replicated state (R105, R112, R113). -/
def transferMalformed (f : Frame) : Bool :=
  match f.body with
  | .head b => headMalformed f.sender b
  | .part b => partMalformed b
  | .found b => foundMalformed f.sender b
  | .misshapen => true
  | .beat | .present | .leave | .release _ | .renew _ _ | .acquire _ _ _ | .join => false

/-! ## Tests that need replicated state (R77, R114) -/

/-- A HEAD against a member's state. -/
def headDrifted (sender : Station) (b : HeadBody) (r : Replica) : Bool :=
  r.transfer.isSome ||
  (match r.joinQueue.head? with
   | none => true
   | some j => b.joiner.toNat != j.val) ||
  !inRoster sender r.roster || b.seq != r.seq + 1

/-- A PART against the transfer record of a member or of a station in LOADING. -/
def partDrifted (sender : Station) (b : PartBody) (r : Replica) : Bool :=
  match r.transfer with
  | none => true
  | some t => t.sender != sender || b.index.toNat != t.applied + 1

/-- A PART against what a station in LOADING has installed in this load: its slot is not above every slot
installed, or its key is already held. -/
def partRepeats (b : PartBody) (r : Replica) : Bool :=
  (nextOccupied b.slot.toNat r.table).isSome || (findKey b.key r.table).isSome

/-- The tests of R114 that the station makes, by its state. -/
def driftFound (s : State) (f : Frame) : Bool :=
  if s.ctl.state.isMember then
    match f.body with
    | .head b => headDrifted f.sender b s.replica
    | .part b => partDrifted f.sender b s.replica
    | _ => false
  else if s.ctl.state == .loading then
    match f.body with
    | .head _ => true
    | .part b => partDrifted f.sender b s.replica || partRepeats b s.replica
    | _ => false
  else false

/-- The content tests a station makes, by its state (R117): R112 and R113 in JOINING, R111 to R113 in
LEAVING of kind WITHDRAWN or FAILED, R111 to R114 in LOADING and as a member. -/
def malformed (s : State) (f : Frame) : Bool :=
  match s.ctl.state with
  | .unconfigured => false
  | .idle => false
  | .joining => transferMalformed f
  | .loading => requestMalformed f.body || transferMalformed f || driftFound s f
  | .synced => requestMalformed f.body || transferMalformed f || driftFound s f
  | .leaving _ => requestMalformed f.body || transferMalformed f || driftFound s f
  | .halted => false

/-! ## Refusals (R122) -/

/-- The station refuses a well-formed frame: a member a JOIN from a roster member or against a full queue
(R60), and every FOUND (R64); a pre-group station a JOIN against a full list (R61); a spoiled joiner every
PART of its own transfer (R91). -/
def refuses (s : State) (f : Frame) : Bool :=
  match f.body with
  | .join =>
    if s.ctl.state.isMember then
      inRoster f.sender s.replica.roster ||
        (decide (Config.maxJoiners ≤ s.replica.joinQueue.length) && !s.replica.joinQueue.contains f.sender)
    else if s.ctl.state == .joining && !s.ctl.groupSeen then
      decide (Config.maxJoiners ≤ s.ctl.preGroup.length) && !s.ctl.preGroup.contains f.sender
    else false
  | .found _ => s.ctl.state.isMember
  | .part _ => s.ctl.state == .loading && s.xfer.phase == some .spoiled
  | .beat | .present | .head _ | .misshapen | .leave | .release _ | .renew _ _ | .acquire _ _ _ => false

end Sys2Proof.Machine
end

