-- ==== Sys2Proof/Machine/Offer.lean ====
section
/-! DEFINITION. The Offer Selector: composing the frames (R76, R80, R103, R106..R108, R134), the choice
(R132, R133, R136), the frame end (R125..R131, R137), and the third kind of choice, made while the line
stays released (R132). -/

namespace Sys2Proof.Machine

/-! ## Composing -/

/-- The HEAD from the state after the last applied frame (R76, R106). -/
def composeHead (s : State) : HeadBody where
  joiner := BitVec.ofNat 8 ((s.replica.joinQueue.head?.map Fin.val).getD 0)
  seq := s.replica.seq + 1
  partCount := BitVec.ofNat 8 (occupied s.replica.table)
  rosterSet := rosterSetOf s.replica.roster
  silences := silencesOf s.replica.roster
  queueCount := BitVec.ofNat 8 s.replica.joinQueue.length
  entries := queueEntries s.replica.joinQueue

/-- The FOUND from the pre-group list less the own number, at most three entries (R64, R107). -/
def composeFound (s : State) : HeadBody :=
  let q := (s.ctl.preGroup.filter (· != s.own)).take 3
  { joiner := BitVec.ofNat 8 s.own.val
    seq := 0
    partCount := 0
    rosterSet := BitVec.ofNat 32 (2 ^ s.own.val)
    silences := 0
    queueCount := BitVec.ofNat 8 q.length
    entries := queueEntries q }

/-- The PART from an image slot, with its index and its place in the table (R80, R108). -/
def composePart (index : Nat) (i : Nat) (slot : Slot) : PartBody where
  index := BitVec.ofNat 8 index
  slot := BitVec.ofNat 8 i
  key := slot.key
  mode := modeCode slot.mode
  holders := slot.holders.map fun h =>
    { station := h.station, unused := 0, remaining := BitVec.ofNat 8 h.remaining }
  waiters := slot.waiters.map fun w =>
    { station := w.station, wanted := modeCode w.wanted, unused := 0, term := BitVec.ofNat 8 w.term }

/-- The PART the sender offers, if it has one (R80). -/
def partOffer (s : State) : Option PartBody :=
  if s.partStands then
    match s.replica.transfer, s.xfer.image, s.xfer.cursor with
    | some t, some image, some c => (slotAt image c).map (composePart (t.applied + 1) c)
    | _, _, _ => none
  else none

/-- A request's frame (R102, R103). -/
def requestBody (r : Request) : Body :=
  match r.kind with
  | .acquire => .acquire r.key (modeWaitByte r.mode r.wait) r.term
  | .release => .release r.key
  | .renew => .renew r.key r.term

/-! ## The choice -/

/-- The candidate of class 0..3 that stands, lowest class first, with its body (R132, R133). -/
def firstClasses (s : State) : Option (CandKind × Body) :=
  if s.beatStands then some (.beat, .beat)
  else if s.sel.present && s.ctl.state.isMember then some (.present, .present)
  else match partOffer s with
    | some b => some (.part b.index, .part b)
    | none =>
      if s.headStands then some (.head, .head (composeHead s))
      else if s.foundStands then some (.found, .found (composeFound s))
      else if s.leaveStands then some (.leave, .leave)
      else none

/-- The pre-check at a choice (R136, R165); a new head starts its objection count at 0 (R127). -/
def State.preCheck (s : State) : State :=
  let d := s.desk.preCheck s.desk.requests.length
  { s with desk := d
           sel := if d.requests.length = s.desk.requests.length then s.sel
                  else s.sel.nextRequest }

/-- The frame is offered: its header begins, the own start bit being also an accepted frame start for the
own receiver (R145 steps 1 and 2, R146). -/
def State.offer (kind : CandKind) (body : Body) (s : State) : State :=
  { s with
    sel := { s.sel with onLine := some { kind := some kind, frame := { sender := s.own, body := body } } }
    liu := { s.liu with linePhase := .contend, transmitting := true, buffer := [], noisy := 0,
                        errorSeen := false, blind := false } }

/-- A choice (R132): nothing outside the participating states; the frame of the lowest class among the
candidates, or nothing. The pre-check is made only where a request could be offered (R136). -/
def State.choice (s : State) : State :=
  if !s.ctl.state.participating then s
  else match firstClasses s with
    | some (k, b) => s.offer k b
    | none =>
      if s.ctl.state == .synced && !s.sel.yielding && !s.desk.requests.isEmpty then
        let s := s.preCheck
        match s.desk.requests with
        | [] => s
        | r :: _ => s.offer (.request r.ticket) (requestBody r)
      else if s.joinStands then s.offer .join .join
      else s

/-- The choice at an event that sets a candidate while the LIU stays in GAP with nothing offered (R132). -/
def State.gapChoice (s : State) : State :=
  if s.liu.linePhase == .gap && s.sel.onLine.isNone then s.choice else s

/-! ## The frame end -/

/-- Which of two exits that fall on one frame end is taken first (R72). -/
inductive FirstTrigger where
  | streak | other | free
  deriving DecidableEq, Repr

/-- The request on the line at a STOP completes with ABORTED when its frame is not applied (R129, R170). -/
def State.abortHead (ticket : Ticket) (s : State) : State :=
  if (s.desk.requests.head?.map (·.ticket)) == some ticket then
    { s with desk := s.desk.concludeHead .aborted none none, sel := s.sel.nextRequest }
  else s

/-- An objection drawn by the frame of a candidate: its count, and the consequence of the eighth (R126,
R127, R128); it is dropped when the candidate is gone (R135). The exit it asks for, if any, stands beside
the state. -/
def State.countObjection (kind : CandKind) (s : State) : State × Option ExitCause :=
  match kind with
  | .request t =>
    if s.ctl.state.isLeaving then (s.abortHead t, none)
    else if (s.desk.requests.head?.map (·.ticket)) == some t then
      if Config.objectionLimit ≤ s.sel.requestCount + 1 then
        ({ s with desk := s.desk.concludeHead .lineRefused none none, sel := s.sel.nextRequest }, none)
      else ({ s with sel := { s.sel with requestCount := s.sel.requestCount + 1 } }, none)
    else (s, none)
  | .join =>
    if s.joinStands then
      if Config.objectionLimit ≤ s.sel.joinCount + 1 then (s, some .joinRefused)
      else ({ s with sel := { s.sel with joinCount := s.sel.joinCount + 1 } }, none)
    else (s, none)
  | .leave =>
    if s.leaveStands then
      if Config.objectionLimit ≤ s.sel.leaveCount + 1 then (s, some .leaveUnheard)
      else ({ s with sel := { s.sel with leaveCount := s.sel.leaveCount + 1 } }, none)
    else (s, none)
  | .part i =>
    if (partOffer s).any (fun b => b.index == i) then
      if Config.objectionLimit ≤ s.sel.partCount + 1 then (s.stopSending, none)
      else ({ s with sel := { s.sel with partCount := s.sel.partCount + 1 } }, none)
    else (s, none)
  | .head =>
    if s.headStands then
      if Config.objectionLimit ≤ s.sel.headCount + 1 then
        ({ s with sel := { s.sel.dropHead with headBarred := true } }, none)
      else ({ s with sel := { s.sel with headCount := s.sel.headCount + 1 } }, none)
    else (s, none)
  | .beat => (s, none)
  | .present => (s, none)
  | .found => (s, none)

/-- The own frame's part of a frame end (R125 step 2): an applied own frame draws none; a lost header
draws none, but ends a request stopped while on the line (R129); a broken or objected frame draws one. -/
def State.ownEnd (e : FrameEnd) (kind : Option CandKind) (s : State) : State × Option ExitCause :=
  match kind with
  | none => (s, none)
  | some k =>
    match e.sent with
    | .none => (s, none)
    | .lost =>
      match k with
      | .request t => if s.ctl.state.isLeaving then (s.abortHead t, none) else (s, none)
      | _ => (s, none)
    | .broken => s.countObjection k
    | .carried => if e.ending == .applied then (s, none) else s.countObjection k

/-- The exits a frame end triggers, after its three steps (R125, R72): the streak's at 4 (R131) and that
of an eighth objection. Where both ask, the order is as `first` says, or a free value (log entry 7). -/
def State.takeExits (first : FirstTrigger) (streakDue : Bool) (other : Option ExitCause) (s : State) : State :=
  match streakDue, other with
  | false, none => s
  | true, none => s.exitOn .streak
  | false, some c => s.exitOn c
  | true, some c =>
    match first with
    | .streak => (s.exitOn .streak).exitOn c
    | .other => (s.exitOn c).exitOn .streak
    | .free =>
      let n := s.freeDraws
      let s := { s with freeDraws := n + 1 }
      if Config.streakFirst n then (s.exitOn .streak).exitOn c else (s.exitOn c).exitOn .streak

/-- A frame end handed to the Offer Selector (R125): the streak (R130), the own frame's count (R126), the
yield flag (R137), and then the exits. -/
def State.frameEnd (first : FirstTrigger) (e : FrameEnd) (kind : Option CandKind) (s : State) : State :=
  let n := nextStreak s.sel.streak e
  let s := { s with sel := { s.sel with streak := n, lastEnd := some e } }
  let o := s.ownEnd e kind
  let s := { o.1 with sel := { o.1.sel with yielding := nextYield o.1.own o.1.sel.yielding e } }
  s.takeExits first (decide (Config.streakLimit ≤ n)) o.2

/-- The frame ends of own broken frames, handed at the first idle gap after the break, oldest first
(R125, R148). -/
def State.handBrokenEnds (s : State) : State :=
  s.sel.brokenEnds.foldl (fun s b => s.frameEnd .free b.frameEnd b.kind)
    { s with sel := { s.sel with brokenEnds := [] } }

end Sys2Proof.Machine
end

