-- ==== Sys2Proof/Machine/Expiry.lean ====
section
/-! DEFINITION. The expiry of the two countdowns of the Beat Timer (R32, R33, R63, R89). -/

namespace Sys2Proof.Machine

/-- The beat countdown reaches zero (R32, R33): it stays there and the BEAT candidate is set, considered at
once on a line that stays released (R132). A stopped or already expired countdown does not expire. -/
def State.beatExpires (s : State) : State :=
  if s.pins.resetLow then s
  else match s.timer.countdown with
    | .stopped => s
    | .running 0 => s
    | .running (_ + 1) =>
      { s with timer := { s.timer with countdown := .running 0 },
               sel := { s.sel with beat := true } }.gapChoice

/-- The found window expires in JOINING (R63): the station founds, or joins afresh. -/
def State.windowRanOut (s : State) : State :=
  if s.ctl.preGroup.contains s.own then { s with sel := { s.sel with found := true } }
  else { s with ctl := { s.ctl with groupSeen := false, listed := false } }.setJoin

/-- The found window expires (R63, R89): it stops, and the Station Controller or the joiner acts. A stopped
window does not expire. -/
def State.windowExpires (s : State) : State :=
  if s.pins.resetLow || !s.timer.window.isRunning then s
  else
    let t := { s with timer := { s.timer with window := .stopped } }
    match s.ctl.state with
    | .joining => t.windowRanOut.gapChoice
    | .loading => t.abandonLoad.gapChoice
    | .unconfigured | .idle | .synced | .leaving _ | .halted => t

end Sys2Proof.Machine
end

