-- ==== Sys2Proof/Machine/Port.lean ====
section
/-! DEFINITION. The Local Port (chapter 10): the commands as their owning blocks take them (R52..R55, R160,
R161, R180, R182, R193..R195), the bytes of a select period (R185..R190), its rise (R180, R182, R188) and
its fall (R185). -/

namespace Sys2Proof.Machine

/-! ## Membership commands (3.2) -/

/-- SETUP (R52): the tests in order, and the state after. -/
def State.setupCommand (interval : Byte) (s : State) : State × ReplyStatus :=
  if s.ctl.state != .unconfigured || s.ctl.configured then (s, .badState)
  else if decide (interval.toNat < Config.minInterval) || decide (Config.maxInterval < interval.toNat) then
    (s, .badArg)
  else ({ s with timer := { s.timer with interval := interval.toNat }
                 ctl := { s.ctl with configured := true } }, .ok)

/-- The station as START leaves it, before the choice that a released line allows (R53, R138). -/
def State.started (s : State) : State :=
  let t := s.enter .joining
  { t with
    ctl := { t.ctl.clearJoining with
      cause := .none, configured := t.ctl.configured || s.ctl.state == .unconfigured }
    xfer := { t.xfer with attempts := 0 }
    timer := { t.timer with window := .stopped }
    sel := { t.sel.cleared with join := true } }

/-- START (R53). -/
def State.startCommand (s : State) : State × ReplyStatus :=
  if s.ctl.state == .unconfigured || s.ctl.state == .idle then (s.started.gapChoice, .ok)
  else (s, .badState)

/-- The ticket of the request a frame was offered for, if it was one. -/
def CandKind.ticket? : CandKind → Option Ticket
  | .request t => some t
  | .beat | .present | .part _ | .head | .found | .leave | .join => none

/-- The tickets of the requests whose frames are on the line: offered, or broken with the end still to be
handed (R54, R129, R148). -/
def Selector.requestsOnLine (x : Selector) : List Ticket :=
  (x.onLine.toList.filterMap (·.kind) ++ x.brokenEnds.filterMap (·.kind)).filterMap CandKind.ticket?

/-- STOP in SYNCED, before the choice that a released line allows (R54, R138, R170). -/
def State.stopped (s : State) : State :=
  let t := s.enter (.leaving .member)
  { t with
    desk := t.desk.abortQueue t.sel.requestsOnLine
    timer := { t.timer with window := .stopped }
    sel := { t.sel with leave := true, leaveCount := 0 } }

/-- STOP (R54, R55). -/
def State.stopCommand (s : State) : State × ReplyStatus :=
  if s.ctl.state == .synced then (s.stopped.gapChoice, .ok)
  else if s.ctl.state == .joining || s.ctl.state == .loading then ((s.withdraw .withdrawn).gapChoice, .ok)
  else (s, .badState)

/-! ## Admission (8.2) -/

/-- The arguments of a request have values it can take (R160 step 2, R192). -/
def argumentsGood (kind : RequestKind) (key : Key) (options term : Byte) : Bool :=
  key != 0 &&
  match kind with
  | .release => true
  | .renew => term != 0
  | .acquire => term != 0 && (modeOf (modeBits options)).isSome && unusedClear options

/-- Admission's tests in order; OK when every one is passed (R160). -/
def State.admission (kind : RequestKind) (key : Key) (options term : Byte) (s : State) : ReplyStatus :=
  if s.ctl.state != .synced then .notMember
  else if !argumentsGood kind key options term then .badArg
  else if Config.maxRequests ≤ s.desk.requests.length then .reqFull
  else if kind == .acquire && (s.desk.claimFor key).isSome then .dupClaim
  else if kind == .acquire && decide (Config.maxClaims ≤ s.desk.claims.length) then .claimsFull
  else if kind != .acquire && (s.desk.claimFor key).isNone then .noClaim
  else if s.desk.room < requestHolds kind then .noRoom
  else .ok

/-- The record of a request (R158, R161). -/
def requestRecord (kind : RequestKind) (key : Key) (options term : Byte) (ticket : Ticket) : Request :=
  match kind with
  | .acquire => { ticket := ticket, kind := kind, key := key, mode := (modeOf (modeBits options)).getD .exclusive,
                  wait := waitBit options, term := term }
  | .release => { ticket := ticket, kind := kind, key := key, mode := .exclusive, wait := false, term := 0 }
  | .renew => { ticket := ticket, kind := kind, key := key, mode := .exclusive, wait := false, term := term }

/-- The claim an accepted request makes: an ACQUIRE's, PENDING (R161). -/
def newClaims (r : Request) : List Claim :=
  match r.kind with
  | .acquire => [{ key := r.key, ticket := r.ticket, state := .pending, mode := r.mode }]
  | .release => []
  | .renew => []

/-- The desk after an acceptance (R161). -/
def Desk.accept (r : Request) (d : Desk) : Desk :=
  { d with
    requests := d.requests ++ [r]
    nextTicket := d.nextTicket + 1
    reservation := d.reservation + requestHolds r.kind
    claims := d.claims ++ newClaims r }

/-- Acceptance: into an empty queue the request is the head, its count starts at 0, and a released line
allows a choice (R132, R161). -/
def State.accept (r : Request) (s : State) : State :=
  let t := { s with desk := s.desk.accept r }
  if s.desk.requests.isEmpty then { t with sel := { t.sel with requestCount := 0 } }.gapChoice else t

/-- A request command, with its two-byte reply: the ticket follows an OK (R160, R161). -/
def State.requestCommand (kind : RequestKind) (key : Key) (options term : Byte) (s : State) :
    State × List Byte :=
  match s.admission kind key options term with
  | .ok =>
    (s.accept (requestRecord kind key options term s.desk.nextTicket), [statusCode .ok, s.desk.nextTicket])
  | .badState | .notMember | .reqFull | .claimsFull | .dupClaim | .noClaim | .noRoom | .badArg
  | .unknown | .empty | .noEntry => (s, statusReply (s.admission kind key options term) 2)

/-! ## Reads -/

/-- TAKE (R180): the oldest notice offered, or EMPTY. -/
def State.takeCommand (s : State) : State × List Byte :=
  match s.desk.notices with
  | [] => (s, statusReply .empty 10)
  | n :: _ => ({ s with attention := { s.attention with offered := true } }, statusCode .ok :: noticeBytes n)

/-- The member count of a STATUS reply (R195). -/
def State.memberCount (s : State) : Nat := if s.ctl.state.isMember then s.replica.roster.length else 0

/-- The STATUS reply (R182, R195). -/
def State.statusBytes (s : State) : List Byte :=
  [statusCode .ok, stateCode s.ctl.state, causeCode s.ctl.cause, BitVec.ofNat 8 s.ctl.station.val,
   (0 : BitVec 6) ++ s.ctl.rate, BitVec.ofNat 8 s.memberCount, BitVec.ofNat 8 s.desk.notices.length,
   BitVec.ofNat 8 s.desk.requests.length, BitVec.ofNat 8 s.desk.claims.length,
   flagByte s.attention.changed, hiByte s.replica.seq, loByte s.replica.seq]

/-- STATUS (R182): the reply, and the status-read mark set. -/
def State.statusCommand (s : State) : State × List Byte :=
  ({ s with attention := { s.attention with readMark := true } }, s.statusBytes)

/-- QUERY's reply, the tests in order (R193). -/
def State.queryBytes (key : Key) (s : State) : List Byte :=
  if !s.ctl.state.isMember then statusReply .notMember 21
  else if key = 0 then statusReply .badArg 21
  else match findKey key s.replica.table with
    | none => statusReply .noEntry 21
    | some (i, slot) => queryReply i slot

/-- ROSTER's reply: that of a member, or the empty one (R194). -/
def State.rosterBytes (s : State) : List Byte :=
  if s.ctl.state.isMember then rosterReply s.replica.roster s.replica.joinQueue s.replica.transfer
  else rosterReply [] [] none

/-! ## A select period -/

/-- How many argument bytes a command byte takes; none for a byte that is no command (section 10.7). -/
def argumentCount (code : Byte) : Option Nat :=
  if code = 0x1A then some 1
  else if code = 0x2B then some 0
  else if code = 0x2C then some 0
  else if code = 0x41 then some 4
  else if code = 0x42 then some 2
  else if code = 0x43 then some 3
  else if code = 0x51 then some 0
  else if code = 0x52 then some 0
  else if code = 0x53 then some 2
  else if code = 0x54 then some 0
  else none

/-- A one-byte reply beside its state. -/
def bareReply (r : State × ReplyStatus) : State × List Byte := (r.1, statusReply r.2 1)

/-- The byte going out on SDO (R185, R186): none while SEL is high, when SDO is high-impedance; in REPLY the next
reply byte; in every other phase 0xFF. Its first bit stands on SDO from the fall of SEL, or from the falling edge
of SCK that ends the byte before. -/
def Port.sdo (p : Port) : Option Byte :=
  match p.phase with
  | .deselected => none
  | .command | .arguments | .turnaround | .drain => some 0xFF
  | .reply => some ((p.reply[p.clocked]?).getD 0xFF)

/-- The levels of SDO over the eight bits of the byte going out, most significant first (R185). -/
def Port.sdoBits (p : Port) : Option (List Bool) := p.sdo.map (charBits true)

/-- A command takes effect, with all its argument bytes: the owning block's act and the reply (R187). -/
def State.takeEffect (code : Byte) (args : List Byte) (s : State) : State × List Byte :=
  match args with
  | [] =>
    if code = 0x2B then bareReply s.startCommand
    else if code = 0x2C then bareReply s.stopCommand
    else if code = 0x51 then s.takeCommand
    else if code = 0x52 then s.statusCommand
    else if code = 0x54 then (s, s.rosterBytes)
    else (s, statusReply .unknown 1)
  | [a] => if code = 0x1A then bareReply (s.setupCommand a) else (s, statusReply .unknown 1)
  | [a, b] =>
    if code = 0x42 then s.requestCommand .release (portWord a b) 0 0
    else if code = 0x53 then (s, s.queryBytes (portWord a b))
    else (s, statusReply .unknown 1)
  | [a, b, c] =>
    if code = 0x43 then s.requestCommand .renew (portWord a b) 0 c else (s, statusReply .unknown 1)
  | [a, b, c, d] =>
    if code = 0x41 then s.requestCommand .acquire (portWord a b) c d else (s, statusReply .unknown 1)
  | _ => (s, statusReply .unknown 1)

/-- The effect event: the command, the reply held, and the move to TURNAROUND (R186, R187). -/
def State.effectEvent (code : Byte) (args : List Byte) (s : State) : State :=
  let r := s.takeEffect code args
  { r.1 with port := { phase := .turnaround, command := some code, arguments := args,
                       reply := r.2, clocked := 0 } }

/-- Eight rising edges of SCK carry a byte in and the byte of `Port.sdo` out (R185, R186, R188, R190). With SEL high or RESET
held the port ignores them (R185, R191). -/
def State.portByte (b : Byte) (s : State) : State :=
  if s.pins.resetLow then s
  else match s.port.phase with
    | .deselected => s
    | .command =>
      match argumentCount b with
      | some 0 => s.effectEvent b []
      | some (_ + 1) =>
        { s with port := { s.port with phase := .arguments, command := some b, arguments := [] } }
      | none => s.effectEvent b []
    | .arguments =>
      let args := s.port.arguments ++ [b]
      let code := s.port.command.getD 0
      if argumentCount code = some args.length then s.effectEvent code args
      else { s with port := { s.port with arguments := args } }
    | .turnaround => { s with port := { s.port with phase := .reply } }
    | .reply =>
      let n := s.port.clocked + 1
      { s with port := { s.port with
          phase := if s.port.reply.length ≤ n then .drain else .reply
          clocked := n } }
    | .drain => s

/-- The bytes of a port command, clocked in one after another (log entry 14). -/
def State.portBytes (bs : List Byte) (s : State) : State := bs.foldl (fun s b => s.portByte b) s

/-- The reply has been clocked out in full (R188). -/
def Port.inFull (p : Port) : Bool := p.phase == .drain

/-- A TAKE is settled at the rise of SEL (R180): the offered entry leaves when the reply was clocked out in
full, and the offered mark is cleared. -/
def State.settleTake (s : State) : State :=
  let full := s.attention.offered && s.port.command == some 0x51 && s.port.inFull
  { s with desk := if full then { s.desk with notices := s.desk.notices.tail } else s.desk
           attention := { s.attention with offered := false } }

/-- A STATUS is settled at the rise of SEL (R182): the flag clears when the reply was clocked out in full
with the mark still set, and the mark is cleared. -/
def State.settleStatus (s : State) : State :=
  let full := s.attention.readMark && s.port.command == some 0x52 && s.port.inFull
  { s with attention := { s.attention with changed := s.attention.changed && !full, readMark := false } }

/-- SEL rises (R188): the TAKE or STATUS is settled and the port is DESELECTED. With RESET held it is ignored
but for its level (R191). -/
def State.selRises (s : State) : State :=
  let s := if s.pins.resetLow then s else { s.settleTake.settleStatus with port := Port.reset }
  { s with pins := { s.pins with selLow := false } }

/-- SEL falls (R185): a select period begins afresh. With RESET held it is ignored but for its level (R191);
with SEL low already it does not fall. -/
def State.selFalls (s : State) : State :=
  if s.pins.selLow then s
  else
    let s := if s.pins.resetLow then s else { s with port := { Port.reset with phase := .command } }
    { s with pins := { s.pins with selLow := true } }

end Sys2Proof.Machine
end

