-- ==== Sys2Proof/Machine/Line.lean ====
section
/-! DEFINITION. The Line Interface Unit (07_line_signalling.md): phases to cells (R140, R141), the hunt and the
idle gap, the yield run and the start of a frame (R137, R143, R144, R145), cells to characters and framing errors
(R142, R149), the header contest and the broken frame (R147, R148), what falls within a frame (R56, R117, R129,
R191), and its end (R150, R152, R154). -/

namespace Sys2Proof.Machine

/-! ## Phases to cells (R140, R141) -/

/-- The level of a cell: the majority of its three samples; `true` is driven (R140). -/
def cellLevel (c : Cell) : Bool := (c.s5 && c.s6) || (c.s5 && c.s7) || (c.s6 && c.s7)

/-- A cell whose three samples are not all the same is noisy (R140). -/
def cellNoisy (c : Cell) : Bool := !(c.s5 == c.s6 && c.s6 == c.s7)

/-- The cell the samples taken make, those not yet taken counted as driven (R141). -/
def closeCell (samples : List Bool) : Cell where
  s5 := (samples[0]?).getD true
  s6 := (samples[1]?).getD true
  s7 := (samples[2]?).getD true

/-- A cell the LIU has closed: whether it began at a released-to-driven edge, whether an edge cut it short before
its third sample, and its samples (R141). -/
structure ClosedCell where
  edge : Bool
  cut : Bool
  cell : Cell
  deriving DecidableEq, Repr

/-- The cell in progress, closed (R141). -/
def Sampler.close (m : Sampler) : ClosedCell :=
  { edge := m.edge, cut := decide (m.samples.length < 3), cell := closeCell m.samples }

/-- One look at LINE, once a phase (R141): a released-to-driven edge begins a new cell and closes the one
in progress; phases 5, 6 and 7 are sampled; phase 11 ends the cell. The cell closed, if any. -/
def look (m : Sampler) (driven : Bool) : Sampler × Option ClosedCell :=
  if driven && !m.seen then
    ({ phase := 1, seen := true, edge := true, samples := [] }, if m.phase = 0 then none else some m.close)
  else
    let m := { m with
      seen := driven
      samples := if 5 ≤ m.phase ∧ m.phase ≤ 7 then m.samples ++ [driven] else m.samples }
    if 11 ≤ m.phase then (Sampler.boundary driven, some m.close)
    else ({ m with phase := m.phase + 1 }, none)

/-- The cells that a run of looks closes, and the sampler it leaves. -/
def looks : Sampler → List Bool → Sampler × List ClosedCell
  | m, [] => (m, [])
  | m, l :: ls =>
    let a := look m l
    let b := looks a.1 ls
    (b.1, a.2.toList ++ b.2)

/-- The cells of a stretch of LINE that is released past its last look, so that a cell in progress there ends
(log entry 8). -/
def cellsOf (m : Sampler) (ls : List Bool) : List Cell :=
  (looks m (ls ++ List.replicate 11 false)).2.map (·.cell)

/-! ## Cells to characters (R142, R149) -/

/-- A released cell. -/
def releasedCell : Cell := { s5 := false, s6 := false, s7 := false }

/-- How the taking of a frame's characters ended: all taken to the check character, or a framing error,
with whether it is a break seen (R120, R142). -/
inductive Taken where
  | complete
  | framing (breakSeen : Bool)
  deriving DecidableEq, Repr

/-- Ten cells from the front of a run; LINE past the run's end is released. -/
def tenCells (cs : List Cell) : List Cell := (cs ++ List.replicate 10 releasedCell).take 10

/-- How many characters a frame has from header to check, as far as the characters taken tell (R102,
R105): `none` while a class 2 frame's length character is still to come. -/
def frameExtent : List Byte → Option Nat
  | [] => none
  | h :: rest =>
    match headerClass h with
    | 2 => rest.head?.map fun l => l.toNat + 3
    | 4 => some 4
    | 5 => some 5
    | 6 => some 6
    | _ => some 2

/-- A length character of 0 or above 30 is a framing error at that character (R105, R149). -/
def lengthWrong : List Byte → Bool
  | [h, l] => headerClass h == 2 && (l == 0 || decide (30 < l.toNat))
  | _ => false

/-- The characters of a frame taken one after another (R149), at most `fuel` of them: the buffer, the noisy
cells counted from the header's start bit on (R118, R140), and how it ended. -/
def takeChars : Nat → List Cell → List Byte → Nat → List Byte × Nat × Taken
  | 0, _, chars, noisy => (chars, noisy, .complete)
  | fuel + 1, cs, chars, noisy =>
    let ten := tenCells cs
    let levels := ten.map cellLevel
    if levels.head? == some false then (chars, noisy + (ten.take 1).countP cellNoisy, .framing false)
    else if levels.getLast? == some true then
      (chars, noisy + ten.countP cellNoisy, .framing (levels.all id))
    else
      let c := charOfBits chars.isEmpty (((levels.drop 1).take 8).map not)
      let chars := chars ++ [c]
      let noisy := noisy + ten.countP cellNoisy
      if lengthWrong chars then (chars, noisy, .framing false)
      else if frameExtent chars == some chars.length then (chars, noisy, .complete)
      else takeChars fuel (cs.drop 10) chars noisy

/-! ## The own frame against the line (R147, R148) -/

/-- The cells sent against the cells sampled, from position `i`: a header data cell sent released and
sampled driven loses the contest; any other difference breaks the frame; no difference carries it. -/
def contest : Nat → List Bool → List Bool → Sent
  | _, [], _ => .carried
  | i, s :: ss, ls =>
    let l := ls.headD false
    if s == l then contest (i + 1) ss ls.tail
    else if !s && l && decide (1 ≤ i) && decide (i ≤ 8) then .lost
    else .broken

/-- How far the own station's frame got, if it sent one, against the cells sampled (R125, R147, R148). -/
def sentOf (offer : Option Offer) (levels : List Bool) : Sent :=
  match offer with
  | none => .none
  | some o => contest 0 (frameLevels o.frame) levels

/-! ## What the LIU makes of a frame up to its check character -/

/-- The reception of a frame: the characters in the receive buffer, the noisy-bit count, how the taking
ended, whether the check character matched, the frame the buffer decodes to, the cells' levels, and the ten
cells of the verdict window as the other stations drive them (R151). -/
structure Reception where
  chars : List Byte
  noisy : Nat
  taken : Taken
  matched : Bool
  frame : Frame
  levels : List Bool
  window : List Cell
  deriving DecidableEq, Repr

/-- A frame whose content the command names, heard with so many noisy cells, each of its right level, and its
verdict window phase by phase; the check character's stop bit leaves the sampler at a cell boundary. -/
def hear (f : Frame) (noisy : Nat) (window : List Bool) : Reception where
  chars := encodeFrame f
  noisy := noisy
  taken := .complete
  matched := true
  frame := f
  levels := frameLevels f
  window := tenCells (cellsOf (Sampler.boundary false) window)

/-- A frame given as the cells from its start bit on; the window is the ten cells that follow the characters
taken. -/
def hearCells (cs : List Cell) : Reception :=
  let t := takeChars 33 cs [] 0
  { chars := t.1
    noisy := t.2.1
    taken := t.2.2
    matched := t.2.2 == .complete && checkMatches t.1
    frame := decodeFrame t.1
    levels := cs.map cellLevel
    window := tenCells (cs.drop (10 * t.1.length)) }

/-- A frame given as LINE, from the sampler as the hunt leaves it at the start bit. -/
def hearRaw (m : Sampler) (ls : List Bool) : Reception := hearCells (cellsOf m ls)

/-- The station received the frame cleanly (R118). -/
def Reception.clean (r : Reception) : Bool :=
  r.taken == .complete && r.matched && decide (r.noisy ≤ Config.maxNoisy)

/-- The class the header gave, none when its stop cell was sampled driven (R117), or its start cell released (log
entry 25). -/
def Reception.headerCls (r : Reception) : Option Nat := r.chars.head?.map headerClass

/-! ## The released run -/

/-- The LIU counts the released run and looks for a start bit in HUNT and GAP (R143, R145). -/
def Liu.hunting (l : Liu) : Bool := l.linePhase == .hunt || l.linePhase == .gap

/-- The run at which this LIU finds an idle gap: 12, or 24 when it hunts blind (R143, R144). -/
def Liu.gapAt (l : Liu) : Nat := if l.blind then Config.longRun else Config.gapRun

/-- An idle gap found in HUNT (R143, R144): the LIU moves to GAP, the blind flag clears, the ends of own
broken frames are handed (R125, R148), and the Offer Selector makes a choice. At 24 the yield flag is
released first (R137). -/
def State.gapFound (run : Nat) (s : State) : State :=
  let s := { s with liu := { s.liu with linePhase := .gap, releasedRun := run, blind := false } }
  let s := s.handBrokenEnds
  let s := if run = Config.longRun then { s with sel := { s.sel with yielding := false } } else s
  s.choice

/-- The run at 24 in GAP: the yield flag, if set, is cleared and a choice follows at once (R137). -/
def State.yieldReleased (s : State) : State :=
  let s := { s with liu := { s.liu with releasedRun := Config.longRun } }
  if s.sel.yielding then { s with sel := { s.sel with yielding := false } }.gapChoice else s

/-- A released cell on the run, with the idle gap and the yield run found on the way (R137, R143, R144). In GAP
the run stops at 24. -/
def State.countReleased (s : State) : State :=
  let run := s.liu.releasedRun + 1
  match s.liu.linePhase with
  | .hunt =>
    if s.liu.gapAt ≤ run then s.gapFound s.liu.gapAt else { s with liu := { s.liu with releasedRun := run } }
  | .gap =>
    if Config.longRun < run then s
    else if run = Config.longRun then s.yieldReleased
    else { s with liu := { s.liu with releasedRun := run } }
  | .contend | .send | .receive | .verdict => s

/-- A cell closed in HUNT or GAP, on the run (R143). A cell that an edge cut short before its third sample counts
neither way: its level would be known at phase 7 alone (R140; log entry 27). -/
def State.huntCell (c : ClosedCell) (s : State) : State :=
  if c.cut then s
  else if cellLevel c.cell then { s with liu := { s.liu with releasedRun := 0, quiet := false } }
  else s.countReleased

/-- LINE stays released until the run stands at `run`: a LIU in HUNT finds its idle gap on the way, and in
GAP the yield flag is released at 24 (R137, R143, R144). A header the station then begins ends the run. -/
def State.runReached (run : Nat) (s : State) : State :=
  let s := if s.liu.linePhase == .hunt && decide (s.liu.gapAt ≤ run) then s.gapFound s.liu.gapAt else s
  if s.liu.linePhase == .gap && decide (Config.longRun ≤ run) then s.yieldReleased else s

/-! ## The start of a frame -/

/-- An edge that begins no frame. With a released cell before it, by the run or as the last before the hunt, it is a start
bit not accepted: the run to 0 and the LIU hunting blind (R144, R145). A driven cell with no released cell before it is
not a start bit and only ends the run (R143, R145). -/
def Liu.notAccepted (run : Nat) (l : Liu) : Liu :=
  if run = 0 ∧ l.quiet = false then { l with releasedRun := 0 }
  else { l with linePhase := .hunt, releasedRun := 0, blind := true, quiet := false }

/-- The receiver at an accepted frame start (R145 steps 1 and 2). -/
def Liu.frameStart (l : Liu) : Liu :=
  { l with buffer := [], noisy := 0, errorSeen := false, blind := false }

/-- A start bit after a released run (R145). It is accepted after 10 or more released cells, and after 10 or 11 the
station makes a choice and may contend in step. `none`: not accepted. With an own header begun, the start bit is
the own. -/
def State.startBit (run : Nat) (s : State) : Option State :=
  if !s.liu.hunting then some s
  else if run < Config.startRun then none
  else
    let s := { s with liu := { s.liu.frameStart with linePhase := .receive } }
    some (if run < Config.gapRun then s.choice else s)

/-- One look at LINE in HUNT or GAP: the sampler moves on, and a cell it closes counts on the run (R141, R143). -/
def State.lookAt (driven : Bool) (s : State) : State :=
  let a := look s.liu.sampler driven
  let t := { s with liu := { s.liu with sampler := a.1 } }
  match a.2 with
  | none => t
  | some c => t.huntCell c

/-- The LIU looks at LINE phase by phase until a frame begins (R141, R143, R145): an edge in HUNT or GAP is a start
bit, tested against the run as it stands. With a frame begun, or an own header on the line, the looks that are
left are the frame's. -/
def State.listen : List Bool → State → State × Option (List Bool)
  | [], s => (s, none)
  | l :: ls, s =>
    if !s.liu.hunting then (s, some (l :: ls))
    else
      let t := s.lookAt l
      if l && !s.liu.sampler.seen && t.liu.hunting then
        match t.startBit t.liu.releasedRun with
        | some u => (u, some ls)
        | none => State.listen ls { t with liu := t.liu.notAccepted t.liu.releasedRun }
      else State.listen ls t

/-- The looks up to the own start cell, the own header begun. The header drives its start bit in the next cell, at the
boundary or at another station's edge, which begins that cell (R141, R146): the rest of a cell in progress passes,
but for one that an edge began. That edge ended the idle gap's last cell, and its cell is the own start cell. -/
def toStartCell : Sampler → List Bool → Sampler × List Bool
  | m, [] => (m, [])
  | m, l :: ls =>
    if m.phase = 0 || m.edge then (m, l :: ls)
    else
      let a := look m l
      if a.2.isSome then (a.1, ls) else toStartCell a.1 ls

/-- The station listens until a frame begins. Its own header begun, the frame starts with the own start cell (R146). -/
def State.frameBegins (ls : List Bool) (s : State) : State × Option (List Bool) :=
  if s.liu.hunting then s.listen ls
  else
    let a := toStartCell s.liu.sampler ls
    ({ s with liu := { s.liu with sampler := a.1 } }, some a.2)

/-- The start bit of a frame after a released run that its command gives: the gap and the yield run come first
where the run has reached them. -/
def State.frameStart (run : Nat) (s : State) : Option State := (s.runReached run).startBit run

/-! ## What falls within a frame -/

/-- An event that falls within a frame. The LIU is not in GAP, so it brings no choice (R132). -/
def State.event (e : Event) (s : State) : State :=
  match e with
  | .selFall => s.selFalls
  | .selRise => s.selRises
  | .byte b => s.portByte b
  | .beatExpiry => s.beatExpires
  | .windowExpiry => s.windowExpires

/-- Events in their order. -/
def State.events (es : List Event) (s : State) : State := es.foldl (fun s e => s.event e) s

/-! ## The end of a frame -/

/-- The LIU between frames: hunting, the run at 0, nothing being sent, the sampler at a cell boundary with LINE
last seen as the last cell or the own break left it; the blind flag as it stood (R150, R152). The frame's buffer, noisy
count, error-seen and taking-part flag stay until the next frame. -/
def Liu.frameOver (r : Reception) (error part seen : Bool) (l : Liu) : Liu :=
  { l with linePhase := .hunt, releasedRun := 0, quiet := !seen, transmitting := false, sampler := Sampler.boundary seen,
           buffer := r.chars, noisy := r.noisy, errorSeen := error, takingPart := part }

/-- The own frame is on the line no longer (R129). -/
def State.offLine (s : State) : State := { s with sel := { s.sel with onLine := none } }

/-- What the station raises at the end of the check character (R121): one objection at most, an error
before a refusal. -/
def verdictRaised (part error refusal : Bool) : Raised :=
  if !part then .nothing else if error then .error else if refusal then .refusal else .nothing

/-- The end of an own broken frame is kept for the first idle gap (R125, R148). -/
def State.keepEnd (e : FrameEnd) (kind : Option CandKind) (s : State) : State :=
  { s with sel := { s.sel with brokenEnds :=
      if e.sent == .broken then s.sel.brokenEnds ++ [{ kind := kind, frameEnd := e }] else s.sel.brokenEnds } }

/-- Every other frame end is handed at the frame's end (R125). -/
def State.handEnd (first : FirstTrigger) (e : FrameEnd) (kind : Option CandKind) (s : State) : State :=
  if e.sent == .broken then s else s.frameEnd first e kind

/-- The level of the cell in which a framing error was found (R149): a start cell was sampled released, a stop cell
driven, and the stop cell of a wrong length released. -/
def Reception.endDriven (r : Reception) : Bool :=
  !lengthWrong r.chars && (r.levels[10 * r.chars.length]?).getD false

/-- A frame that ended at a framing error (R119, R120, R149, R150): a participant that is not sending
drives its early break; a station that takes no part, or whose own frame was broken, only hunts, from the cell after the
error's. No record reaches the Replica Engine. -/
def State.breakEnd (first : FirstTrigger) (r : Reception) (breakSeen : Bool) (sent : Sent) (part : Bool)
    (kind : Option CandKind) (s : State) : State :=
  let raised : Raised := if !part then .nothing else if breakSeen then .breakSeen else .error
  let e : FrameEnd := { sent := sent, ending := .earlyBreak, raised := raised, clean := false, applied := none }
  ({ s with liu := s.liu.frameOver r (!breakSeen) part (part || r.endDriven) }.keepEnd e kind).handEnd first e kind

/-- The frame is a duplicate: clean, bearing the own number, and not own (R154). -/
def isDuplicate (s : State) (r : Reception) (own : Bool) : Bool :=
  r.clean && r.frame.sender == s.own && !own && (s.ctl.state.participating || s.ctl.state == .idle)

/-- What the station finds when the check character's stop bit has been taken (R117, R121, R149, R154): its
error-seen flag, what it raises, and whether the frame is a duplicate. -/
structure Findings where
  error : Bool
  raised : Raised
  duplicate : Bool
  deriving DecidableEq, Repr

/-- The findings, from the state as it then stands. -/
def findings (s : State) (r : Reception) (sent : Sent) (part : Bool) : Findings :=
  let error := !r.matched || decide (Config.maxNoisy < r.noisy) || (part && r.clean && malformed s r.frame)
  { error := error
    raised := verdictRaised part error (r.clean && refuses s r.frame)
    duplicate := isDuplicate s r (sent == .carried) }

/-- The end of a frame's verdict window (R123, R151, R152, R154): the window as the others and the own station
drive it, the record handed on and applied where it was applied, the frame end, and a DUPLICATE report at
last. An own broken frame's end waits from before the application, which may take its candidate (R135). -/
def State.verdictEnd (first : FirstTrigger) (r : Reception) (g : Findings) (sent : Sent) (part : Bool)
    (kind : Option CandKind) (s : State) : State :=
  let own := sent == .carried
  let released := g.raised == .nothing && r.window.all (fun c => !cellLevel c)
  let applied := r.clean && released
  let seen := g.raised != .nothing || r.window.getLast?.any cellLevel
  let record : FrameRecord := { frame := r.frame, matched := r.matched, own := own,
                                duplicate := g.duplicate, applied := applied }
  let s := { s with liu := { s.liu.frameOver r g.error part seen with lastRecord := some record } }
  let take := applied && !g.duplicate
  let e : FrameEnd := { sent := sent, ending := if applied then .applied else .objected, raised := g.raised,
                        clean := r.clean, applied := if take then some r.frame else none }
  let s := s.keepEnd e kind
  let s := if take then s.applyFrame r.frame own else s
  let s := s.handEnd first e kind
  if g.duplicate then s.duplicateReport else s

/-! ## A frame from its start to its end -/

/-- A frame from its start bit to its end, as this station lives through it, with what falls within it. Taking
part is decided at the header's stop bit, from the state as it then stands, and a START within the frame leaves the
station out (R117, R149; log entry 28); the findings come at the check character's stop bit. The frame is applied, and
its end acts, in the state at its end; an own frame counts against its candidate if that still stands (R135). -/
def State.carry (first : FirstTrigger) (r : Reception) (w : Within) (s : State) : State :=
  let offer := s.sel.onLine
  let sent := sentOf offer r.levels
  let participant := s.ctl.state.participating
  let s := s.events w.toHeader
  let part := sent != .broken && participant && takesPart s.ctl.state r.headerCls
  let s := s.events w.toCheck
  let t := s.events w.toEnd
  let kind := t.sel.onLine.bind (·.kind)
  match r.taken with
  | .framing breakSeen => t.offLine.breakEnd first r breakSeen sent part kind
  | .complete => t.offLine.verdictEnd first r (findings s r sent part) sent part kind

/-- The LIU does nothing with RESET held and in HALTED (R156). -/
def State.deaf (s : State) : Bool := s.pins.resetLow || s.ctl.state == .halted

/-- What comes of a stretch of LINE: the frame that begins in it, carried to its end, or where none begins what
falls within it alone. -/
def carryBegun (first : FirstTrigger) (w : Within) (a : State × Option (List Bool)) : State :=
  match a.2 with
  | some ls => a.1.carry first (hearRaw a.1.liu.sampler ls) w
  | none => a.1.events w.all

/-- A frame phase by phase as it is sent, and its window, LINE released past the looks given. -/
def frameLooks (f : Frame) (window : List Bool) : List Bool :=
  (frameLevels f).flatMap (List.replicate 12) ++ window ++ List.replicate (120 - window.length) false

/-- LINE as last seen before a frame that comes after this released run: driven with a run of 0, but where a hunt that
began after a released cell has counted nothing yet, so that the frame follows at once (R143, R145; log entry 29). -/
def Liu.drivenBefore (run : Nat) (l : Liu) : Bool := run == 0 && !(l.quiet && l.releasedRun == 0)

/-- A frame after a released run, heard with so many noisy cells. Where its start bit is not accepted, the LIU hunts
through the frame and its window (R145); a start bit it accepts there begins a frame. -/
def State.frameAfter (first : FirstTrigger) (run : Nat) (f : Frame) (noisy : Nat) (window : List Bool) (w : Within)
    (s : State) : State :=
  if s.deaf then s.events w.all
  else match s.frameStart run with
    | some t => t.carry first (hear f noisy window) w
    | none =>
      let s := { s with liu := { s.liu with releasedRun := run, sampler := Sampler.boundary (s.liu.drivenBefore run) } }
      carryBegun first w (s.listen (frameLooks f window))

/-- A frame whose content the command names, its window driven by no other station. -/
def State.frameHeard (sender : Station) (body : Body) (h : Hearing) (s : State) : State :=
  s.frameAfter .free h.startRun { sender := sender, body := body } h.noisy [] h.within

/-- A stretch of LINE with a frame in it. Where no frame begins in it, the LIU has hunted over it. -/
def State.frameRaw (first : FirstTrigger) (raw : RawFrame) (s : State) : State :=
  if s.deaf then s.events raw.within.all
  else carryBegun first raw.within (s.frameBegins raw.looks)

/-- The own frame on the line carried to its end, its window as the others drive it; nothing happens when
no own frame is on the line. -/
def State.ownFrameEnds (first : FirstTrigger) (o : OwnObjection) (s : State) : State :=
  match s.sel.onLine with
  | none => s
  | some f => s.frameAfter first Config.gapRun f.frame o.noisy o.window o.within

/-! ## The events of the released run -/

/-- LINE has been released to the end of a cell. -/
def State.atBoundary (seen : Bool) (s : State) : State :=
  { s with liu := { s.liu with sampler := Sampler.boundary seen } }

/-- The released run reaches the idle gap. It is found in HUNT alone; a halted LIU finds nothing. -/
def State.idleGapReached (s : State) : State :=
  if s.deaf then s
  else if s.liu.linePhase == .hunt then (s.atBoundary false).gapFound s.liu.gapAt
  else s

/-- The released run reaches 24 (R137, R143). -/
def State.yieldRunReached (s : State) : State :=
  if s.deaf then s
  else if s.liu.hunting then (s.atBoundary false).runReached Config.longRun
  else s

/-- A start bit after a run of 1..9 released cells, and its driven cell (R145). -/
def State.startBitRejected (run : Nat) (s : State) : State :=
  if s.deaf then s
  else if s.liu.hunting && decide (run < Config.startRun) then
    { (s.atBoundary true) with liu := (s.atBoundary true).liu.notAccepted run }
  else s

end Sys2Proof.Machine
end

