-- ==== Sys2Proof/Machine/Clock.lean ====
section
/-! DEFINITION. What time does: the passing of one bit cell of released LINE, the step of an empty queue (R31,
R32, R63, R137, R141, R143, R144; log entry 2). -/

namespace Sys2Proof.Machine

/-! ## One bit cell -/

/-- CLK periods of one bit cell at the strapped rate (R139). -/
def State.cellClk (s : State) : Nat := Config.clkPerCell s.ctl.rate

/-- A bit cell off the beat countdown (R32). -/
def State.tickBeat (s : State) : State :=
  match s.timer.countdown with
  | .stopped => s
  | .running n =>
    if n ≤ s.cellClk then s.beatExpires
    else { s with timer := { s.timer with countdown := .running (n - s.cellClk) } }

/-- A bit cell off the found window (R63). -/
def State.tickWindow (s : State) : State :=
  match s.timer.window with
  | .stopped => s
  | .running n =>
    if n ≤ s.cellClk then s.windowExpires
    else { s with timer := { s.timer with window := .running (n - s.cellClk) } }

/-- A released cell on the run (R143): twelve looks at released LINE, which close one cell of the sampler, in
HUNT and GAP. -/
def State.tickRun (s : State) : State :=
  if s.ctl.state == .halted then s else (s.listen (List.replicate 12 false)).1

/-- One bit cell of released LINE passes: the countdowns first, then the run (log entry 2). With RESET held
nothing moves. -/
def State.tick (s : State) : State :=
  if s.pins.resetLow then s else s.tickBeat.tickWindow.tickRun

end Sys2Proof.Machine
end

