-- ==== Sys2Proof/Machine/LineFailures.lean ====
section
/-! DEFINITION. Frames given as LINE itself that are objected or broken, and the objections against the own
frame, each named for what the eighth of its kind brings about (log entry 4). -/

namespace Sys2Proof.Machine

/-- FRAME_OBJECTED (R123, R152). -/
def execFrameObjected (raw : RawFrame) (s : State) : Host.Outcome State Fault Refusal :=
  .next (s.frameRaw .free raw)

/-- EARLY_BREAK (R119, R150). -/
def execEarlyBreak (raw : RawFrame) (s : State) : Host.Outcome State Fault Refusal :=
  .next (s.frameRaw .free raw)

/-- STREAK: the frame that draws the fourth consecutive error objection (R131); it names its trigger, which
is the one taken first (R72). -/
def execStreak (raw : RawFrame) (s : State) : Host.Outcome State Fault Refusal :=
  .next (s.frameRaw .streak raw)

/-- LINE_REFUSED (R128). -/
def execLineRefused (o : OwnObjection) (s : State) : Host.Outcome State Fault Refusal :=
  .next (s.ownFrameEnds .free o)

/-- JOIN_REFUSED (R59, R128); it names its trigger, which is the one taken first (R72). -/
def execJoinRefused (o : OwnObjection) (s : State) : Host.Outcome State Fault Refusal :=
  .next (s.ownFrameEnds .other o)

/-- LEAVE_UNHEARD (R67, R128); it names its trigger, which is the one taken first (R72). -/
def execLeaveUnheard (o : OwnObjection) (s : State) : Host.Outcome State Fault Refusal :=
  .next (s.ownFrameEnds .other o)

/-- GIVE_UP_SENDING (R84, R128). -/
def execGiveUpSending (o : OwnObjection) (s : State) : Host.Outcome State Fault Refusal :=
  .next (s.ownFrameEnds .free o)

/-- HEAD_BARRED (R128). -/
def execHeadBarred (o : OwnObjection) (s : State) : Host.Outcome State Fault Refusal :=
  .next (s.ownFrameEnds .free o)

end Sys2Proof.Machine
end

