-- ==== Sys2Proof/Machine/LineFrames.lean ====
section
/-! DEFINITION. Frames whose verdict window no other station drives, and those named for what their
application brings about (log entry 4). -/

namespace Sys2Proof.Machine

/-- BEAT (R35). -/
def execBeat (sender : Station) (h : Hearing) (s : State) : Host.Outcome State Fault Refusal :=
  .next (s.frameHeard sender .beat h)

/-- PRESENT (R44). -/
def execPresent (sender : Station) (h : Hearing) (s : State) : Host.Outcome State Fault Refusal :=
  .next (s.frameHeard sender .present h)

/-- HEAD (R78, R86). -/
def execHead (sender : Station) (body : HeadBody) (h : Hearing) (s : State) :
    Host.Outcome State Fault Refusal := .next (s.frameHeard sender (.head body) h)

/-- PART (R81, R87). -/
def execPart (sender : Station) (body : PartBody) (h : Hearing) (s : State) :
    Host.Outcome State Fault Refusal := .next (s.frameHeard sender (.part body) h)

/-- FOUND (R65). -/
def execFound (sender : Station) (body : HeadBody) (h : Hearing) (s : State) :
    Host.Outcome State Fault Refusal := .next (s.frameHeard sender (.found body) h)

/-- LEAVE (R68, R69). -/
def execLeave (sender : Station) (h : Hearing) (s : State) : Host.Outcome State Fault Refusal :=
  .next (s.frameHeard sender .leave h)

/-- JOIN (R60, R61). -/
def execJoin (sender : Station) (h : Hearing) (s : State) : Host.Outcome State Fault Refusal :=
  .next (s.frameHeard sender .join h)

/-- ACQUIRE_FRAME (R10..R13). -/
def execAcquireFrame (sender : Station) (key : Key) (modeWait term : Byte) (h : Hearing) (s : State) :
    Host.Outcome State Fault Refusal := .next (s.frameHeard sender (.acquire key modeWait term) h)

/-- RELEASE_FRAME (R14..R16). -/
def execReleaseFrame (sender : Station) (key : Key) (h : Hearing) (s : State) :
    Host.Outcome State Fault Refusal := .next (s.frameHeard sender (.release key) h)

/-- RENEW_FRAME (R17). -/
def execRenewFrame (sender : Station) (key : Key) (term : Byte) (h : Hearing) (s : State) :
    Host.Outcome State Fault Refusal := .next (s.frameHeard sender (.renew key term) h)

/-- EXPIRED: the BEAT in which a holder's remaining beats reach zero (R37). -/
def execExpired (sender : Station) (h : Hearing) (s : State) : Host.Outcome State Fault Refusal :=
  .next (s.frameHeard sender .beat h)

/-- LAPSE: the BEAT in which a member's silence count reaches 8 (R40). -/
def execLapse (sender : Station) (h : Hearing) (s : State) : Host.Outcome State Fault Refusal :=
  .next (s.frameHeard sender .beat h)

/-- TRANSFER_IDLE_TIMEOUT: the BEAT in which the idle beats reach 4 (R41). -/
def execTransferIdleTimeout (sender : Station) (h : Hearing) (s : State) : Host.Outcome State Fault Refusal :=
  .next (s.frameHeard sender .beat h)

/-- SENDER_WATCH_LAPSE: the BEAT in which the joiner's sender watch reaches 8 (R89). -/
def execSenderWatchLapse (sender : Station) (h : Hearing) (s : State) : Host.Outcome State Fault Refusal :=
  .next (s.frameHeard sender .beat h)

/-- SPOIL: the frame that would be the 33rd journal record (R91). -/
def execSpoil (frame : Frame) (h : Hearing) (s : State) : Host.Outcome State Fault Refusal :=
  .next (s.frameHeard frame.sender frame.body h)

/-- DUPLICATE: a clean frame, with its window as it is (R154). -/
def execDuplicate (frame : Frame) (window : List Bool) (h : Hearing) (s : State) :
    Host.Outcome State Fault Refusal :=
  .next (s.frameAfter .free h.startRun frame h.noisy window h.within)

end Sys2Proof.Machine
end

