-- ==== Sys2Proof/Machine/Pins.lean ====
section
/-! DEFINITION. The pins: RESET asserted and released (R156, R184, R191, R196, R197), SEL falling and rising
(R185, R188). -/

namespace Sys2Proof.Machine

/-- Everything but the pins, the configuration's straps, the free values drawn and the command queue, at its
hardware-reset value, with the station-changed flag as given (R24, R47, R49, R50, R138, R156, R173, R184, R197). -/
def State.hardwareReset (stn : BitVec 5) (rate : BitVec 2) (changed : Bool) (s : State) : State :=
  { State.reset with
    pins := s.pins
    ctl := Controller.reset stn rate
    attention := { changed := changed, readMark := false, offered := false }
    freeDraws := s.freeDraws
    pending := s.pending }

/-- RESET_ASSERTED: every block at its hardware-reset value at once; the straps' values and the
station-changed flag stand until the release (R156, R184, R191; log entry 6). -/
def execResetAsserted (s : State) : Host.Outcome State Fault Refusal :=
  .next ((s.hardwareReset (BitVec.ofFin s.ctl.station) s.ctl.rate s.attention.changed) |> fun t =>
    { t with pins := { t.pins with resetLow := true } })

/-- RESET_RELEASED: the straps sampled, every block at its hardware-reset value, the flag set (R156, R181,
R196, R197). -/
def execResetReleased (stn : BitVec 5) (rate : BitVec 2) (s : State) : Host.Outcome State Fault Refusal :=
  .next ((s.hardwareReset stn rate true) |> fun t => { t with pins := { t.pins with resetLow := false } })

/-- SEL_FALL (R185). -/
def execSelFall (s : State) : Host.Outcome State Fault Refusal := .next s.selFalls

/-- SEL_RISE (R180, R182, R188). -/
def execSelRise (s : State) : Host.Outcome State Fault Refusal := .next s.selRises

end Sys2Proof.Machine
end

