-- ==== Sys2Proof/Machine/PortCommands.lean ====
section
/-! DEFINITION. The commands of the Local Port, each the clocking in of its bytes (section 10.7; log entry
14), and one byte alone. -/

namespace Sys2Proof.Machine

/-- SETUP (R52). -/
def execSetup (interval : Byte) (s : State) : Host.Outcome State Fault Refusal :=
  .next (s.portBytes [0x1A, interval])

/-- START (R53). -/
def execStart (s : State) : Host.Outcome State Fault Refusal := .next (s.portBytes [0x2B])

/-- STOP (R54, R55). -/
def execStop (s : State) : Host.Outcome State Fault Refusal := .next (s.portBytes [0x2C])

/-- The port ACQUIRE (R160, R161). -/
def execAcquire (key : Key) (options term : Byte) (s : State) : Host.Outcome State Fault Refusal :=
  .next (s.portBytes [0x41, hiByte key, loByte key, options, term])

/-- The port RELEASE (R160, R161). -/
def execRelease (key : Key) (s : State) : Host.Outcome State Fault Refusal :=
  .next (s.portBytes [0x42, hiByte key, loByte key])

/-- The port RENEW (R160, R161). -/
def execRenew (key : Key) (term : Byte) (s : State) : Host.Outcome State Fault Refusal :=
  .next (s.portBytes [0x43, hiByte key, loByte key, term])

/-- TAKE (R180). -/
def execTake (s : State) : Host.Outcome State Fault Refusal := .next (s.portBytes [0x51])

/-- STATUS (R182, R195). -/
def execStatus (s : State) : Host.Outcome State Fault Refusal := .next (s.portBytes [0x52])

/-- QUERY (R193). -/
def execQuery (key : Key) (s : State) : Host.Outcome State Fault Refusal :=
  .next (s.portBytes [0x53, hiByte key, loByte key])

/-- ROSTER (R194). -/
def execRoster (s : State) : Host.Outcome State Fault Refusal := .next (s.portBytes [0x54])

/-- UNKNOWN_COMMAND (R190). -/
def execUnknownCommand (code : Byte) (s : State) : Host.Outcome State Fault Refusal :=
  .next (s.portBytes [code])

/-- BYTE_RECEIVED (R185, R186). -/
def execByteReceived (b : Byte) (s : State) : Host.Outcome State Fault Refusal := .next (s.portByte b)

end Sys2Proof.Machine
end

