-- ==== Sys2Proof/Machine/TimerEvents.lean ====
section
/-! DEFINITION. The events of the Beat Timer's countdowns and of the released run. -/

namespace Sys2Proof.Machine

/-- BEAT_COUNTDOWN_EXPIRY (R32, R33). -/
def execBeatCountdownExpiry (s : State) : Host.Outcome State Fault Refusal := .next s.beatExpires

/-- FOUND_WINDOW_EXPIRY (R63, R89). -/
def execFoundWindowExpiry (s : State) : Host.Outcome State Fault Refusal := .next s.windowExpires

/-- IDLE_GAP (R143, R144). -/
def execIdleGap (s : State) : Host.Outcome State Fault Refusal := .next s.idleGapReached

/-- YIELD_RUN (R137, R143). -/
def execYieldRun (s : State) : Host.Outcome State Fault Refusal := .next s.yieldRunReached

/-- START_BIT_NOT_ACCEPTED (R145). -/
def execStartBitNotAccepted (run : Nat) (s : State) : Host.Outcome State Fault Refusal :=
  .next (s.startBitRejected run)

end Sys2Proof.Machine
end

