-- ==== Sys2Proof/Machine/Dispatch.lean ====
section
/-! DEFINITION. One arm per command: its meaning. -/

namespace Sys2Proof.Machine

/-- The effect of a command on everything but the queue. -/
def exec (i : Instr) (s : State) : Host.Outcome State Fault Refusal :=
  match i with
  | .resetAsserted => Sys2Proof.Machine.execResetAsserted s
  | .resetReleased stn rate => Sys2Proof.Machine.execResetReleased stn rate s
  | .selFall => Sys2Proof.Machine.execSelFall s
  | .selRise => Sys2Proof.Machine.execSelRise s
  | .setup interval => Sys2Proof.Machine.execSetup interval s
  | .start => Sys2Proof.Machine.execStart s
  | .stop => Sys2Proof.Machine.execStop s
  | .acquire key options term => Sys2Proof.Machine.execAcquire key options term s
  | .release key => Sys2Proof.Machine.execRelease key s
  | .renew key term => Sys2Proof.Machine.execRenew key term s
  | .take => Sys2Proof.Machine.execTake s
  | .status => Sys2Proof.Machine.execStatus s
  | .query key => Sys2Proof.Machine.execQuery key s
  | .roster => Sys2Proof.Machine.execRoster s
  | .unknownCommand code => Sys2Proof.Machine.execUnknownCommand code s
  | .beatCountdownExpiry => Sys2Proof.Machine.execBeatCountdownExpiry s
  | .foundWindowExpiry => Sys2Proof.Machine.execFoundWindowExpiry s
  | .idleGap => Sys2Proof.Machine.execIdleGap s
  | .yieldRun => Sys2Proof.Machine.execYieldRun s
  | .beat sender h => Sys2Proof.Machine.execBeat sender h s
  | .present sender h => Sys2Proof.Machine.execPresent sender h s
  | .head sender body h => Sys2Proof.Machine.execHead sender body h s
  | .part sender body h => Sys2Proof.Machine.execPart sender body h s
  | .found sender body h => Sys2Proof.Machine.execFound sender body h s
  | .leave sender h => Sys2Proof.Machine.execLeave sender h s
  | .join sender h => Sys2Proof.Machine.execJoin sender h s
  | .acquireFrame sender key modeWait term h => Sys2Proof.Machine.execAcquireFrame sender key modeWait term h s
  | .releaseFrame sender key h => Sys2Proof.Machine.execReleaseFrame sender key h s
  | .renewFrame sender key term h => Sys2Proof.Machine.execRenewFrame sender key term h s
  | .frameObjected raw => Sys2Proof.Machine.execFrameObjected raw s
  | .earlyBreak raw => Sys2Proof.Machine.execEarlyBreak raw s
  | .duplicate frame window h => Sys2Proof.Machine.execDuplicate frame window h s
  | .expired sender h => Sys2Proof.Machine.execExpired sender h s
  | .lapse sender h => Sys2Proof.Machine.execLapse sender h s
  | .transferIdleTimeout sender h => Sys2Proof.Machine.execTransferIdleTimeout sender h s
  | .senderWatchLapse sender h => Sys2Proof.Machine.execSenderWatchLapse sender h s
  | .spoil frame h => Sys2Proof.Machine.execSpoil frame h s
  | .streak raw => Sys2Proof.Machine.execStreak raw s
  | .lineRefused o => Sys2Proof.Machine.execLineRefused o s
  | .joinRefused o => Sys2Proof.Machine.execJoinRefused o s
  | .leaveUnheard o => Sys2Proof.Machine.execLeaveUnheard o s
  | .giveUpSending o => Sys2Proof.Machine.execGiveUpSending o s
  | .headBarred o => Sys2Proof.Machine.execHeadBarred o s
  | .startBitNotAccepted run => Sys2Proof.Machine.execStartBitNotAccepted run s
  | .byteReceived b => Sys2Proof.Machine.execByteReceived b s

end Sys2Proof.Machine
end

