-- ==== Sys2Proof/Safety.lean ====
section
/-! DEFINITION. What stays true of the station whatever commands come: the invariant of every step, and the
laws of the lease table and of the desk that the rules call laws of the device. -/

namespace Sys2Proof.Machine

/-! ## The invariant of every step -/

/-- A roster in ascending station number, each station in it once (R57). -/
abbrev RosterOrdered (r : List Member) : Prop := r.Pairwise fun a b => a.station < b.station

/-- What every step keeps. Each clause is a law the spec states of the part, or the range it gives a count. -/
structure State.Kept (s : State) : Prop where
  /-- R1: the table has 64 slots. -/
  tableSlots : s.replica.table.length = Config.slots
  /-- R79: an image is the table as it stood. -/
  imageSlots : ∀ t, s.xfer.image = some t → t.length = Config.slots
  /-- R24, R57, R58, R73, R124: outside membership and LOADING there is no replicated state. -/
  nothingReplicated : s.ctl.state.isMember = false → s.ctl.state ≠ .loading → s.replica = Replica.empty
  /-- R173: outside SYNCED and LEAVING of kind MEMBER the queue and the claims list are empty. -/
  deskEmpty : s.ctl.state.isMember = false → s.desk.requests = [] ∧ s.desk.claims = []
  /-- R158. -/
  requestsFit : s.desk.requests.length ≤ Config.maxRequests
  /-- R163. -/
  claimsFit : s.desk.claims.length ≤ Config.maxClaims
  /-- R85: at most 32 records, and none outside LOADING. -/
  journalFits : s.xfer.journal.length ≤ Config.maxJournal
  loadingOnly : s.ctl.state ≠ .loading → s.xfer.journal = [] ∧ s.xfer.phase = none
  /-- R79, R83, R95: a station with no ACTIVE record, or no member, is sending nothing. -/
  sendingOnly : s.ctl.state.isMember = false ∨ s.replica.transfer = none →
    s.xfer.image = none ∧ s.xfer.cursor = none
  /-- R31, R52. -/
  intervalLegal : Config.minInterval ≤ s.timer.interval ∧ s.timer.interval ≤ Config.maxInterval
  /-- R32: the beat countdown runs at a member alone. -/
  beatStops : s.ctl.state.isMember = false → s.timer.countdown = .stopped
  /-- R63: the found window runs in JOINING and LOADING alone. -/
  windowStops : s.ctl.state ≠ .joining → s.ctl.state ≠ .loading → s.timer.window = .stopped
  /-- R130: the streak count is 0..3. -/
  streakFits : s.sel.streak < Config.streakLimit
  /-- R127: the objection counts are 0..7. -/
  requestCountFits : s.sel.requestCount < Config.objectionLimit
  joinCountFits : s.sel.joinCount < Config.objectionLimit
  leaveCountFits : s.sel.leaveCount < Config.objectionLimit
  partCountFits : s.sel.partCount < Config.objectionLimit
  headCountFits : s.sel.headCount < Config.objectionLimit
  /-- R148: the frame ends that wait for the first gap are those of broken frames. -/
  brokenEndsBroken : ∀ b ∈ s.sel.brokenEnds, b.frameEnd.sent = .broken
  /-- R57: the roster is a set. -/
  rosterOrdered : RosterOrdered s.replica.roster

/-! ## Hearing a frame of another station -/

/-- The station hears a frame from its start and sends nothing itself: it is awake and not HALTED, the start
bit comes after a gap's run, at most two cells are noisy, and nothing falls within the frame. It
stands in GAP, with no yield flag to release on the way, or it hunts blind and has found no gap yet (R143, R144). -/
structure State.Listening (s : State) (h : Hearing) : Prop where
  awake : s.pins.resetLow = false
  live : s.ctl.state ≠ .halted
  between : (s.liu.linePhase = .gap ∧ (h.startRun < Config.longRun ∨ s.sel.yielding = false)) ∨
    (s.liu.linePhase = .hunt ∧ h.startRun < s.liu.gapAt)
  gap : Config.gapRun ≤ h.startRun
  clean : h.noisy ≤ Config.maxNoisy
  steady : h.within = Within.nothing
  silent : s.sel.onLine = none

/-- The station hears this reception in a stretch of LINE, sends nothing itself, and nothing falls within the
frame: it is awake and not HALTED, and the hunt up to the start bit moves the LIU alone (no gap with something
to offer comes on the way). -/
structure State.Hears (s : State) (raw : RawFrame) (r : Reception) : Prop where
  awake : s.pins.resetLow = false
  live : s.ctl.state ≠ .halted
  steady : raw.within = Within.nothing
  silent : s.sel.onLine = none
  begins : ∃ l ls, s.frameBegins raw.looks = ({ s with liu := l }, some ls) ∧ r = hearRaw l.sampler ls

/-- A member hears a frame of another station. -/
structure State.MemberHears (s : State) (h : Hearing) (p : Station) : Prop where
  listening : s.Listening h
  member : s.ctl.state.isMember = true
  other : p ≠ s.own

/-- The station's own frame is on the line, its header begun, and carried to the end of its check character with
at most two noisy cells, no other station driving its window and nothing falling within it. -/
structure State.Carries (s : State) (h : Hearing) (b : Body) : Prop where
  awake : s.pins.resetLow = false
  begun : s.liu.linePhase = .contend
  clean : h.noisy ≤ Config.maxNoisy
  steady : h.within = Within.nothing
  onLine : s.sel.onLine.map (·.frame) = some { sender := s.own, body := b }

/-- The station's own header is on the line, begun, with candidate `k` behind it, and loses to the lower header of
another station's frame, whose frame it then hears (R147): at most two cells are noisy and nothing falls within it. -/
structure State.Loses (s : State) (h : Hearing) (f : Frame) (k : Option CandKind) : Prop where
  awake : s.pins.resetLow = false
  begun : s.liu.linePhase = .contend
  clean : h.noisy ≤ Config.maxNoisy
  steady : h.within = Within.nothing
  other : f.sender ≠ s.own
  lower : ∃ b, s.sel.onLine = some { kind := k, frame := { sender := s.own, body := b } } ∧
    headerByte f < headerByte { sender := s.own, body := b }

/-- The commands that stand for a frame of `p` with this body, its window driven by no other station: the row of its
class, for a BEAT the rows named for its consequences too, and SPOIL (log entry 4). -/
def frameCommands (p : Station) (h : Hearing) (b : Body) : List Instr :=
  .spoil { sender := p, body := b } h ::
  match b with
  | .beat => [.beat p h, .expired p h, .lapse p h, .transferIdleTimeout p h, .senderWatchLapse p h]
  | .present => [.present p h]
  | .head x => [.head p x h]
  | .part x => [.part p x h]
  | .found x => [.found p x h]
  | .misshapen => []
  | .leave => [.leave p h]
  | .release key => [.releaseFrame p key h]
  | .renew key term => [.renewFrame p key term h]
  | .acquire key mw term => [.acquireFrame p key mw term h]
  | .join => [.join p h]

/-- A frame was applied and had no effect (R55, R117): the LIU hunts with its record, the streak is 0, nothing is on the
line, the yield flag is as given, the last frame end is noted, and the rest of the station is as it was. -/
structure State.Unmoved (s : State) (yielding : Bool) (t : State) : Prop where
  rest : t = { s with
    liu := t.liu
    sel := { s.sel with streak := 0, yielding := yielding, onLine := none, lastEnd := t.sel.lastEnd } }
  hunts : t.liu.linePhase = .hunt ∧ t.liu.releasedRun = 0 ∧ t.liu.transmitting = false
  applied : t.liu.lastRecord.map (·.applied) = some true

/-- The station takes part in a frame whose header gave this class, `none` where its header was not taken: a participant
does, but for JOINING, which takes part in classes 2 and 7 alone (R117). -/
def State.TakesPart (s : State) (cls : Option Nat) : Prop :=
  s.ctl.state.participating = true ∧ (s.ctl.state = .joining → cls = some 2 ∨ cls = some 7)

/-- Another station drives a cell of the own frame's window, and nothing falls within the frame. -/
structure Objects (o : OwnObjection) : Prop where
  steady : o.within = Within.nothing
  drives : ∃ c ∈ tenCells (cellsOf (Sampler.boundary false) o.window), cellLevel c = true

/-- The body is a HEAD's. -/
def isHead : Body → Bool
  | .head _ => true
  | .beat | .present | .part _ | .found _ | .misshapen | .leave | .release _ | .renew _ _ | .acquire _ _ _ | .join => false

/-- The PART and HEAD candidates that an application of this body, leaving this state, withdraws: the PART with the
transfer record, the HEAD at any HEAD and where it no longer stands (R76, R95, R127). -/
def withdraws (b : Body) (t : State) (k : CandKind) : Bool :=
  (k.isPart && t.replica.transfer.isNone) || (k == .head && (isHead b || !t.headStands))

/-- What a member's application of another station's frame with this body leaves alone: everything but the LIU, the
replicated state, the desk, the streak, the yield flag, the counts of PART and HEAD and the last frame end;
of the Transfer Unit everything but the image and cursor, which go with the transfer record (R95); and of the
broken ends that wait, what a withdrawn candidate's count against (R135). -/
structure State.ReplicaOnly (s : State) (b : Body) (t : State) : Prop where
  pins : t.pins = s.pins
  port : t.port = s.port
  attention : t.attention = s.attention
  ctl : t.ctl = s.ctl
  timer : t.timer = s.timer
  freeDraws : t.freeDraws = s.freeDraws
  pending : t.pending = s.pending
  xfer : t.xfer = if t.replica.transfer.isNone then { s.xfer with image := none, cursor := none } else s.xfer
  beat : t.sel.beat = s.sel.beat
  present : t.sel.present = s.sel.present
  found : t.sel.found = s.sel.found
  leave : t.sel.leave = s.sel.leave
  join : t.sel.join = s.sel.join
  requestCount : t.sel.requestCount = s.sel.requestCount
  joinCount : t.sel.joinCount = s.sel.joinCount
  leaveCount : t.sel.leaveCount = s.sel.leaveCount
  headBarred : t.sel.headBarred = s.sel.headBarred
  onLine : t.sel.onLine = s.sel.onLine
  brokenEnds : t.sel.brokenEnds = s.sel.brokenEnds.map (BrokenEnd.settle (withdraws b t))

/-! ## Malformed content, as chapter 5 lists it -/

/-- R112, of a HEAD and a FOUND alike: joiner, part count, join-queue count, the counted entries, the silence counts. -/
def EitherMalformed (b : HeadBody) : Prop :=
  let queue := b.entries.take b.queueCount.toNat
  31 < b.joiner.toNat ∨ 64 < b.partCount.toNat ∨ 4 < b.queueCount.toNat ∨ (∃ e ∈ queue, 31 < e.toNat) ∨ ¬ queue.Nodup ∨
  ∃ p : Station,
    let count := (b.silences.extractLsb' (4 * p.val) 4).toNat
    (b.rosterSet.getLsbD p.val = true ∧ 7 < count) ∨ (b.rosterSet.getLsbD p.val = false ∧ count ≠ 0)

/-- R112 of a HEAD. -/
def HeadMalformed (sender : Station) (b : HeadBody) : Prop :=
  let queue := b.entries.take b.queueCount.toNat
  let marked (e : Byte) : Prop := ∃ p : Station, p.val = e.toNat ∧ b.rosterSet.getLsbD p.val = true
  EitherMalformed b ∨ b.rosterSet.getLsbD sender.val = false ∨ marked b.joiner ∨ b.queueCount = 0 ∨
  queue.head? ≠ some b.joiner ∨ ∃ e ∈ queue, marked e

/-- R112 of a FOUND. -/
def FoundMalformed (sender : Station) (b : HeadBody) : Prop :=
  EitherMalformed b ∨ b.joiner.toNat ≠ sender.val ∨ b.seq ≠ 0 ∨ b.partCount ≠ 0 ∨
  (∃ p : Station, b.rosterSet.getLsbD p.val ≠ decide (p = sender)) ∨ 3 < b.queueCount.toNat ∨
  ∃ e ∈ b.entries.take b.queueCount.toNat, e.toNat = sender.val

/-- R113, with the carried head waiter judged by R6 against the carried holders. -/
def PartMalformed (b : PartBody) : Prop :=
  b.index = 0 ∨ 64 < b.index.toNat ∨ 63 < b.slot.toNat ∨ b.key = 0 ∨ 2 ≤ b.mode.toNat ∨
  b.holders = [] ∨ 4 < b.holders.length ∨ 4 < b.waiters.length ∨ (b.mode = 0 ∧ 1 < b.holders.length) ∨
  (∃ h ∈ b.holders, h.remaining = 0 ∨ h.unused ≠ 0) ∨
  (∃ w ∈ b.waiters, w.term = 0 ∨ 2 ≤ w.wanted.toNat ∨ w.unused ≠ 0) ∨
  ¬ (b.holders.map (·.station) ++ b.waiters.map (·.station)).Nodup ∨
  ∃ w ws, b.waiters = w :: ws ∧ (b.holders = [] ∨ (b.mode = 1 ∧ w.wanted = 1 ∧ b.holders.length < 4))

/-- R77, R114: a HEAD against a member's replicated state. -/
def HeadDrifts (sender : Station) (b : HeadBody) (r : Replica) : Prop :=
  r.transfer ≠ none ∨ (∀ j q, r.joinQueue = j :: q → b.joiner.toNat ≠ j.val) ∨ (∀ m ∈ r.roster, m.station ≠ sender) ∨
  b.seq ≠ r.seq + 1

/-- R77, R114: a PART against the transfer record, NONE included. -/
def PartDrifts (sender : Station) (b : PartBody) (r : Replica) : Prop :=
  ∀ t, r.transfer = some t → t.sender ≠ sender ∨ b.index.toNat ≠ t.applied + 1

/-- R114: a PART whose slot is not above every slot installed in this load, or whose key is held by one. -/
def PartRepeats (b : PartBody) (r : Replica) : Prop :=
  ∃ i x, r.table[i]? = some (some x) ∧ (b.slot.toNat ≤ i ∨ x.key = b.key)

/-! ## The pre-check -/

/-- The desk after a pre-check has turned away these requests at the queue's head, each with a local NOT_HELD, and left
the rest (R136, R165). -/
def Desk.turnedAway (gone rest : List Request) (d : Desk) : Desk :=
  { d with
    requests := rest
    notices := d.notices ++
      gone.map fun r => { kind := .done .notHeld, ticket := r.ticket, key := r.key, mode := none, seq := none }
    reservation := d.reservation - gone.length }

/-! ## A select period -/

/-- The port is selected and waits for a command byte (R185, R186). -/
structure State.Selected (s : State) : Prop where
  awake : s.pins.resetLow = false
  waits : s.port.phase = .command

/-- The port right after a command has taken effect, its reply held (R186, R187). -/
def Port.answering (code : Byte) (args reply : List Byte) : Port :=
  { phase := .turnaround, command := some code, arguments := args, reply := reply, clocked := 0 }

/-- LINE stays released with nothing offered: a candidate set now brings a choice at once (R132). -/
def State.OpenGap (s : State) : Prop := s.liu.linePhase = .gap ∧ s.sel.onLine = none

/-! ## The laws of a slot and of the table (chapter 1) -/

/-- What chapter 1 says of every occupied slot: one to four holders, one alone when EXCLUSIVE (R2, R3), at
most four waiters (R4), terms that have not run out (R3, R4), one place for a station (R10), and a head
waiter that is not grantable (R6). -/
structure Slot.Lawful (s : Slot) : Prop where
  held : s.holders ≠ []
  holdersFit : s.holders.length ≤ Config.maxHolders
  waitersFit : s.waiters.length ≤ Config.maxWaiters
  soleHolder : s.mode = .exclusive → s.holders.length = 1
  holdersLive : ∀ h ∈ s.holders, 0 < h.remaining
  waitersLive : ∀ w ∈ s.waiters, 0 < w.term
  onePlace : (s.holders.map (·.station) ++ s.waiters.map (·.station)).Nodup
  headWaits : ∀ w ws, s.waiters = w :: ws → grantable s.mode s.holders w = false

/-- The keys of the occupied slots. -/
def keysOf (t : Table) : List Key := t.filterMap fun o => o.map (·.key)

/-- Every occupied slot is lawful, and no key has two slots (R1). -/
structure TableLawful (t : Table) : Prop where
  slots : ∀ s, some s ∈ t → Slot.Lawful s
  keys : (keysOf t).Nodup

/-! ## The laws of the desk (chapters 8 and 9) -/

/-- Requests and claims agree (R161, R163): a key has one claim at most and one queued ACQUIRE at most, and the
PENDING claims are those of the queued ACQUIREs. -/
structure Desk.Sound (d : Desk) : Prop where
  claimKeys : (d.claims.map (·.key)).Nodup
  acquireKeys : ((d.requests.filter (·.kind == .acquire)).map (·.key)).Nodup
  pendingQueued : ∀ c ∈ d.claims, c.state = .pending ↔ ∃ r ∈ d.requests, r.kind = .acquire ∧ r.key = c.key
  acquiresClaim : ∀ r ∈ d.requests, r.kind = .acquire → ∃ c ∈ d.claims, c.key = r.key

/-- The reservation is what the queue and the claims hold (R172), and the budget is kept (R178). -/
structure Desk.Budgeted (d : Desk) : Prop where
  reserved : d.reservation = d.held
  budget : d.notices.length + d.reservation ≤ Config.maxNotices

/-- What every event of the desk keeps (R163, R172, R178). -/
structure Desk.Lawful (d : Desk) : Prop where
  sound : d.Sound
  budgeted : d.Budgeted

/-- An outcome that a request of this kind can complete with (R166, R167, R168, R170). -/
def completes (k : RequestKind) (o : Outcome) : Bool :=
  match k with
  | .acquire => [.granted, .queued, .busy, .queueFull, .tableFull, .already, .lineRefused, .aborted].contains o
  | .release => [.released, .cancelled, .notHeld, .lineRefused, .aborted].contains o
  | .renew => [.renewed, .notHeld, .lineRefused, .aborted].contains o

end Sys2Proof.Machine
end

