-- ==== Sys2Proof/WellFormed.lean ====
section
/-! DEFINITION. Which commands can come about: what a row's operands must satisfy for the event to be
one the outside world can make. `exec` is total and does not ask; statements do. -/

namespace Sys2Proof

/-- A body that the layout of section 5.7 can carry: four queue entries in a HEAD or FOUND, counts that
fit the slot summary and the length limit of R105 in a PART; a misshapen frame is given as LINE only. -/
def Body.wf : Body → Bool
  | .beat => true
  | .present => true
  | .head b => b.entries.length == 4
  | .part b => decide (b.holders.length ≤ 7) && decide (b.waiters.length ≤ 7) &&
      decide (b.holders.length + b.waiters.length ≤ 12)
  | .found b => b.entries.length == 4
  | .misshapen => false
  | .leave => true
  | .release _ => true
  | .renew _ _ => true
  | .acquire _ _ _ => true
  | .join => true

/-- The released run stops counting at 24 (R143); a frame of 33 characters has 330 cells (R116). -/
def Hearing.wf (h : Hearing) : Bool :=
  decide (h.startRun ≤ Config.longRun) && decide (h.noisy ≤ 330)

/-- A frame given as LINE has phases to look at. -/
def RawFrame.wf (r : RawFrame) : Bool := !r.looks.isEmpty

/-- A verdict window has at most its ten cells of twelve phases (R99, R140). -/
def windowFits (w : List Bool) : Bool := decide (w.length ≤ 120)

/-- No more noisy cells than the frame has, and a window that fits. -/
def OwnObjection.wf (o : OwnObjection) : Bool := decide (o.noisy ≤ 330) && windowFits o.window

/-- The ten command codes of section 10.7. -/
def knownCodes : List Byte :=
  [0x1A, 0x2B, 0x2C, 0x41, 0x42, 0x43, 0x51, 0x52, 0x53, 0x54]

/-- The command is one the outside world can make. -/
def Instr.wf : Instr → Bool
  | .resetAsserted => true
  | .resetReleased _ _ => true
  | .selFall => true
  | .selRise => true
  | .setup _ => true
  | .start => true
  | .stop => true
  | .acquire _ _ _ => true
  | .release _ => true
  | .renew _ _ => true
  | .take => true
  | .status => true
  | .query _ => true
  | .roster => true
  | .unknownCommand code => !knownCodes.contains code
  | .beatCountdownExpiry => true
  | .foundWindowExpiry => true
  | .idleGap => true
  | .yieldRun => true
  | .beat _ h => h.wf
  | .present _ h => h.wf
  | .head _ b h => (Body.head b).wf && h.wf
  | .part _ b h => (Body.part b).wf && h.wf
  | .found _ b h => (Body.found b).wf && h.wf
  | .leave _ h => h.wf
  | .join _ h => h.wf
  | .acquireFrame _ _ _ _ h => h.wf
  | .releaseFrame _ _ h => h.wf
  | .renewFrame _ _ _ h => h.wf
  | .frameObjected raw => raw.wf
  | .earlyBreak raw => raw.wf
  | .duplicate f w h => f.body.wf && windowFits w && h.wf
  | .expired _ h => h.wf
  | .lapse _ h => h.wf
  | .transferIdleTimeout _ h => h.wf
  | .senderWatchLapse _ h => h.wf
  | .spoil f h => f.body.wf && h.wf
  | .streak raw => raw.wf
  | .lineRefused o => o.wf
  | .joinRefused o => o.wf
  | .leaveUnheard o => o.wf
  | .giveUpSending o => o.wf
  | .headBarred o => o.wf
  | .startBitNotAccepted run => decide (1 ≤ run) && decide (run < Config.startRun)
  | .byteReceived _ => true

end Sys2Proof
end

