-- ==== Sys2Proof/Certificates/Slice0/Obligations.lean ====
section
/-! DEFINITION. What is claimed of the model: the statements for the provers, by the chapters of spec/. -/

open Sys2Proof Sys2Proof.Machine

/-! ## The step and the reset -/

/-- A step takes the command at the front of the queue and leaves the rest. -/
def Obligations.StepTakesTheFrontCommand : Prop :=
  ∀ (c : Instr) (rest : List Instr) (s : State),
    step { s with pending := c :: rest } = exec c { s with pending := rest }

/-- With an empty queue a bit cell of released LINE passes (log entry 2, the model's choice). The station in
HUNT at a cell boundary counts its run (R143), and a countdown with more than a cell left loses one cell of CLK
periods. -/
def Obligations.EmptyQueuePassesOneCell : Prop :=
  ∀ (s : State) (n : Nat) (seen : Bool), s.pending = [] → s.pins.resetLow = false → s.ctl.state ≠ .halted →
    s.liu.linePhase = .hunt → s.liu.releasedRun + 1 < s.liu.gapAt → s.liu.sampler = Sampler.boundary seen →
    s.timer.window = .stopped → s.timer.countdown = .running n → Config.clkPerCell s.ctl.rate < n →
    step s = .next { s with
      timer := { s.timer with countdown := .running (n - Config.clkPerCell s.ctl.rate) }
      liu := { s.liu with releasedRun := s.liu.releasedRun + 1, sampler := Sampler.boundary false } }

/-- RESET asserted (R156, R184, R191; that the other collections clear at once is log entry 6's): every block
at its reset value, the straps' values and the station-changed flag standing, ATTN released. -/
def Obligations.ResetAssertedClears : Prop :=
  ∀ s : State, ∃ t, exec .resetAsserted s = .next t ∧
    t = { State.reset with
      pins := { resetLow := true, selLow := s.pins.selLow }
      ctl := { Controller.reset 0 s.ctl.rate with station := s.ctl.station }
      attention := { changed := s.attention.changed, readMark := false, offered := false }
      freeDraws := s.freeDraws
      pending := s.pending } ∧
    t.attnDriven = false

/-- RESET released (R196, R197): the straps sampled, UNCONFIGURED with cause NONE and the interval at 20 ms,
every collection empty, the ticket counter 0, the port DESELECTED, the LIU hunting blind, ATTN driven. -/
def Obligations.ResetReleasedStarts : Prop :=
  ∀ (stn : BitVec 5) (rate : BitVec 2) (s : State), ∃ t, exec (.resetReleased stn rate) s = .next t ∧
    t.ctl.station.val = stn.toNat ∧ t.ctl.rate = rate ∧ t.ctl.state = .unconfigured ∧ t.ctl.cause = .none ∧
    t.ctl.configured = false ∧ t.ctl.preGroup = [] ∧
    t.timer = { interval := 20, countdown := .stopped, window := .stopped } ∧
    t.replica = { table := List.replicate 64 none, roster := [], joinQueue := [], transfer := none, seq := 0 } ∧
    t.desk = { requests := [], claims := [], nextTicket := 0, notices := [], reservation := 0 } ∧
    t.xfer.image = none ∧ t.xfer.cursor = none ∧ t.xfer.journal = [] ∧ t.xfer.phase = none ∧
    t.xfer.watch = 0 ∧ t.xfer.attempts = 0 ∧
    t.liu.linePhase = .hunt ∧ t.liu.blind = true ∧ t.liu.releasedRun = 0 ∧ t.liu.buffer = [] ∧
    t.liu.transmitting = false ∧
    t.sel.streak = 0 ∧ t.sel.yielding = false ∧ t.sel.headBarred = false ∧ t.sel.join = false ∧
    t.port = Port.reset ∧ t.pins = { resetLow := false, selLow := s.pins.selLow } ∧
    t.attention.changed = true ∧ t.attention.readMark = false ∧ t.attnDriven = true ∧ t.pending = s.pending

/-- The invariant holds right after reset. -/
def Obligations.KeptAtReset : Prop := State.reset.Kept

/-- Every step keeps the invariant, in every state that has it. -/
def Obligations.EveryStepKeepsKept : Prop :=
  ∀ s t : State, s.Kept → step s = .next t → t.Kept

/-! ## Frames as characters and cells -/

/-- A frame read from its characters is the frame that was composed, every field at every value (R100, R102,
R104..R108, section 5.7), and its check character matches (R109, R110). The characters are the header, class times 32
plus the sender, then the body as its layout gives it, the low-order character of a number first, then the check
character. The check register starts at 1 in every stage and takes the header's bits most significant first, those of
every other character least significant first. The feedback is the bit against c7, and inverts c6, c3, c2 and c0 after
the shift. -/
def Obligations.FrameReadsBack : Prop :=
  (∀ f : Frame, f.body.wf = true →
    let two (k : BitVec 16) : List Byte := [k.extractLsb' 0 8, k.extractLsb' 8 8]
    let list (b : HeadBody) : List Byte := b.joiner :: two b.seq ++ b.partCount ::
      (List.range 4).map (fun i => b.rosterSet.extractLsb' (8 * i) 8) ++
      (List.range 16).map (fun i => b.silences.extractLsb' (8 * i) 8) ++ b.queueCount :: b.entries
    let slot (b : PartBody) : List Byte := b.index :: b.slot :: two b.key ++
      (b.mode ++ BitVec.ofNat 3 b.holders.length ++ BitVec.ofNat 3 b.waiters.length) ::
      b.holders.flatMap (fun x => [x.unused ++ BitVec.ofNat 5 x.station.val, x.remaining]) ++
      b.waiters.flatMap (fun x => [x.unused ++ x.wanted ++ BitVec.ofNat 5 x.station.val, x.term])
    let laid : Nat × List Byte := match f.body with
      | .beat => (0, [])
      | .present => (1, [])
      | .head b => (2, 0x1E :: 0x01 :: list b)
      | .part b => (2, BitVec.ofNat 8 (6 + 2 * (b.holders.length + b.waiters.length)) :: 0x02 :: slot b)
      | .found b => (2, 0x1E :: 0x03 :: list b)
      | .leave => (3, [])
      | .release k => (4, two k)
      | .renew k term => (5, two k ++ [term])
      | .acquire k mw term => (6, two k ++ [mw, term])
      | .join | .misshapen => (7, [])
    let chars := BitVec.ofNat 8 (laid.1 * 32 + f.sender.val) :: laid.2
    encodeFrame f = chars ++ [crc chars] ∧ decodeFrame (encodeFrame f) = f ∧ checkMatches (encodeFrame f) = true) ∧
  (∀ (header : Byte) (chars : List Byte), crc (header :: chars) =
    ((List.range 8).map (fun k => header.getLsbD (7 - k)) ++
      chars.flatMap fun c => (List.range 8).map c.getLsbD).foldl crcBit 0xFF) ∧
  (∀ (chars : List Byte) (check : Byte), checkMatches (chars ++ [check]) = true ↔ check = crc chars) ∧
  ∀ (c : Byte) (bit : Bool), ∀ k < 8, (crcBit c bit).getLsbD k =
    ((decide (0 < k) && c.getLsbD (k - 1)) ^^ ((bit ^^ c.getLsbD 7) && [0, 2, 3, 6].contains k))

/-- A frame sent with every cell at its level for all twelve phases is received as that frame, with its check
matched, no noisy cell and a window that stays released (R140, R141, R142, R149, R105). A character is a driven start
bit, its eight data bits, a 0 driven and the header most significant first, and a released stop bit (R142). A cell is at
the level of two of its three samples, and noisy where they differ (R140). LINE is looked at once a phase: a
released-to-driven edge begins a new cell and closes the one in progress, the samples not yet taken counted as driven;
phases 5, 6 and 7 are sampled, and a cell ends with phase 11 (R140, R141). -/
def Obligations.SentFrameIsReceived : Prop :=
  (∀ f : Frame, f.body.wf = true →
    hearRaw (Sampler.boundary false) ((frameLevels f).flatMap (List.replicate 12)) = hear f 0 [] ∧
    hear f 0 [] = {
      chars := encodeFrame f, noisy := 0, taken := .complete, matched := true, frame := f, levels := frameLevels f
      window := List.replicate 10 { s5 := false, s6 := false, s7 := false } } ∧
    let cells (bits : List Bool) : List Bool := true :: bits.map not ++ [false]
    ∃ header chars, encodeFrame f = header :: chars ∧ frameLevels f =
      cells ((List.range 8).map fun k => header.getLsbD (7 - k)) ++
        chars.flatMap fun c => cells ((List.range 8).map c.getLsbD)) ∧
  (∀ c : Cell, cellLevel c = decide (2 ≤ [c.s5, c.s6, c.s7].count true) ∧
    cellNoisy c = decide (¬ (c.s5 = c.s6 ∧ c.s6 = c.s7))) ∧
  ∀ (m : Sampler) (driven : Bool),
    let closed (samples : List Bool) : ClosedCell := {
      edge := m.edge, cut := decide (samples.length < 3)
      cell := { s5 := samples[0]?.getD true, s6 := samples[1]?.getD true, s7 := samples[2]?.getD true } }
    let samples := if 5 ≤ m.phase ∧ m.phase ≤ 7 then m.samples ++ [driven] else m.samples
    (driven = true ∧ m.seen = false → look m driven =
      ({ phase := 1, seen := true, edge := true, samples := [] },
        if m.phase = 0 then none else some (closed m.samples))) ∧
    (¬ (driven = true ∧ m.seen = false) →
      (m.phase < 11 → look m driven = ({ m with phase := m.phase + 1, seen := driven, samples := samples }, none)) ∧
      (11 ≤ m.phase → look m driven = (Sampler.boundary driven, some (closed samples)))) ∧
    looks m [] = (m, []) ∧ ∀ ls, looks m (driven :: ls) =
      ((looks (look m driven).1 ls).1, (look m driven).2.toList ++ (looks (look m driven).1 ls).2)

/-! ## The port: membership commands -/

/-- SETUP (R52). -/
def Obligations.SetupSetsTheInterval : Prop :=
  ∀ (v : Byte) (s : State), s.Selected →
    exec (.setup v) s = .next
      (if s.ctl.state ≠ .unconfigured ∨ s.ctl.configured = true then
        { s with port := Port.answering 0x1A [v] [0x01] }
      else if v.toNat < 5 ∨ 250 < v.toNat then { s with port := Port.answering 0x1A [v] [0x08] }
      else { s with
        timer := { s.timer with interval := v.toNat }
        ctl := { s.ctl with configured := true }
        port := Port.answering 0x1A [v] [0x00] })

/-- START (R53): in UNCONFIGURED and IDLE; elsewhere BAD_STATE and nothing changes. Of the candidates only the JOIN
stands, every count and flag of the Offer Selector clear (R138), and a line that stays released brings the choice at
once (R132). Taken in IDLE within another station's frame (an event given with the frame, log entry 3), be it before
the header's stop bit, before the check character's or after, it leaves the station out of that frame, and its JOIN
waits for the choice after it (R117, R132, R156). -/
def Obligations.StartBeginsJoining : Prop :=
  ∀ s : State, s.Selected →
    (s.ctl.state = .unconfigured ∨ s.ctl.state = .idle → ∃ t, exec .start s = .next t ∧
      t.ctl = { s.ctl with
        state := .joining, cause := .none
        configured := s.ctl.configured || s.ctl.state == .unconfigured
        preGroup := [], groupSeen := false, listed := false, ownJoinApplied := false } ∧
      t.attention = { s.attention with changed := true, readMark := false } ∧
      t.xfer = { s.xfer with attempts := 0 } ∧
      t.timer = { s.timer with window := .stopped } ∧
      t.sel.join = true ∧ t.sel.joinCount = 0 ∧ t.sel.beat = false ∧ t.sel.present = false ∧
      t.sel.found = false ∧ t.sel.leave = false ∧ t.sel.requestCount = 0 ∧ t.sel.leaveCount = 0 ∧
      t.sel.partCount = 0 ∧ t.sel.headCount = 0 ∧ t.sel.headBarred = false ∧ t.sel.yielding = false ∧
      t.sel.streak = 0 ∧
      t.sel.onLine = (if s.liu.linePhase = .gap then
        some { kind := some .join, frame := { sender := s.own, body := .join } } else none) ∧
      t.port = Port.answering 0x2B [] [0x00] ∧
      t.desk = s.desk ∧ t.replica = s.replica ∧ (s.Kept → t.replica.seq = 0) ∧ t.pins = s.pins ∧
      t.freeDraws = s.freeDraws ∧ t.pending = s.pending) ∧
    (s.ctl.state ≠ .unconfigured → s.ctl.state ≠ .idle →
      exec .start s = .next { s with port := Port.answering 0x2B [] [0x01] }) ∧
    (∀ (h : Hearing) (p : Station) (w : Within) (c : Instr) (b : Body), s.Listening h → s.ctl.state = .idle →
      p ≠ s.own →
      w ∈ [{ Within.nothing with toHeader := [.byte 0x2B] }, { Within.nothing with toCheck := [.byte 0x2B] },
        { Within.nothing with toEnd := [.byte 0x2B] }] →
      (c, b) ∈ [(Instr.beat p { h with within := w }, Body.beat), (.join p { h with within := w }, .join)] → ∃ t,
      exec c s = .next t ∧ t.ctl.state = .joining ∧ t.liu.takingPart = false ∧ t.liu.linePhase = .hunt ∧
      t.sel.join = true ∧ t.sel.joinCount = 0 ∧ t.sel.onLine = none ∧ t.sel.lastEnd = some
        { sent := .none, ending := .applied, raised := .nothing, clean := true
          applied := some { sender := p, body := b } })

/-- STOP in SYNCED (R54, R129, R138, R148, R170): LEAVING of kind MEMBER with the LEAVE candidate; of the queue only
a request whose frame is on the line stays, offered or broken with its end still to be handed, and the others complete
with ABORTED, head first; the beats go on. -/
def Obligations.StopInSyncedLeaves : Prop :=
  (∀ (d : Desk) (l : List Ticket), d.abortQueue l =
    (d.requests.filter fun r => decide (r.ticket ∉ l)).foldl (fun e r => e.conclude r .aborted none none)
      { d with requests := d.requests.filter fun r => decide (r.ticket ∈ l) }) ∧
  ∀ s : State, s.Selected → s.ctl.state = .synced →
    (∀ q, q ∈ s.sel.requestsOnLine ↔
      (∃ f, s.sel.onLine = some { kind := some (.request q), frame := f }) ∨ ∃ b ∈ s.sel.brokenEnds, b.kind = some (.request q)) ∧
    ∃ t, exec .stop s = .next t ∧
    t.ctl = { s.ctl with state := .leaving .member } ∧
    t.desk = s.desk.abortQueue s.sel.requestsOnLine ∧
    t.desk.requests = s.desk.requests.filter (fun r => decide (r.ticket ∈ s.sel.requestsOnLine)) ∧
    t.attention = { s.attention with changed := true, readMark := false } ∧
    t.sel.leave = true ∧ t.sel.leaveCount = 0 ∧ t.sel.beat = s.sel.beat ∧ t.sel.present = s.sel.present ∧
    t.sel.streak = s.sel.streak ∧ t.sel.yielding = s.sel.yielding ∧
    t.timer = { s.timer with window := .stopped } ∧ t.replica = s.replica ∧ t.xfer = s.xfer ∧
    t.port = Port.answering 0x2C [] [0x00] ∧ t.pins = s.pins ∧ t.pending = s.pending

/-- STOP in JOINING or LOADING (R55, R138): LEAVING of kind WITHDRAWN, only the LEAVE candidate, no
replicated state and no load; elsewhere but in SYNCED, BAD_STATE. -/
def Obligations.StopWhileJoiningWithdraws : Prop :=
  ∀ s : State, s.Selected →
    (s.ctl.state = .joining ∨ s.ctl.state = .loading → ∃ t, exec .stop s = .next t ∧
      t.ctl.state = .leaving .withdrawn ∧ t.ctl.cause = s.ctl.cause ∧
      t.attention = { s.attention with changed := true, readMark := false } ∧
      t.replica = Replica.empty ∧ t.xfer = { TransferUnit.reset with attempts := s.xfer.attempts } ∧
      t.timer = { s.timer with countdown := .stopped, window := .stopped } ∧
      t.sel.leave = true ∧ t.sel.leaveCount = 0 ∧ t.sel.join = false ∧ t.sel.found = false ∧
      t.sel.streak = s.sel.streak ∧ t.desk = s.desk ∧
      t.port = Port.answering 0x2C [] [0x00] ∧ t.pins = s.pins ∧ t.pending = s.pending) ∧
    (s.ctl.state ≠ .synced → s.ctl.state ≠ .joining → s.ctl.state ≠ .loading →
      exec .stop s = .next { s with port := Port.answering 0x2C [] [0x01] })

/-! ## The port: requests -/

/-- Admission (R160, R179): its tests in their order for each kind of request, the first that fails giving the
reply, with nothing else changed; and OK with the ticket when every test is passed (R192). Every status goes out as
its code (R192, section 10.7). -/
def Obligations.AdmissionDecides : Prop :=
  ([.ok, .badState, .notMember, .reqFull, .claimsFull, .dupClaim, .noClaim, .noRoom, .badArg, .unknown, .empty,
    .noEntry] : List ReplyStatus).map statusCode =
      [0x00, 0x01, 0x02, 0x03, 0x04, 0x05, 0x06, 0x07, 0x08, 0x09, 0x0A, 0x0B] ∧
  ∀ (key : Key) (o t : Byte) (s : State),
    (∀ kind, s.admission kind key o t =
      (if s.ctl.state ≠ .synced then .notMember
       else if key = 0 ∨ (kind ≠ .release ∧ t = 0) ∨
          (kind = .acquire ∧ (1 < o.toNat % 4 ∨ o.toNat / 4 % 32 ≠ 0)) then .badArg
       else if 8 ≤ s.desk.requests.length then .reqFull
       else if kind = .acquire ∧ (∃ c ∈ s.desk.claims, c.key = key) then .dupClaim
       else if kind = .acquire ∧ 16 ≤ s.desk.claims.length then .claimsFull
       else if kind ≠ .acquire ∧ (∀ c ∈ s.desk.claims, c.key ≠ key) then .noClaim
       else if 40 < s.desk.notices.length + s.desk.reservation + (if kind = .acquire then 3 else 1) then .noRoom
       else .ok)) ∧
    (∀ st, s.Selected → st ≠ .ok →
      (s.admission .acquire key o t = st → exec (.acquire key o t) s = .next
        { s with port := Port.answering 0x41 [hiByte key, loByte key, o, t] [statusCode st, 0x00] }) ∧
      (s.admission .release key 0 0 = st → exec (.release key) s = .next
        { s with port := Port.answering 0x42 [hiByte key, loByte key] [statusCode st, 0x00] }) ∧
      (s.admission .renew key 0 t = st → exec (.renew key t) s = .next
        { s with port := Port.answering 0x43 [hiByte key, loByte key, t] [statusCode st, 0x00] })) ∧
    (s.Selected →
      (s.admission .acquire key o t = .ok → ∃ u, exec (.acquire key o t) s = .next u ∧
        u.port = Port.answering 0x41 [hiByte key, loByte key, o, t] [0x00, s.desk.nextTicket]) ∧
      (s.admission .release key 0 0 = .ok → ∃ u, exec (.release key) s = .next u ∧
        u.port = Port.answering 0x42 [hiByte key, loByte key] [0x00, s.desk.nextTicket]) ∧
      (s.admission .renew key 0 t = .ok → ∃ u, exec (.renew key t) s = .next u ∧
        u.port = Port.answering 0x43 [hiByte key, loByte key, t] [0x00, s.desk.nextTicket]))

/-- An ACQUIRE that passes every test is accepted (R159, R161, R163): ticket, record, reservation of 3 and
PENDING claim; nothing else changes but the Offer Selector's and the LIU's part. Into an empty queue its count
starts at 0, and on a line that stands released with nothing offered a choice follows at once: the lowest
candidate is offered, or this request unless the station yields (R127, R132, R133). -/
def Obligations.AcquireIsAccepted : Prop :=
  ∀ (key : Key) (o t : Byte) (s : State), s.Selected → s.admission .acquire key o t = .ok →
    let mode : Mode := if o.getLsbD 0 then .shared else .exclusive
    ∃ u, exec (.acquire key o t) s = .next u ∧
    u.desk = { s.desk with
      requests := s.desk.requests ++
        [{ ticket := s.desk.nextTicket, kind := .acquire, key := key, mode := mode, wait := o.getLsbD 7, term := t }]
      claims := s.desk.claims ++ [{ key := key, ticket := s.desk.nextTicket, state := .pending, mode := mode }]
      nextTicket := s.desk.nextTicket + 1
      reservation := s.desk.reservation + 3 } ∧
    u.port = Port.answering 0x41 [hiByte key, loByte key, o, t] [0x00, s.desk.nextTicket] ∧
    u.ctl = s.ctl ∧ u.replica = s.replica ∧ u.timer = s.timer ∧ u.xfer = s.xfer ∧ u.attention = s.attention ∧
    u.pins = s.pins ∧ u.freeDraws = s.freeDraws ∧ u.pending = s.pending ∧
    u.sel = { s.sel with
      requestCount := if s.desk.requests = [] then 0 else s.sel.requestCount
      onLine := u.sel.onLine } ∧
    (¬ s.OpenGap ∨ s.desk.requests ≠ [] → u.liu = s.liu ∧ u.sel.onLine = s.sel.onLine) ∧
    (s.OpenGap → s.desk.requests = [] →
      (∀ k b, firstClasses s = some (k, b) → u.sel.onLine = some { kind := some k, frame := { sender := s.own, body := b } }) ∧
      (firstClasses s = none → s.sel.yielding = true → u.liu = s.liu ∧ u.sel.onLine = none) ∧
      (firstClasses s = none → s.sel.yielding = false → u.liu.linePhase = .contend ∧ u.sel.onLine = some
        { kind := some (.request s.desk.nextTicket)
          frame := { sender := s.own, body := .acquire key (modeWaitByte mode (o.getLsbD 7)) t } }))

/-- A RELEASE or RENEW that passes every test is accepted (R159, R161): ticket, record and reservation of 1; nothing
else changes but the Offer Selector's and the LIU's part. Into an empty queue its count starts at 0, and on a
line that stands released with nothing offered a choice follows at once (R127, R132, R133): the lowest candidate
is offered, or this request if its claim lets it, unless the station yields; a request whose claim does not let it
completes there with a local NOT_HELD (R136, R165), and no broken end that waits counts against a later one (R135). -/
def Obligations.ReleaseAndRenewAreAccepted : Prop :=
  ∀ (key : Key) (t : Byte) (s : State), s.Selected →
    ∀ (c : Instr) (code : Byte) (args : List Byte) (r : Request) (b : Body),
    (c, code, args, r, b) ∈
      [(Instr.release key, (0x42 : Byte), [hiByte key, loByte key],
        { ticket := s.desk.nextTicket, kind := .release, key := key, mode := .exclusive, wait := false, term := 0 : Request },
        Body.release key),
       (.renew key t, 0x43, [hiByte key, loByte key, t],
        { ticket := s.desk.nextTicket, kind := .renew, key := key, mode := .exclusive, wait := false, term := t },
        .renew key t)] →
    s.admission r.kind key 0 r.term = .ok →
    let d : Desk := { s.desk with
      requests := s.desk.requests ++ [r]
      nextTicket := s.desk.nextTicket + 1
      reservation := s.desk.reservation + 1 }
    ∃ u, exec c s = .next u ∧ u.port = Port.answering code args [0x00, s.desk.nextTicket] ∧
    u.ctl = s.ctl ∧ u.replica = s.replica ∧ u.timer = s.timer ∧ u.xfer = s.xfer ∧ u.attention = s.attention ∧
    u.pins = s.pins ∧ u.freeDraws = s.freeDraws ∧ u.pending = s.pending ∧
    u.sel = { s.sel with
      requestCount := if s.desk.requests = [] then 0 else s.sel.requestCount
      onLine := u.sel.onLine
      brokenEnds := if u.desk.requests = [] then s.sel.brokenEnds.map (BrokenEnd.settle CandKind.isRequest)
        else s.sel.brokenEnds } ∧
    (¬ s.OpenGap ∨ s.desk.requests ≠ [] → u.desk = d ∧ u.liu = s.liu ∧ u.sel.onLine = s.sel.onLine) ∧
    (s.OpenGap → s.desk.requests = [] →
      (∀ k x, firstClasses s = some (k, x) → u.desk = d ∧
        u.sel.onLine = some { kind := some k, frame := { sender := s.own, body := x } }) ∧
      (firstClasses s = none → s.sel.yielding = true → u.desk = d ∧ u.liu = s.liu ∧ u.sel.onLine = none) ∧
      (firstClasses s = none → s.sel.yielding = false →
        (d.fits r = true → u.desk = d ∧ u.liu.linePhase = .contend ∧
          u.sel.onLine = some { kind := some (.request r.ticket), frame := { sender := s.own, body := b } }) ∧
        (d.fits r = false → u.desk = { d with requests := [] }.conclude r .notHeld none none ∧ u.liu = s.liu ∧
          u.sel.onLine = none)))

/-! ## The port: reads -/

/-- TAKE (R180): EMPTY, or the oldest notice offered and the queue otherwise unchanged. The notice goes out in its nine
bytes: kind, ticket, key, outcome, mode, and the sequence number behind its marker (R175, section 10.7). -/
def Obligations.TakeOffersTheOldest : Prop :=
  (∀ n : Notice, noticeBytes n =
    [match n.kind with | .done _ => 0x01 | .granted => 0x02 | .expired => 0x03 | .purged => 0x04,
      n.ticket, n.key.extractLsb' 8 8, n.key.extractLsb' 0 8,
      match n.kind with
      | .done o => (match o with
        | .granted => 0x01 | .queued => 0x02 | .busy => 0x03 | .queueFull => 0x04 | .tableFull => 0x05
        | .already => 0x06 | .released => 0x07 | .cancelled => 0x08 | .renewed => 0x09 | .notHeld => 0x0A
        | .lineRefused => 0x0B | .aborted => 0x0C | .expired => 0x00)
      | .granted | .expired | .purged => 0x00,
      match n.mode with | some .exclusive => 0x00 | some .shared => 0x01 | none => 0xFF] ++
    match n.seq with
    | some q => [0x01, q.extractLsb' 8 8, q.extractLsb' 0 8]
    | none => [0x00, 0x00, 0x00]) ∧
  ∀ s : State, s.Selected →
    (s.desk.notices = [] → exec .take s = .next
      { s with port := Port.answering 0x51 [] (0x0A :: List.replicate 9 0x00) }) ∧
    (∀ n ns, s.desk.notices = n :: ns → exec .take s = .next { s with
      attention := { s.attention with offered := true }
      port := Port.answering 0x51 [] (0x00 :: noticeBytes n) })

/-- STATUS (R182, R195): the twelve bytes, and the status-read mark set; the codes of the states, LEAVING of every kind
reading LEAVING, and of the exit causes are those of section 10.7. -/
def Obligations.StatusReportsTheStation : Prop :=
  ([.unconfigured, .idle, .joining, .loading, .synced, .leaving .member, .leaving .withdrawn, .leaving .failed,
    .halted] : List StationState).map stateCode = [0, 1, 2, 3, 4, 5, 5, 5, 6] ∧
  ([.none, .left, .streak, .lapsed, .joinRefused, .joinFailed, .leaveUnheard, .duplicate] : List ExitCause).map
    causeCode = [0, 1, 2, 3, 4, 5, 6, 7] ∧
  ∀ s : State, s.Selected → exec .status s = .next
    { s with
      attention := { s.attention with readMark := true }
      port := Port.answering 0x52 [] [0x00, stateCode s.ctl.state, causeCode s.ctl.cause,
        BitVec.ofNat 8 s.ctl.station.val, BitVec.ofNat 8 s.ctl.rate.toNat,
        BitVec.ofNat 8 (if s.ctl.state.isMember then s.replica.roster.length else 0),
        BitVec.ofNat 8 s.desk.notices.length, BitVec.ofNat 8 s.desk.requests.length,
        BitVec.ofNat 8 s.desk.claims.length, if s.attention.changed then 0x01 else 0x00,
        s.replica.seq.extractLsb' 8 8, s.replica.seq.extractLsb' 0 8] }

/-- QUERY (R193): its four answers in order, the slot in the layout of section 10.7, the positions of a holder's and a
waiter's first byte that the layout leaves unused sent as 0 (log entry 26, the model's choice). ROSTER (R194): a
member's replicated state, or the empty one; the roster set marks the members, a count is the member's silence count or
0, the queue is oldest first, its unused entries 0xFF, and the transfer record follows. The station does not change. -/
def Obligations.QueryAndRosterRead : Prop :=
  (∀ (i : Nat) (x : Slot),
    let code (m : Mode) : BitVec 2 := match m with | .exclusive => 0 | .shared => 1
    queryReply i x =
      [0x00, BitVec.ofNat 8 i, x.key.extractLsb' 8 8, x.key.extractLsb' 0 8,
        code x.mode ++ BitVec.ofNat 3 x.holders.length ++ BitVec.ofNat 3 x.waiters.length] ++
      (List.range 4).flatMap (fun k => (x.holders[k]?.map fun h =>
        [BitVec.ofNat 8 h.station.val, BitVec.ofNat 8 h.remaining]).getD [0xFF, 0x00]) ++
      (List.range 4).flatMap fun k => (x.waiters[k]?.map fun w =>
        [(0 : BitVec 1) ++ code w.wanted ++ BitVec.ofNat 5 w.station.val, BitVec.ofNat 8 w.term]).getD [0xFF, 0x00]) ∧
  (∀ (l : List Member) (q : List Station) (x : Option Transfer), ∃ (set : BitVec 32) (counts : BitVec 128),
    (∀ p : Station, (set.getLsbD p.val = true ↔ ∃ m ∈ l, m.station = p) ∧
      (counts.extractLsb' (4 * p.val) 4).toNat = (silenceOf p l).getD 0 % 16) ∧
    rosterReply l q x = 0x00 :: (List.range 4).map (fun i => set.extractLsb' (8 * i) 8) ++
      (List.range 16).map (fun i => counts.extractLsb' (8 * i) 8) ++ BitVec.ofNat 8 q.length ::
      (List.range 4).map (fun k => (q[k]?.map fun p => BitVec.ofNat 8 p.val).getD 0xFF) ++
      match x with
      | none => List.replicate 6 0x00
      | some y => [0x01, BitVec.ofNat 8 y.joiner.val, BitVec.ofNat 8 y.sender.val, BitVec.ofNat 8 y.total,
                   BitVec.ofNat 8 y.applied, BitVec.ofNat 8 y.idle]) ∧
  ∀ (key : Key) (s : State), s.Selected →
    (exec (.query key) s = .next { s with
      port := Port.answering 0x53 [hiByte key, loByte key]
        (if s.ctl.state.isMember = false then 0x02 :: List.replicate 20 0x00
         else if key = 0 then 0x08 :: List.replicate 20 0x00
         else match findKey key s.replica.table with
           | none => 0x0B :: List.replicate 20 0x00
           | some (i, slot) => queryReply i slot) }) ∧
    (exec .roster s = .next { s with
      port := Port.answering 0x54 []
        (if s.ctl.state.isMember then rosterReply s.replica.roster s.replica.joinQueue s.replica.transfer
         else List.replicate 22 0x00 ++ [0xFF, 0xFF, 0xFF, 0xFF] ++ List.replicate 6 0x00) })

/-- UNKNOWN_COMMAND (R190): no state changes; after the turnaround byte the one byte UNKNOWN, then DRAIN, and no
later byte of the period is an argument or a command. The bytes after a known command's last argument are
ignored whatever their values. -/
def Obligations.UnknownCommandIsAnswered : Prop :=
  (∀ (code : Byte) (s : State), s.Selected → knownCodes.contains code = false →
    exec (.unknownCommand code) s = .next { s with port := Port.answering code [] [0x09] } ∧
    (Port.answering code [] [0x09]).sdo = some 0xFF ∧
    ∀ (b c : Byte) (bs : List Byte), ∃ p q u : Port,
      s.portBytes [code, b] = { s with port := p } ∧ p.sdo = some 0x09 ∧
      s.portBytes [code, b, c] = { s with port := q } ∧ q.sdo = some 0xFF ∧ q.phase = .drain ∧
      s.portBytes ([code, b, c] ++ bs) = { s with port := u } ∧ u.sdo = some 0xFF ∧ u.phase = .drain) ∧
  (∀ (b c : Byte) (s : State), s.port.phase = .turnaround ∨ s.port.phase = .reply ∨ s.port.phase = .drain →
    exec (.byteReceived b) s = exec (.byteReceived c) s ∧
    ∃ p, exec (.byteReceived b) s = .next { s with port := p })

/-- BYTE_RECEIVED. A command byte that takes arguments moves the port to ARGUMENTS and is held there, and the argument
bytes gather behind it in order (R186). A command byte without arguments, and the last argument byte, take effect as the
row of that command does, the values it carries given most significant byte first (R187, R192); so does a byte that is
no command (R190). After a command has taken effect (R186, R188, R190): the turnaround byte, the reply's bytes
in order, and 0xFF after the reply; the byte taken in starts nothing. While SEL is high it is ignored, and SDO is
high-impedance; while SEL is low SDO carries the byte going out, its most significant bit first, 0xFF in COMMAND
and ARGUMENTS (R185, R186). -/
def Obligations.BytesDeliverTheReply : Prop :=
  ∀ (b : Byte) (s : State), s.pins.resetLow = false →
    (s.port.phase = .deselected → s.port.sdo = none ∧ s.port.sdoBits = none ∧ exec (.byteReceived b) s = .next s) ∧
    (s.port.phase = .command ∨ s.port.phase = .arguments → s.port.sdo = some 0xFF) ∧
    (∀ p ∈ [((0x1A : Byte), 1), (0x41, 4), (0x42, 2), (0x43, 3), (0x53, 2)],
      (s.port.phase = .command → b = p.1 → exec (.byteReceived b) s = .next { s with
        port := { s.port with phase := .arguments, command := some b, arguments := [] } }) ∧
      (s.port.phase = .arguments → s.port.command = some p.1 → s.port.arguments.length + 1 < p.2 →
        exec (.byteReceived b) s = .next { s with
          port := { s.port with arguments := s.port.arguments ++ [b] } })) ∧
    (s.port.phase = .command →
      let last (code : Byte) (held : List Byte) := exec (.byteReceived b)
        { s with port := { s.port with phase := .arguments, command := some code, arguments := held } }
      (∀ p ∈ [((0x2B : Byte), Instr.start), (0x2C, .stop), (0x51, .take), (0x52, .status), (0x54, .roster)],
        b = p.1 → exec (.byteReceived b) s = exec p.2 s) ∧
      (knownCodes.contains b = false → exec (.byteReceived b) s = exec (.unknownCommand b) s) ∧
      last 0x1A [] = exec (.setup b) s ∧
      ∀ a o k : Byte, last 0x42 [k] = exec (.release (k ++ b)) s ∧ last 0x53 [k] = exec (.query (k ++ b)) s ∧
        last 0x43 [k, a] = exec (.renew (k ++ a) b) s ∧ last 0x41 [k, a, o] = exec (.acquire (k ++ a) o b) s) ∧
    (s.port.phase = .turnaround → s.port.sdo = some 0xFF ∧
      exec (.byteReceived b) s = .next { s with port := { s.port with phase := .reply } }) ∧
    (∀ x, s.port.phase = .reply → s.port.reply[s.port.clocked]? = some x →
      s.port.sdo = some x ∧
      exec (.byteReceived b) s = .next { s with port := { s.port with
        phase := if s.port.clocked + 1 = s.port.reply.length then .drain else .reply
        clocked := s.port.clocked + 1 } }) ∧
    (s.port.phase = .drain → s.port.sdo = some 0xFF ∧ exec (.byteReceived b) s = .next s) ∧
    (∀ x : Byte, s.port.sdo = some x → s.port.sdoBits = some
      [x.getLsbD 7, x.getLsbD 6, x.getLsbD 5, x.getLsbD 4, x.getLsbD 3, x.getLsbD 2, x.getLsbD 1, x.getLsbD 0])

/-- SEL_FALL (R185): a select period begins afresh with its first byte as the command byte, and SDO is driven, with
0xFF; a SEL that is low already does not fall. SEL_RISE (R180,
R182, R188, R189): the offered notice leaves when its reply was clocked out in full, the station-changed flag
clears when a STATUS was clocked out in full with the mark still set, both marks clear, and the port is
DESELECTED. -/
def Obligations.SelectPeriodBeginsAndEnds : Prop :=
  ({ Port.reset with phase := .command } : Port).sdo = some 0xFF ∧ Port.reset.sdo = none ∧
  ∀ s : State,
    (s.pins.selLow = true → exec .selFall s = .next s) ∧
    (s.pins = { resetLow := false, selLow := false } → exec .selFall s = .next { s with
      pins := { resetLow := false, selLow := true }, port := { Port.reset with phase := .command } }) ∧
    (s.pins = { resetLow := false, selLow := true } → exec .selRise s = .next { s with
      pins := { resetLow := false, selLow := false }
      port := Port.reset
      desk := { s.desk with notices :=
        if s.attention.offered = true ∧ s.port.command = some 0x51 ∧ s.port.phase = .drain then
          s.desk.notices.tail else s.desk.notices }
      attention := {
        changed := if s.attention.readMark = true ∧ s.port.command = some 0x52 ∧ s.port.phase = .drain then
          false else s.attention.changed
        readMark := false
        offered := false } })

/-- ATTN (R183): driven while a notice is held or the station-changed flag is set, released while RESET is held;
driven after the release of RESET, and left as it was by a TAKE or a STATUS cut short. -/
def Obligations.AttnShowsNoticesAndChange : Prop :=
  ∀ s : State,
    (s.attnDriven = true ↔
      s.pins.resetLow = false ∧ (s.desk.notices ≠ [] ∨ s.attention.changed = true)) ∧
    (∀ stn rate, ∃ t, exec (.resetReleased stn rate) s = .next t ∧ t.attnDriven = true) ∧
    (s.port.phase ≠ .drain → ∃ t, exec .selRise s = .next t ∧ t.attnDriven = s.attnDriven)

/-! ## Countdowns and the released run -/

/-- BEAT_COUNTDOWN_EXPIRY (R32, R33, R132): the countdown stays at zero and the BEAT candidate is set; a
member's BEAT is offered at once where the line stays released with nothing offered. -/
def Obligations.BeatExpirySetsTheBeat : Prop :=
  ∀ (s : State) (n : Nat), s.pins.resetLow = false → s.timer.countdown = .running (n + 1) →
    (¬ s.OpenGap → exec .beatCountdownExpiry s = .next
      { s with timer := { s.timer with countdown := .running 0 }, sel := { s.sel with beat := true } }) ∧
    (s.OpenGap → s.ctl.state.isMember = true → ∃ t, exec .beatCountdownExpiry s = .next t ∧
      t.timer = { s.timer with countdown := .running 0 } ∧
      t.sel = { s.sel with beat := true
                           onLine := some { kind := some .beat, frame := { sender := s.own, body := .beat } } } ∧
      t.liu.linePhase = .contend ∧ t.liu.transmitting = true ∧ t.replica = s.replica ∧ t.desk = s.desk ∧
      t.ctl = s.ctl)

/-- FOUND_WINDOW_EXPIRY. In JOINING (R63) the station founds, or joins afresh; with LINE standing released and
nothing offered the choice follows at once and offers the FOUND as composed, or the JOIN (R64, R132, R133). In
LOADING (R66, R89, R96) the load is abandoned; by the attempt count the station returns to JOINING with listed and
own-JOIN-applied kept, or goes on to LEAVING of kind FAILED. -/
def Obligations.FoundWindowExpires : Prop :=
  ∀ (s : State) (n : Nat), s.pins.resetLow = false → s.timer.window = .running n →
    (s.ctl.state = .joining → ¬ s.OpenGap → exec .foundWindowExpiry s = .next
      (if s.own ∈ s.ctl.preGroup then { s with
        timer := { s.timer with window := .stopped }
        sel := { s.sel with found := true } }
      else { s with
        timer := { s.timer with window := .stopped }
        ctl := { s.ctl with groupSeen := false, listed := false, ownJoinApplied := false }
        sel := { s.sel with join := true, joinCount := 0 } })) ∧
    (s.ctl.state = .joining → s.OpenGap → ∃ t, exec .foundWindowExpiry s = .next t ∧
      t.timer = { s.timer with window := .stopped } ∧ t.liu.linePhase = .contend ∧ t.liu.transmitting = true ∧
      t.replica = s.replica ∧ t.desk = s.desk ∧ t.xfer = s.xfer ∧ t.attention = s.attention ∧
      let found : Offer := { kind := some .found, frame := { sender := s.own, body := .found (composeFound s) } }
      (s.own ∈ s.ctl.preGroup → t.ctl = s.ctl ∧ t.sel = { s.sel with found := true, onLine := some found }) ∧
      (s.own ∉ s.ctl.preGroup →
        t.ctl = { s.ctl with groupSeen := false, listed := false, ownJoinApplied := false } ∧
        t.sel = { s.sel with
          join := true, joinCount := 0
          onLine := some (if s.sel.found then found
            else { kind := some .join, frame := { sender := s.own, body := .join } }) })) ∧
    (s.ctl.state = .loading → ∃ t, exec .foundWindowExpiry s = .next t ∧
      t.replica = Replica.empty ∧ t.xfer = { TransferUnit.reset with attempts := s.xfer.attempts } ∧
      t.sel.join = false ∧ t.desk = s.desk ∧
      t.attention = { s.attention with changed := true, readMark := false } ∧
      (s.xfer.attempts < 3 → t.ctl = { s.ctl with state := .joining, groupSeen := true, preGroup := [] } ∧
        t.timer.window = .running (1000 * 8000)) ∧
      (3 ≤ s.xfer.attempts → t.ctl.state = .leaving .failed ∧ t.sel.leave = true ∧ t.sel.leaveCount = 0 ∧
        t.timer.window = .stopped))

/-- IDLE_GAP (R143, R144): in HUNT the LIU moves to GAP, in step, and the yield flag goes with a blind gap's 24 cells
(R137, log entry 19). Outside the participating states nothing is offered (R132). A participant offers the frame
of the lowest class that stands, in the order of R133, composed from the state as it is (R132, R134); a request
only in SYNCED with the yield clear, after the pre-check, which turns away every head that its claim does not let
through until one fits or the queue is empty (R136, R165). The HEAD carries the state as it is (R76, R106), the FOUND
the pre-group list less the own number, at most three entries (R64, R107), the PART the image's slot at the cursor (R80,
R108), a request its own fields (R103, R104). An ACQUIRE is let through as it stands, a RELEASE with a claim for its key
WAITING or HELD, a RENEW with one HELD (R165). START_BIT_NOT_ACCEPTED (R145): the run to
0, the blind flag set, the LIU in HUNT, its driven cell over, and nothing else. So at an edge in a stretch of LINE, after
1..9 released cells or in the first cell after a passed window, whose last cell was released (R143, R144, R145); an edge
with no released cell before it is no start bit, and nothing but the sampler moves (log entry 29). That either event
leaves the sampler at a cell boundary is log entry 22, the model's choice. -/
def Obligations.GapOrEarlyStartBit : Prop :=
  (∀ s : State,
    let code (m : Mode) : BitVec 2 := match m with | .exclusive => 0 | .shared => 1
    let entries (q : List Station) : List Byte :=
      (List.range 4).map fun k => (q[k]?.map fun p => BitVec.ofNat 8 p.val).getD 0xFF
    (s.headStands = true ↔ s.ctl.state = .synced ∧ s.replica.joinQueue ≠ [] ∧ s.replica.transfer = none ∧
      s.sel.headBarred = false) ∧
    (∀ j q, s.replica.joinQueue = j :: q → ∃ (set : BitVec 32) (counts : BitVec 128),
      (∀ p : Station, (set.getLsbD p.val = true ↔ ∃ m ∈ s.replica.roster, m.station = p) ∧
        (counts.extractLsb' (4 * p.val) 4).toNat = (silenceOf p s.replica.roster).getD 0 % 16) ∧
      composeHead s =
        { joiner := BitVec.ofNat 8 j.val, seq := s.replica.seq + 1
          partCount := BitVec.ofNat 8 (s.replica.table.countP Option.isSome), rosterSet := set, silences := counts
          queueCount := BitVec.ofNat 8 (q.length + 1), entries := entries (j :: q) }) ∧
    (let q := (s.ctl.preGroup.filter fun p => decide (p ≠ s.own)).take 3
     composeFound s =
       { joiner := BitVec.ofNat 8 s.own.val, seq := 0, partCount := 0, rosterSet := BitVec.ofNat 32 (2 ^ s.own.val)
         silences := 0, queueCount := BitVec.ofNat 8 q.length, entries := entries q }) ∧
    (∀ b, partOffer s = some b ↔ s.ctl.state.isMember = true ∧ ∃ x image c slot, s.replica.transfer = some x ∧
      x.sender = s.own ∧ s.xfer.image = some image ∧ s.xfer.cursor = some c ∧ image[c]? = some (some slot) ∧ b =
        { index := BitVec.ofNat 8 (x.applied + 1), slot := BitVec.ofNat 8 c, key := slot.key, mode := code slot.mode
          holders := slot.holders.map fun h =>
            { station := h.station, unused := 0, remaining := BitVec.ofNat 8 h.remaining }
          waiters := slot.waiters.map fun w =>
            { station := w.station, wanted := code w.wanted, unused := 0, term := BitVec.ofNat 8 w.term } }) ∧
    (∀ r, requestBody r = match r.kind with
      | .acquire => .acquire r.key (BitVec.ofBool r.wait ++ (0 : BitVec 5) ++ code r.mode) r.term
      | .release => .release r.key
      | .renew => .renew r.key r.term) ∧
    (∀ r, s.desk.fits r = true ↔ r.kind = .acquire ∨ ∃ c, s.desk.claimFor r.key = some c ∧
      (c.state = .held ∨ (r.kind = .release ∧ c.state = .waiting))) ∧
    (∀ key, (s.desk.claimFor key = none ↔ ∀ c ∈ s.desk.claims, c.key ≠ key) ∧
      ∀ c, s.desk.claimFor key = some c → c ∈ s.desk.claims ∧ c.key = key)) ∧
  ∀ s : State, s.pins.resetLow = false →
    (s.liu.linePhase = .hunt → s.sel.brokenEnds = [] →
      s.ctl.state = .unconfigured ∨ s.ctl.state = .idle → exec .idleGap s = .next { s with
        liu := { s.liu with linePhase := .gap, releasedRun := if s.liu.blind then 24 else 12, blind := false
                            sampler := Sampler.boundary false }
        sel := { s.sel with yielding := s.sel.yielding && !s.liu.blind } }) ∧
    (s.liu.linePhase = .hunt → s.sel.brokenEnds = [] → s.sel.onLine = none → s.ctl.state.participating = true →
      ∃ t, exec .idleGap s = .next t ∧
      t.replica = s.replica ∧ t.ctl = s.ctl ∧ t.timer = s.timer ∧ t.xfer = s.xfer ∧ t.liu.blind = false ∧
      let offers (k : CandKind) (b : Body) : Prop := t.desk = s.desk ∧ t.liu.linePhase = .contend ∧
        t.liu.transmitting = true ∧ t.sel.onLine = some { kind := some k, frame := { sender := s.own, body := b } }
      let noBeat : Prop := ¬ (s.ctl.state.isMember = true ∧ (s.sel.beat = true ∨ s.sel.present = true))
      let nothing : Prop := t.liu.linePhase = .gap ∧ t.sel.onLine = none
      (s.ctl.state.isMember = true → s.sel.beat = true → offers .beat .beat) ∧
      (s.ctl.state.isMember = true → s.sel.beat = false → s.sel.present = true → offers .present .present) ∧
      (∀ b, noBeat → partOffer s = some b → offers (.part b.index) (.part b)) ∧
      (noBeat → partOffer s = none → s.headStands = true → offers .head (.head (composeHead s))) ∧
      (s.ctl.state = .joining → s.sel.found = true → offers .found (.found (composeFound s))) ∧
      (s.ctl.state.isLeaving = true → noBeat → partOffer s = none → s.sel.leave = true → offers .leave .leave) ∧
      (s.ctl.state = .synced → noBeat → partOffer s = none → s.headStands = false →
        (s.desk.requests = [] ∨ (s.sel.yielding = true ∧ s.liu.blind = false) → t.desk = s.desk ∧ nothing) ∧
        (∀ gone rest, s.desk.requests = gone ++ rest → (∀ r ∈ gone, s.desk.fits r = false) →
          s.sel.yielding = false ∨ s.liu.blind = true →
          (rest = [] → t.desk = s.desk.turnedAway gone [] ∧ nothing) ∧
          (∀ r rs, rest = r :: rs → s.desk.fits r = true →
            t.desk = s.desk.turnedAway gone rest ∧ t.liu.linePhase = .contend ∧ t.liu.transmitting = true ∧
            t.sel.requestCount = (if gone = [] then s.sel.requestCount else 0) ∧ t.sel.onLine = some
              { kind := some (.request r.ticket), frame := { sender := s.own, body := requestBody r } }))) ∧
      (s.ctl.state = .joining ∧ s.sel.found = false ∨ s.ctl.state = .loading →
        (s.sel.join = true → offers .join .join) ∧ (s.sel.join = false → t.desk = s.desk ∧ nothing))) ∧
    (∀ run, s.ctl.state ≠ .halted → (s.liu.linePhase = .hunt ∨ s.liu.linePhase = .gap) → 1 ≤ run → run ≤ 9 →
      exec (.startBitNotAccepted run) s = .next
        { s with liu := { s.liu with linePhase := .hunt, releasedRun := 0, blind := true, quiet := false
                                     sampler := Sampler.boundary true } }) ∧
    (s.ctl.state ≠ .halted → (s.liu.linePhase = .hunt ∨ s.liu.linePhase = .gap) →
      s.liu.sampler = Sampler.boundary false → s.liu.releasedRun < 10 →
      let edge : RawFrame := { looks := [true], within := Within.nothing }
      let began : Sampler := { phase := 1, seen := true, edge := true, samples := [] }
      ∀ c ∈ [Instr.frameObjected edge, .earlyBreak edge, .streak edge],
        (0 < s.liu.releasedRun ∨ s.liu.quiet = true → exec c s = .next { s with
          liu := { s.liu with
            linePhase := .hunt, releasedRun := 0, blind := true, quiet := false, sampler := began } }) ∧
        (s.liu.releasedRun = 0 → s.liu.quiet = false → exec c s = .next { s with
          liu := { s.liu with sampler := began } }))

/-- YIELD_RUN in GAP (R132, R136, R137): the yield flag clears and a choice follows. The lowest candidate of the classes
0 to 3 is offered; with none the pre-check turns away every head request that its claim does not let through (R165),
and the first that fits, be it an ACQUIRE, a RELEASE or a RENEW, is offered with its own fields (R102, R103). Of the
classes 0 to 3 stand BEAT and PRESENT at a member, PART, HEAD, FOUND in JOINING and LEAVE in LEAVING, the lowest header
first (R133). -/
def Obligations.YieldRunOffersTheRequest : Prop :=
  (∀ s : State, firstClasses s =
    if s.sel.beat = true ∧ s.ctl.state.isMember = true then some (.beat, .beat)
    else if s.sel.present = true ∧ s.ctl.state.isMember = true then some (.present, .present)
    else match partOffer s with
      | some b => some (.part b.index, .part b)
      | none =>
        if s.headStands = true then some (.head, .head (composeHead s))
        else if s.sel.found = true ∧ s.ctl.state = .joining then some (.found, .found (composeFound s))
        else if s.sel.leave = true ∧ s.ctl.state.isLeaving = true then some (.leave, .leave)
        else none) ∧
  (∀ st : StationState,
    (st.isMember = true ↔ st = .synced ∨ st = .leaving .member) ∧ (st.isLeaving = true ↔ ∃ k, st = .leaving k) ∧
    (st.participating = true ↔ st = .joining ∨ st = .loading ∨ st = .synced ∨ ∃ k, st = .leaving k)) ∧
  ∀ s : State, s.pins.resetLow = false → s.OpenGap → s.ctl.state = .synced → s.sel.yielding = true → ∃ t,
    exec .yieldRun s = .next t ∧ t.liu.releasedRun = 24 ∧ t.replica = s.replica ∧ t.ctl = s.ctl ∧
    t.timer = s.timer ∧ t.xfer = s.xfer ∧ t.attention = s.attention ∧
    let offers (k : CandKind) (b : Body) : Prop := t.liu.linePhase = .contend ∧ t.liu.transmitting = true ∧
      t.sel.onLine = some { kind := some k, frame := { sender := s.own, body := b } }
    (∀ k b, firstClasses s = some (k, b) → offers k b ∧ t.desk = s.desk ∧
      t.sel = { s.sel with yielding := false, onLine := t.sel.onLine }) ∧
    (firstClasses s = none → ∀ gone rest, s.desk.requests = gone ++ rest → (∀ r ∈ gone, s.desk.fits r = false) →
      (∀ r rs, rest = r :: rs → s.desk.fits r = true) →
      t.desk = s.desk.turnedAway gone rest ∧
      t.sel = { s.sel with
        yielding := false, onLine := t.sel.onLine
        requestCount := if gone = [] then s.sel.requestCount else 0
        brokenEnds := if gone = [] then s.sel.brokenEnds
          else s.sel.brokenEnds.map (BrokenEnd.settle CandKind.isRequest) } ∧
      (rest = [] → t.liu.linePhase = .gap ∧ t.sel.onLine = none) ∧
      (∀ r rs, rest = r :: rs → offers (.request r.ticket)
        (match r.kind with
          | .acquire => .acquire r.key (modeWaitByte r.mode r.wait) r.term
          | .release => .release r.key
          | .renew => .renew r.key r.term)))

/-! ## Frames applied by a member -/

/-- ACQUIRE_FRAME at a member (R9..R13, R42, R124). Its mode is code 0 EXCLUSIVE or 1 SHARED, and its wait flag the top
position of the same character (R104). -/
def Obligations.AcquireFrameAtAMember : Prop :=
  (∀ mw : Byte, (modeOf (modeBits mw) = some .exclusive ↔ mw.toNat % 4 = 0) ∧
    (modeOf (modeBits mw) = some .shared ↔ mw.toNat % 4 = 1) ∧
    (unusedClear mw = true ↔ mw.toNat / 4 % 32 = 0) ∧ (waitBit mw = true ↔ 128 ≤ mw.toNat)) ∧
  ∀ (s : State) (h : Hearing) (p : Station) (key : Key) (mw term : Byte) (mode : Mode), s.MemberHears h p →
    key ≠ 0 → term ≠ 0 → modeOf (modeBits mw) = some mode → unusedClear mw = true → ∃ t,
    exec (.acquireFrame p key mw term h) s = .next t ∧
    t.replica = { s.replica with
      seq := s.replica.seq + 1
      roster := setSilence p 0 s.replica.roster
      table := (applyAcquire p key mode (waitBit mw) term.toNat s.replica.table).table } ∧
    t.desk = s.desk ∧ t.sel.streak = 0 ∧ t.sel.yielding = false ∧ s.ReplicaOnly (.acquire key mw term) t

/-- RELEASE_FRAME (R14..R16, R20, R42, R124) and RENEW_FRAME (R17, R42, R124) at a member. -/
def Obligations.ReleaseAndRenewFramesAtAMember : Prop :=
  ∀ (s : State) (h : Hearing) (p : Station) (key : Key) (term : Byte), s.MemberHears h p → key ≠ 0 →
    (∃ t, exec (.releaseFrame p key h) s = .next t ∧
      t.replica = { s.replica with
        seq := s.replica.seq + 1
        roster := setSilence p 0 s.replica.roster
        table := (applyRelease s.own (s.replica.seq + 1) p key s.replica.table).table } ∧
      t.desk = s.desk.takeReports (applyRelease s.own (s.replica.seq + 1) p key s.replica.table).reports ∧
      t.sel.streak = 0 ∧ t.sel.yielding = false ∧ s.ReplicaOnly (.release key) t) ∧
    (term ≠ 0 → ∃ t, exec (.renewFrame p key term h) s = .next t ∧
      t.replica = { s.replica with
        seq := s.replica.seq + 1
        roster := setSilence p 0 s.replica.roster
        table := (applyRenew p key term.toNat s.replica.table).table } ∧
      t.desk = s.desk ∧ t.sel.streak = 0 ∧ t.sel.yielding = false ∧ s.ReplicaOnly (.renew key term) t)

/-- PRESENT at a member (R42, R44, R124): the sender's silence count and the sequence number, nothing else of
the replicated state. The own PRESENT, carried, clears the PRESENT flag and leaves the yield flag (R43, R137). A member
whose own header loses to the PRESENT's hears it as a receiver: its candidate and count stand and no objection is
drawn (R126, R134, R147), but a request lost so in LEAVING completes with ABORTED (R129, R170). After the passed window
the LIU hunts with the run at 0 after a released cell (R143), in step where it accepted the start bit (R144). -/
def Obligations.PresentAtAMember : Prop :=
  ∀ (s : State) (h : Hearing) (p : Station), s.ctl.state.isMember = true →
    let r : Replica := { s.replica with seq := s.replica.seq + 1, roster := setSilence p 0 s.replica.roster }
    (s.MemberHears h p ∨ p = s.own ∧ s.Carries h .present → ∃ t,
      exec (.present p h) s = .next t ∧ t.replica = r ∧ t.desk = s.desk ∧ t.sel.streak = 0 ∧ t.sel.onLine = none ∧
      t.liu.linePhase = .hunt ∧ t.liu.releasedRun = 0 ∧ t.liu.quiet = true ∧
      (p ≠ s.own → t.sel.yielding = false ∧ t.liu.blind = false ∧ s.ReplicaOnly .present t) ∧
      (p = s.own → t.liu.blind = s.liu.blind ∧ t.sel.present = false ∧ t.sel.yielding = s.sel.yielding ∧
        t.sel.requestCount = s.sel.requestCount ∧
        t.xfer = (if s.replica.transfer = none then { s.xfer with image := none, cursor := none } else s.xfer) ∧
        t.ctl = s.ctl ∧ t.timer = s.timer ∧ t.attention = s.attention ∧ t.port = s.port ∧ t.pins = s.pins ∧
        t.pending = s.pending)) ∧
    (∀ k, s.Loses h { sender := p, body := .present } k → ∃ t, exec (.present p h) s = .next t ∧ t.replica = r ∧
      t.sel = { s.sel with
        requestCount := t.sel.requestCount
        partCount := if s.replica.transfer = none then 0 else s.sel.partCount
        headCount := if s.headStands then s.sel.headCount else 0
        streak := 0, yielding := false, onLine := none
        brokenEnds := t.sel.brokenEnds
        lastEnd := some { sent := .lost, ending := .applied, raised := .nothing, clean := true
                          applied := some { sender := p, body := .present } } } ∧
      t.xfer = (if s.replica.transfer = none then { s.xfer with image := none, cursor := none } else s.xfer) ∧
      t.liu.linePhase = .hunt ∧ t.ctl = s.ctl ∧ t.timer = s.timer ∧ t.attention = s.attention ∧ t.port = s.port ∧
      t.pins = s.pins ∧ t.pending = s.pending ∧
      (s.ctl.state = .synced ∨ (∀ q, k ≠ some (.request q)) →
        t.desk = s.desk ∧ t.sel.requestCount = s.sel.requestCount ∧
        t.sel.brokenEnds = s.sel.brokenEnds.map (BrokenEnd.settle (withdraws .present t))) ∧
      (∀ q qs, k = some (.request q.ticket) → s.ctl.state = .leaving .member → s.desk.requests = q :: qs →
        t.desk = { s.desk with requests := qs }.conclude q .aborted none none ∧ t.sel.requestCount = 0 ∧
        t.sel.brokenEnds = s.sel.brokenEnds.map
          (BrokenEnd.settle fun c => withdraws .present t c || c.isRequest)))

/-- JOIN at a member that does not refuse it (R60, R94, R124): a new joiner goes to the queue's end; the
active transfer's joiner restarts it; a queued joiner changes nothing. -/
def Obligations.JoinAtAMember : Prop :=
  ∀ (s : State) (h : Hearing) (j : Station), s.MemberHears h j → inRoster j s.replica.roster = false →
    (j ∈ s.replica.joinQueue ∨ s.replica.joinQueue.length < 4) → ∃ t,
    exec (.join j h) s = .next t ∧
    t.replica = { s.replica with
      seq := s.replica.seq + 1
      joinQueue := if j ∈ s.replica.joinQueue then s.replica.joinQueue else s.replica.joinQueue ++ [j]
      transfer := if j ∈ s.replica.joinQueue ∧ (∃ x, s.replica.transfer = some x ∧ x.joiner = j) then none
                  else s.replica.transfer } ∧
    t.desk = s.desk ∧ t.sel.streak = 0 ∧ t.sel.yielding = false ∧ s.ReplicaOnly .join t

/-- LEAVE of another station at a member (R8, R20, R58, R68, R94, R124): a sender in the roster is removed and purged, one
in the join queue leaves it, one that stands in both (the corner of log entry 30) does both, and an active transfer that
it sends or that is sent to it as a queued joiner is abandoned. -/
def Obligations.LeaveAtAMember : Prop :=
  ∀ (s : State) (h : Hearing) (p : Station), s.MemberHears h p → ∃ t,
    exec (.leave p h) s = .next t ∧ t.replica.seq = s.replica.seq + 1 ∧
    (inRoster p s.replica.roster = true →
      t.replica.roster = dropMember p s.replica.roster ∧
      t.replica.table = (purge s.own (s.replica.seq + 1) p s.replica.table).1 ∧
      t.desk = s.desk.takeReports (purge s.own (s.replica.seq + 1) p s.replica.table).2) ∧
    (inRoster p s.replica.roster = false →
      t.replica.roster = s.replica.roster ∧ t.replica.table = s.replica.table ∧ t.desk = s.desk) ∧
    t.replica.joinQueue = s.replica.joinQueue.filter (· ≠ p) ∧
    t.replica.transfer = (if ∃ x, s.replica.transfer = some x ∧
        ((inRoster p s.replica.roster = true ∧ x.sender = p) ∨ (p ∈ s.replica.joinQueue ∧ x.joiner = p)) then none
      else s.replica.transfer) ∧
    t.sel.streak = 0 ∧ t.sel.yielding = false ∧ s.ReplicaOnly .leave t

/-- HEAD at a member (R76, R78, R79, R83, R127, R124): the record becomes ACTIVE, or with no part announced the joiner
is a member at once, and the own HEAD candidate is withdrawn with its count. At the sender the table becomes the
image and the cursor its lowest occupied index, until the transfer completes. -/
def Obligations.HeadAtAMember : Prop :=
  ∀ (s : State) (h : Hearing) (p : Station) (b : HeadBody),
    malformed s { sender := p, body := .head b } = false → s.ctl.state.isMember = true →
    (s.MemberHears h p ∨ p = s.own ∧ s.Carries h (.head b)) → ∃ t j q,
    exec (.head p b h) s = .next t ∧ s.replica.joinQueue = j :: q ∧ b.joiner.toNat = j.val ∧
    t.replica = (if b.partCount = 0 then
        { s.replica with
          seq := s.replica.seq + 1, joinQueue := q, transfer := none
          roster := addMember j (setSilence p 0 s.replica.roster) }
      else
        { s.replica with
          seq := s.replica.seq + 1, roster := setSilence p 0 s.replica.roster
          transfer := some { joiner := j, sender := p, total := b.partCount.toNat, applied := 0, idle := 0 } }) ∧
    t.desk = s.desk ∧ t.sel.streak = 0 ∧ t.sel.headCount = 0 ∧ t.sel.onLine = none ∧ t.ctl = s.ctl ∧
    (p ≠ s.own → t.sel.yielding = false ∧ s.ReplicaOnly (.head b) t) ∧
    (p = s.own → t.sel.partCount = 0 ∧ t.sel.present = false ∧ t.sel.yielding = s.sel.yielding ∧
      t.xfer = (if b.partCount = 0 then { s.xfer with image := none, cursor := none }
        else { s.xfer with image := some s.replica.table, cursor := nextOccupied 0 s.replica.table }))

/-- PART at a member (R81, R83, R127, R124). At the sender the cursor moves to the next occupied slot of the image, and
the next part's count starts; after the last part image and cursor are clear (R79). The next occupied slot is the
lowest-indexed one not below the index given (R79, R81). -/
def Obligations.PartAtAMember : Prop :=
  (∀ (low : Nat) (t : Table),
    (∀ i, nextOccupied low t = some i ↔
      low ≤ i ∧ (∃ x, t[i]? = some (some x)) ∧ ∀ j < i, low ≤ j → t[j]? = some none) ∧
    (nextOccupied low t = none ↔ ∀ (i : Nat) (x : Slot), low ≤ i → t[i]? ≠ some (some x))) ∧
  ∀ (s : State) (h : Hearing) (p : Station) (b : PartBody) (x : Transfer),
    malformed s { sender := p, body := .part b } = false → s.ctl.state.isMember = true →
    s.replica.transfer = some x →
    (s.MemberHears h p ∨ p = s.own ∧ s.Carries h (.part b)) → ∃ t,
    exec (.part p b h) s = .next t ∧
    t.replica = (if x.applied + 1 = x.total then
        { s.replica with
          seq := s.replica.seq + 1, joinQueue := s.replica.joinQueue.tail, transfer := none
          roster := addMember x.joiner (setSilence p 0 s.replica.roster) }
      else
        { s.replica with
          seq := s.replica.seq + 1, roster := setSilence p 0 s.replica.roster
          transfer := some { x with applied := x.applied + 1, idle := 0 } }) ∧
    t.desk = s.desk ∧ t.sel.streak = 0 ∧ t.sel.onLine = none ∧ t.ctl = s.ctl ∧
    (p ≠ s.own → t.sel.yielding = false ∧ s.ReplicaOnly (.part b) t) ∧
    (p = s.own → t.sel.partCount = 0 ∧ t.sel.present = false ∧ t.sel.yielding = s.sel.yielding ∧
      (x.applied + 1 = x.total → t.xfer = { s.xfer with image := none, cursor := none }) ∧
      (∀ image c, x.applied + 1 ≠ x.total → s.xfer.image = some image → s.xfer.cursor = some c →
        t.xfer = { s.xfer with cursor := nextOccupied (c + 1) image }))

/-- A BEAT at a member, another station's or the own one carried, under each of the names its consequences have (log
entry 4), when the own station does not lapse in it (R32, R33, R35, R37, R39, R41, R43, R128, R137; what its stages
do is TermAndPresenceStages'). Stage 4 counts a transfer's idle beats, and abandons it at the fourth (R41). A transfer
that it ends takes the image, the cursor and the PART with it (R94, R95). -/
def Obligations.BeatAtAMember : Prop :=
  (∀ r : Replica, idleStage r = match r.transfer with
    | none => r
    | some x => { r with transfer := if 3 ≤ x.idle then none else some { x with idle := x.idle + 1 } }) ∧
  ∀ (s : State) (h : Hearing) (p : Station) (c : Instr), s.ctl.state.isMember = true →
    (s.MemberHears h p ∨ p = s.own ∧ s.Carries h .beat) →
    c ∈ [Instr.beat p h, .expired p h, .lapse p h, .transferIdleTimeout p h] →
    let q := s.replica.seq + 1
    let r := { s.replica with seq := q, roster := setSilence p 0 s.replica.roster }
    let two := countDown s.own q r.table
    let three := presenceStage s.own true q p r.roster { r with table := two.1 }
    let own := silenceOf s.own three.replica.roster
    three.ownGone = false → ∃ t, exec c s = .next t ∧
    t.replica = idleStage three.replica ∧
    t.desk = s.desk.takeReports (two.2 ++ three.reports) ∧
    t.timer = { s.timer with countdown := .running (s.timer.interval * 8000) } ∧
    t.xfer = (if t.replica.transfer = none then { s.xfer with image := none, cursor := none } else s.xfer) ∧
    t.sel = { s.sel with
      beat := false
      present := decide (p ≠ s.own) && (s.sel.present || own == some 6 || own == some 7)
      partCount := if t.replica.transfer = none then 0 else s.sel.partCount
      headCount := if t.headStands then s.sel.headCount else 0
      headBarred := false, streak := 0
      yielding := decide (p = s.own) && s.sel.yielding
      onLine := none
      brokenEnds := s.sel.brokenEnds.map (BrokenEnd.settle (withdraws .beat t))
      lastEnd := t.sel.lastEnd } ∧
    t.ctl = s.ctl ∧ t.attention = s.attention ∧ t.port = s.port ∧ t.pins = s.pins ∧ t.pending = s.pending

/-- LAPSE of the own station (R28, R39, R40, R72, R73): its count at 7 goes to 8 in the BEAT, and it exits to IDLE
with cause LAPSED, its claims ended with the BEAT's number behind the BEAT's own notices. -/
def Obligations.OwnLapseExits : Prop :=
  ∀ (s : State) (h : Hearing) (p : Station), s.MemberHears h p →
    let q := s.replica.seq + 1
    let r := { s.replica with seq := q, roster := setSilence p 0 s.replica.roster }
    let two := countDown s.own q r.table
    let three := presenceStage s.own true q p r.roster { r with table := two.1 }
    (∃ m ∈ s.replica.roster, m.station = s.own ∧ 7 ≤ m.silence) → ∃ t, exec (.lapse p h) s = .next t ∧
    t.ctl.state = .idle ∧ t.ctl.cause = .lapsed ∧ t.replica = Replica.empty ∧
    t.desk = (s.desk.takeReports (two.2 ++ three.reports)).exitReport q ∧
    t.timer = { s.timer with countdown := .stopped, window := .stopped } ∧
    t.attention = { s.attention with changed := true, readMark := false } ∧ t.port = s.port ∧ t.pins = s.pins

/-- Stages 2 and 3 of a BEAT. The term countdown (R21, R37): every holder one beat less, slot by slot; those left with
none go in list order, with a report for the own station, and only then is the slot promoted. The presence stage (R39,
R40): every member but the sender one silent beat more, in ascending number; those that reach 8 leave the roster and
are purged, and a transfer of theirs is abandoned, but for a replay, in which the record stands (R92). The roster is
ordered and a set (R57): a count is set, a member dropped or added, with count 0, and the others stand (R42). And EXPIRED and GRANTED (R20, R169, R178): a BEAT in which the own lease of the
only occupied slot runs out frees the slot and ends the claim; one in which the lease ahead of the own waiter runs out
makes the own station the holder, for its term, and its claim HELD; each notice is paid for by the claim's
reservation. -/
def Obligations.TermAndPresenceStages : Prop :=
  (∀ (own : Station) (q : Seq) (t : Table) (slot : Slot),
    let one := countDownSlot own q slot
    let down := slot.holders.map fun h => { h with remaining := h.remaining - 1 }
    let ended := down.filter fun h => decide (h.remaining = 0)
    let after := promote own q { slot with holders := down.filter fun h => decide (h.remaining ≠ 0) }
    countDown own q t = (t.map fun o => o.bind fun s => (countDownSlot own q s).1,
      (t.filterMap id).flatMap fun s => (countDownSlot own q s).2) ∧
    (ended = [] → one = (some { slot with holders := down }, [])) ∧
    (ended ≠ [] → one = (after.1, ((ended.filter fun h => decide (h.station = own)).map fun _ =>
      { origin := .table, outcome := .expired, key := slot.key, mode := none, seq := q }) ++ after.2))) ∧
  (∀ (p : Station) (n : Nat) (l : List Member),
    setSilence p n l = (l.map fun m => if m.station = p then { m with silence := n } else m) ∧
    dropMember p l = (l.filter fun m => decide (m.station ≠ p)) ∧
    (inRoster p l = true ↔ ∃ m ∈ l, m.station = p) ∧
    (RosterOrdered l → RosterOrdered (addMember p l) ∧
      (∀ m, m ∈ addMember p l ↔ m = { station := p, silence := 0 } ∨ (m ∈ l ∧ m.station ≠ p)) ∧
      ∀ m ∈ l, silenceOf m.station l = some m.silence)) ∧
  (∀ (own p : Station) (live : Bool) (q : Seq) (r : Replica), RosterOrdered r.roster →
    let e := presenceStage own live q p r.roster r
    let gone := (r.roster.filter fun m => decide (m.station ≠ p ∧ 7 ≤ m.silence)).map (·.station)
    e.replica.roster = ((r.roster.filter fun m => decide (m.station = p ∨ m.silence < 7)).map fun m =>
      if m.station = p then m else { m with silence := m.silence + 1 }) ∧
    (e.replica.table, e.reports) = gone.foldl
      (fun a k => ((purge own q k a.1).1, a.2 ++ (purge own q k a.1).2)) (r.table, []) ∧
    e.replica.joinQueue = r.joinQueue ∧ e.replica.seq = r.seq ∧
    e.replica.transfer = (if live = true ∧ ∃ x, r.transfer = some x ∧ x.sender ∈ gone then none else r.transfer) ∧
    (e.ownGone = true ↔ own ∈ gone)) ∧
  (∀ (s : State) (h : Hearing) (p : Station) (key : Key) (q : Ticket), s.MemberHears h p →
      s.replica.roster = [{ station := p, silence := 0 }, { station := s.own, silence := 0 }] →
      s.replica.table = some { key := key, mode := .exclusive, holders := [{ station := s.own, remaining := 1 }],
                               waiters := [] } :: List.replicate 63 none →
      s.desk.claims = [{ key := key, ticket := q, state := .held, mode := .exclusive }] → ∃ t,
      exec (.expired p h) s = .next t ∧ t.replica.table = List.replicate 64 none ∧ t.desk.claims = [] ∧
      t.desk.notices = s.desk.notices ++
        [{ kind := .expired, ticket := q, key := key, mode := none, seq := some (s.replica.seq + 1) }] ∧
      t.desk.reservation = s.desk.reservation - 1 ∧ t.desk.requests = s.desk.requests) ∧
  (∀ (s : State) (h : Hearing) (p : Station) (key : Key) (q : Ticket) (mode : Mode) (term : Nat), s.MemberHears h p →
      s.replica.roster = [{ station := p, silence := 0 }, { station := s.own, silence := 0 }] →
      s.replica.table = some { key := key, mode := .exclusive, holders := [{ station := p, remaining := 1 }],
                               waiters := [{ station := s.own, wanted := mode, term := term }] } ::
                        List.replicate 63 none →
      s.desk.claims = [{ key := key, ticket := q, state := .waiting, mode := mode }] → ∃ t,
      exec (.expired p h) s = .next t ∧
      t.replica.table = some { key := key, mode := mode, holders := [{ station := s.own, remaining := term }],
                               waiters := [] } :: List.replicate 63 none ∧
      t.desk.claims = [{ key := key, ticket := q, state := .held, mode := mode }] ∧
      t.desk.notices = s.desk.notices ++
        [{ kind := .granted, ticket := q, key := key, mode := some mode, seq := some (s.replica.seq + 1) }] ∧
      t.desk.reservation = s.desk.reservation - 1 ∧ t.desk.requests = s.desk.requests)

/-- TRANSFER_IDLE_TIMEOUT (R41, R94, R95): the fourth BEAT with no part abandons the transfer. -/
def Obligations.FourthIdleBeatAbandons : Prop :=
  ∀ (s : State) (h : Hearing) (p : Station) (x : Transfer), s.MemberHears h p →
    s.replica.transfer = some x → x.idle = 3 → (∀ m ∈ s.replica.roster, m.silence < 7) → ∃ t,
    exec (.transferIdleTimeout p h) s = .next t ∧ t.replica.transfer = none ∧
    t.replica.joinQueue = s.replica.joinQueue ∧ t.xfer.image = none ∧ t.xfer.cursor = none ∧
    t.sel.partCount = 0 ∧ t.ctl = s.ctl

/-! ## Own frames -/

/-- The own ACQUIRE, RELEASE or RENEW, carried and applied in SYNCED, or in LEAVING of kind MEMBER where a STOP met
it on the line (R10..R17, R19, R129, R137, R170): the head request completes with its outcome, and the yield flag is
set. Completing, in every way a request can (R166, R167, R168, R170): the DONE notice, the claim and the
reservation. -/
def Obligations.OwnRequestCompletes : Prop :=
  (∀ (s : State) (h : Hearing) (key : Key) (mw term : Byte) (mode : Mode) (r : Request) (rs : List Request)
    (c : Instr) (b : Body) (a : Answer),
    s.ctl.state.isMember = true → s.desk.requests = r :: rs → key ≠ 0 → term ≠ 0 →
    modeOf (modeBits mw) = some mode → unusedClear mw = true →
    let q := s.replica.seq + 1
    (c, b, a) ∈
      [(Instr.acquireFrame s.own key mw term h, Body.acquire key mw term,
        applyAcquire s.own key mode (waitBit mw) term.toNat s.replica.table),
       (.releaseFrame s.own key h, .release key, applyRelease s.own q s.own key s.replica.table),
       (.renewFrame s.own key term h, .renew key term, applyRenew s.own key term.toNat s.replica.table)] →
    s.Carries h b → ∃ t, exec c s = .next t ∧
    t.replica = { s.replica with
      seq := q, roster := setSilence s.own 0 s.replica.roster, table := a.table } ∧
    t.desk = ({ s.desk with requests := rs }.conclude r a.outcome a.mode (some q)).takeReports a.reports ∧
    t.sel.onLine = none ∧ t.sel.yielding = true ∧ t.sel.requestCount = 0 ∧ t.sel.present = false ∧
    t.sel.streak = 0 ∧ t.ctl = s.ctl ∧ t.timer = s.timer ∧ t.attention = s.attention ∧ t.port = s.port) ∧
  (∀ (d : Desk) (r : Request) (o : Outcome) (mode : Option Mode) (q : Option Seq), completes r.kind o = true →
    let e := d.conclude r o mode q
    let gone := d.claims.filter (fun c => decide (c.key ≠ r.key))
    let now (st : ClaimState) := d.claims.map fun c => if c.key = r.key then { c with state := st } else c
    e.requests = d.requests ∧ e.nextTicket = d.nextTicket ∧
    e.notices = d.notices ++ [{ kind := .done o, ticket := r.ticket, key := r.key, mode := mode, seq := q }] ∧
    (r.kind = .acquire →
      (o = .granted → e.claims = now .held ∧ e.reservation = d.reservation - 2) ∧
      (o = .queued → e.claims = now .waiting ∧ e.reservation = d.reservation - 1) ∧
      (o ≠ .granted → o ≠ .queued → e.claims = gone ∧ e.reservation = d.reservation - 3)) ∧
    (r.kind = .release →
      (o = .released ∨ o = .cancelled → e.claims = gone ∧
        (∀ c, d.claimFor r.key = some c → e.reservation = d.reservation - 1 -
          (match c.state with | .pending => 0 | .waiting => 2 | .held => 1))) ∧
      (o ≠ .released → o ≠ .cancelled → e.claims = d.claims ∧ e.reservation = d.reservation - 1)) ∧
    (r.kind = .renew → e.claims = d.claims ∧ e.reservation = d.reservation - 1))

/-- The own LEAVE, applied (R28, R68, R69, R73, R171): of a leaving member, exit to IDLE with cause LEFT, no
replicated state, the claims ended with the LEAVE's number; of kind WITHDRAWN, exit with cause LEFT, and of kind
FAILED with cause JOIN_FAILED, the exit report with the number as it stood. In those two kinds no other frame has an
effect (R55, R117): one of another station, of any class and under each of its names (log entry 4), or an own one that
went on the line before the STOP, is received and applied, and moves nothing but the LIU and what every frame end moves at the Offer Selector.
-/
def Obligations.OwnLeaveExits : Prop :=
  (∀ (s : State) (h : Hearing), s.Carries h .leave →
    (s.ctl.state = .leaving .member → inRoster s.own s.replica.roster = true →
      let q := s.replica.seq + 1
      ∃ t, exec (.leave s.own h) s = .next t ∧ t.ctl.state = .idle ∧ t.ctl.cause = .left ∧
      t.replica = Replica.empty ∧
      t.desk = (s.desk.takeReports (purge s.own q s.own s.replica.table).2).exitReport q ∧
      t.timer = { s.timer with countdown := .stopped, window := .stopped } ∧ t.sel.leave = false ∧
      t.attention = { s.attention with changed := true, readMark := false }) ∧
    (∀ kind cause, (kind, cause) ∈ [(LeaveKind.withdrawn, ExitCause.left), (.failed, .joinFailed)] →
      s.ctl.state = .leaving kind → ∃ t, exec (.leave s.own h) s = .next t ∧ t.ctl.state = .idle ∧
      t.ctl.cause = cause ∧ t.replica = Replica.empty ∧ t.xfer = TransferUnit.reset ∧
      t.desk = s.desk.exitReport s.replica.seq ∧
      t.timer = { s.timer with countdown := .stopped, window := .stopped } ∧ t.sel.leave = false ∧
      t.attention = { s.attention with changed := true, readMark := false })) ∧
  (∀ (s : State) (h : Hearing) (p : Station) (c : Instr) (b : Body),
    s.ctl.state = .leaving .withdrawn ∨ s.ctl.state = .leaving .failed →
    c ∈ frameCommands p h b → malformed s { sender := p, body := b } = false →
    (s.Listening h → p ≠ s.own → ∃ t, exec c s = .next t ∧ s.Unmoved false t) ∧
    (s.Carries h b → p = s.own → b ≠ .leave → ∃ t, exec c s = .next t ∧
      s.Unmoved (s.sel.yielding || decide (4 ≤ b.cls ∧ b.cls ≤ 6)) t))

/-! ## Joining and loading -/

/-- FOUND (R65, R25): the founder's own FOUND makes it the sole member. At another station in JOINING a FOUND, and a
HEAD that names another joiner, is a group frame that says whether the station is listed (R62): listed, its JOIN
is withdrawn; left out, its JOIN stands, set afresh where it did not, which clears own-JOIN-applied (R59). -/
def Obligations.FoundInJoining : Prop :=
  ∀ (s : State) (h : Hearing) (p : Station) (b : HeadBody), s.ctl.state = .joining →
    (foundMalformed p b = false → p = s.own → s.Carries h (.found b) → ∃ t,
      exec (.found p b h) s = .next t ∧ t.ctl.state = .synced ∧
      t.replica = { table := List.replicate 64 none, roster := [{ station := s.own, silence := 0 }],
                    joinQueue := carriedQueue b, transfer := none, seq := 0 } ∧
      t.timer = { s.timer with countdown := .running (s.timer.interval * 8000), window := .stopped } ∧
      t.ctl.preGroup = [] ∧ t.sel.found = false ∧
      t.attention = { s.attention with changed := true, readMark := false }) ∧
    (∀ c, s.Listening h → p ≠ s.own →
      (c = Instr.found p b h ∧ foundMalformed p b = false) ∨
        (c = .head p b h ∧ headMalformed p b = false ∧ b.joiner.toNat ≠ s.own.val) →
      let listed := (carriedQueue b).contains s.own
      ∃ t, exec c s = .next t ∧
      t.ctl = { s.ctl with
        groupSeen := true, preGroup := [], listed := listed
        ownJoinApplied := s.ctl.ownJoinApplied && (listed || s.sel.join) } ∧
      t.timer = { s.timer with window :=
        if s.timer.window ≠ .stopped ∨ s.ctl.ownJoinApplied = true then .running (1000 * 8000)
        else s.timer.window } ∧
      t.sel.found = false ∧ t.sel.join = !listed ∧
      t.sel.joinCount = (if listed = false ∧ s.sel.join = true then s.sel.joinCount else 0) ∧
      t.sel.streak = 0 ∧ t.replica = s.replica ∧ t.desk = s.desk ∧ t.xfer = s.xfer ∧ t.attention = s.attention)

/-- A group frame in JOINING (R62): a BEAT, a PRESENT, a well-formed PART, a LEAVE or a request of another station, under
each of its names (log entry 4), makes it group-seen, empties the pre-group list, withdraws the FOUND candidate and
loads the found window if it runs or the own JOIN has been applied; nothing is replicated. A JOIN in JOINING (R61):
before a group is seen the sender joins the pre-group list, in its place if it stands there; at the own JOIN
own-JOIN-applied is set, listed too where a group has been seen, the JOIN candidate is withdrawn and the found window
loaded. -/
def Obligations.GroupFrameInJoining : Prop :=
  ∀ (s : State) (h : Hearing) (p : Station), s.ctl.state = .joining →
    (∀ (b : Body) (c : Instr), s.Listening h → p ≠ s.own → c ∈ frameCommands p h b →
      b = .beat ∨ b = .present ∨ (∃ x, b = .part x ∧ partMalformed x = false) ∨ b = .leave ∨ (∃ k, b = .release k) ∨
        (∃ k w, b = .renew k w) ∨ (∃ k m w, b = .acquire k m w) → ∃ t, exec c s = .next t ∧
      t.ctl = { s.ctl with groupSeen := true, preGroup := [] } ∧ t.sel.found = false ∧ t.sel.join = s.sel.join ∧
      t.timer = { s.timer with window :=
        if s.timer.window ≠ .stopped ∨ s.ctl.ownJoinApplied = true then .running (1000 * 8000)
        else s.timer.window } ∧
      t.sel.streak = 0 ∧ t.replica = s.replica ∧ t.desk = s.desk ∧ t.xfer = s.xfer ∧ t.attention = s.attention ∧
      t.port = s.port ∧ t.pins = s.pins) ∧
    (s.ctl.groupSeen = true ∨ p ∈ s.ctl.preGroup ∨ s.ctl.preGroup.length < 4 →
      let list := if s.ctl.groupSeen = true ∨ p ∈ s.ctl.preGroup then s.ctl.preGroup else s.ctl.preGroup ++ [p]
      (s.Listening h → p ≠ s.own → ∃ t, exec (.join p h) s = .next t ∧
        t.ctl = { s.ctl with preGroup := list } ∧ t.timer = s.timer ∧ t.sel.join = s.sel.join ∧
        t.sel.joinCount = s.sel.joinCount ∧ t.sel.found = s.sel.found ∧ t.sel.streak = 0 ∧
        t.replica = s.replica ∧ t.desk = s.desk ∧ t.xfer = s.xfer ∧ t.attention = s.attention) ∧
      (p = s.own → s.Carries h .join → ∃ t, exec (.join p h) s = .next t ∧
        t.ctl = { s.ctl with
          preGroup := list, listed := s.ctl.listed || s.ctl.groupSeen, ownJoinApplied := true } ∧
        t.timer = { s.timer with window := .running (1000 * 8000) } ∧ t.sel.join = false ∧ t.sel.joinCount = 0 ∧
        t.sel.found = s.sel.found ∧ t.sel.onLine = none ∧ t.sel.streak = 0 ∧ t.replica = s.replica ∧
        t.desk = s.desk ∧ t.xfer = s.xfer ∧ t.attention = s.attention))

/-- HEAD naming the own station in JOINING (R66, R86): the load begins from what the HEAD carries. With no part
announced it completes in the same application (R93): the station is SYNCED, in the roster with count 0 and out of
the join queue; that listed and own-JOIN-applied are cleared on the way is log entry 11, DEDUCED. The roster carried
is that of the stations marked, each with its own count, in ascending number, and the queue that of the counted entries
(R106). -/
def Obligations.HeadBeginsTheLoad : Prop :=
  (∀ b : HeadBody, RosterOrdered (carriedRoster b) ∧
    (∀ m, m ∈ carriedRoster b ↔ b.rosterSet.getLsbD m.station.val = true ∧
      m.silence = (b.silences.extractLsb' (4 * m.station.val) 4).toNat) ∧
    ((∀ e ∈ b.entries.take b.queueCount.toNat, e.toNat ≤ 31) →
      (carriedQueue b).map (fun p => BitVec.ofNat 8 p.val) = b.entries.take b.queueCount.toNat)) ∧
  ∀ (s : State) (h : Hearing) (p : Station) (b : HeadBody), s.Listening h → s.ctl.state = .joining →
    p ≠ s.own → headMalformed p b = false → b.joiner.toNat = s.own.val → ∃ t,
    exec (.head p b h) s = .next t ∧ t.attention = { s.attention with changed := true, readMark := false } ∧
    t.desk = s.desk ∧ t.sel.join = false ∧ t.ctl.preGroup = [] ∧
    (b.partCount ≠ 0 → t.ctl.state = .loading ∧
      t.replica = {
        table := List.replicate 64 none
        roster := setSilence p 0 (carriedRoster b)
        joinQueue := carriedQueue b
        transfer := some { joiner := s.own, sender := p, total := b.partCount.toNat, applied := 0, idle := 0 }
        seq := b.seq } ∧
      t.xfer = { TransferUnit.reset with phase := some .recording, headSeq := b.seq
                                         attempts := s.xfer.attempts + 1 } ∧
      t.timer.window = .running (1000 * 8000)) ∧
    (b.partCount = 0 → t.ctl.state = .synced ∧
      t.replica = {
        table := List.replicate 64 none
        roster := addMember s.own (setSilence p 0 (carriedRoster b))
        joinQueue := (carriedQueue b).tail
        transfer := none
        seq := b.seq } ∧
      t.xfer = TransferUnit.reset ∧ t.ctl.listed = false ∧ t.ctl.ownJoinApplied = false ∧
      t.timer = { s.timer with countdown := .running (s.timer.interval * 8000), window := .stopped })

/-- A live frame in LOADING (R87, R88, R124): a well-formed PRESENT, JOIN, request, or LEAVE of another station
than the sender is recorded with the number it receives; its effect waits for the replay. A BEAT, under each of its
names (log entry 4), is recorded too, and tracked: the sender watch and the idle beats (R89). -/
def Obligations.LiveFrameIsRecorded : Prop :=
  (∀ (s : State) (h : Hearing) (p : Station) (k : Key) (m w : Byte) (c : Instr) (f : Frame) (x : Transfer),
      s.Listening h → s.ctl.state = .loading → p ≠ s.own → s.replica.transfer = some x →
      s.xfer.phase = some .recording → s.xfer.journal.length < 32 → malformed s f = false →
      (c, f) ∈ [(Instr.present p h, { sender := p, body := .present : Frame }),
        (.join p h, { sender := p, body := .join }),
        (.leave p h, { sender := p, body := .leave }),
        (.releaseFrame p k h, { sender := p, body := .release k }),
        (.renewFrame p k w h, { sender := p, body := .renew k w }),
        (.acquireFrame p k m w h, { sender := p, body := .acquire k m w })] →
      (f.body = .leave → p ≠ x.sender) → ∃ t, exec c s = .next t ∧
      t.xfer = { s.xfer with
        journal := s.xfer.journal ++ [{ frame := f, seq := s.replica.seq + 1 }]
        watch := if p = x.sender then 0 else s.xfer.watch } ∧
      t.replica = { s.replica with seq := s.replica.seq + 1 } ∧
      t.timer = { s.timer with window := .running (1000 * 8000) } ∧
      t.ctl = s.ctl ∧ t.desk = s.desk ∧ t.attention = s.attention ∧ t.sel.streak = 0) ∧
  (∀ (s : State) (h : Hearing) (p : Station) (c : Instr) (x : Transfer), s.Listening h → s.ctl.state = .loading →
    p ≠ s.own → s.replica.transfer = some x → s.xfer.phase = some .recording → s.xfer.journal.length < 32 →
    x.idle < 3 → p = x.sender ∨ s.xfer.watch < 7 →
    c ∈ [Instr.beat p h, .expired p h, .lapse p h, .transferIdleTimeout p h, .senderWatchLapse p h] → ∃ t,
    exec c s = .next t ∧
    t.xfer = { s.xfer with
      journal := s.xfer.journal ++ [{ frame := { sender := p, body := .beat }, seq := s.replica.seq + 1 }]
      watch := if p = x.sender then 0 else s.xfer.watch + 1 } ∧
    t.replica = { s.replica with
      seq := s.replica.seq + 1, transfer := some { x with idle := x.idle + 1 } } ∧
    t.timer = { s.timer with window := .running (1000 * 8000) } ∧
    t.ctl = s.ctl ∧ t.desk = s.desk ∧ t.attention = s.attention ∧ t.sel.streak = 0)

/-- PART of the own transfer in LOADING (R26, R87, R124): installed as carried at its index. At the last part the
journal is replayed from the HEAD's number, the sender's count set to 0, and the transfer completes (R92, R93): the
station is SYNCED, in the roster with count 0 and out of the join queue; that the joining record is cleared there is log
entry 11, DEDUCED. The replay takes the records oldest first (R92). Where a record's number is more than one above that of
the frame replayed before it, the HEAD's for the first, the sender's silence count is first set to 0. The record is then
applied with its own sender, body and number, its sender's count set to 0 (R42): a BEAT by its stages 1 to 3 alone, a
LEAVE's sender out of the roster and out of the queue, wherever it stands (R58, R68), and the transfer record and the
number held stand. -/
def Obligations.PartIsInstalled : Prop :=
  (∀ (own sender : Station) (last : Seq) (r : Replica), replay own sender last [] r = (r, []) ∧
    ∀ (j : JournalRecord) (js : List JournalRecord),
      let p := j.frame.sender
      let q := j.seq
      let held := if q = last ∨ q = last + 1 then r.roster else setSilence sender 0 r.roster
      let x := { r with roster := setSilence p 0 held }
      let becomes (y : Replica) (reports : List Report) : Prop := replay own sender last (j :: js) r =
        ((replay own sender q js y).1, reports ++ (replay own sender q js y).2)
      (j.frame.body = .present → becomes x []) ∧
      (j.frame.body = .beat →
        let two := countDown own q x.table
        let three := presenceStage own false q p x.roster { x with table := two.1 }
        becomes three.replica (two.2 ++ three.reports)) ∧
      (j.frame.body = .join →
        becomes { x with joinQueue := if p ∈ x.joinQueue then x.joinQueue else x.joinQueue ++ [p] } []) ∧
      (j.frame.body = .leave →
        let left := { x with joinQueue := x.joinQueue.filter fun k => decide (k ≠ p) }
        ((∃ m ∈ x.roster, m.station = p) → becomes
          { left with roster := dropMember p x.roster, table := (purge own q p x.table).1 }
          (purge own q p x.table).2) ∧
        ((∀ m ∈ x.roster, m.station ≠ p) → becomes left [])) ∧
      (∀ key, j.frame.body = .release key →
        let a := applyRelease own q p key x.table
        becomes { x with table := a.table } a.reports) ∧
      (∀ key term, j.frame.body = .renew key term →
        becomes { x with table := (applyRenew p key term.toNat x.table).table } []) ∧
      (∀ key mw term mode, j.frame.body = .acquire key mw term → modeOf (modeBits mw) = some mode →
        becomes { x with table := (applyAcquire p key mode (waitBit mw) term.toNat x.table).table } [])) ∧
  (∀ b : PartBody, carriedSlot b =
    let mode (c : BitVec 2) : Mode := if c = 1 then .shared else .exclusive
    { key := b.key, mode := mode b.mode
      holders := b.holders.map fun h => { station := h.station, remaining := h.remaining.toNat }
      waiters := b.waiters.map fun w =>
        { station := w.station, wanted := mode w.wanted, term := w.term.toNat } }) ∧
  ∀ (s : State) (h : Hearing) (b : PartBody) (x : Transfer), s.Listening h → s.ctl.state = .loading →
    x.sender ≠ s.own → s.xfer.phase = some .recording → s.replica.transfer = some x →
    malformed s { sender := x.sender, body := .part b } = false →
    let r : Replica := { s.replica with
      seq := s.replica.seq + 1
      table := s.replica.table.set b.slot.toNat (some (carriedSlot b))
      transfer := some { x with applied := x.applied + 1, idle := 0 }
      roster := setSilence x.sender 0 s.replica.roster }
    ∃ t, exec (.part x.sender b h) s = .next t ∧
    (x.applied + 1 ≠ x.total → t.replica = r ∧ t.xfer = { s.xfer with watch := 0 } ∧
      t.timer = { s.timer with window := .running (1000 * 8000) } ∧
      t.ctl = s.ctl ∧ t.desk = s.desk ∧ t.attention = s.attention) ∧
    (x.applied + 1 = x.total →
      let played := replay s.own x.sender s.xfer.headSeq s.xfer.journal r
      t.replica = { played.1 with
        roster := addMember s.own (setSilence x.sender 0 played.1.roster)
        joinQueue := played.1.joinQueue.tail, transfer := none } ∧
      t.desk = s.desk.takeReports played.2 ∧ t.xfer = TransferUnit.reset ∧
      t.timer = { s.timer with countdown := .running (s.timer.interval * 8000), window := .stopped } ∧
      t.ctl = { s.ctl with state := .synced, preGroup := [], groupSeen := false, listed := false
                           ownJoinApplied := false } ∧
      t.attention = { s.attention with changed := true, readMark := false } ∧ t.sel.join = false ∧
      t.sel.present = false ∧ t.sel.beat = false ∧ t.sel.streak = 0)

/-- A load is abandoned (R66, R89, R91, R94, R96): at the eighth silent BEAT of the sender, at the fourth idle BEAT, at
the sender's LEAVE, at a FOUND, and at the own restart JOIN. By the attempt count the station is back in JOINING with
listed kept, or goes on to LEAVING of kind FAILED. Own-JOIN-applied is kept; but a BEAT that would be the 33rd record as
well clears it (log entry 24, DESIGN CHOICE), the own restart JOIN sets it (log entry 12, DEDUCED), and a FOUND is then
taken as in JOINING (R62). That the joining record is cleared on the way to LEAVING is log entry 11, DEDUCED. -/
def Obligations.LoadIsAbandoned : Prop :=
  ∀ (s : State) (h : Hearing) (p : Station) (x : Transfer), s.ctl.state = .loading → s.replica.transfer = some x →
    let abandons (c : Instr) (listed applied join : Bool) : Prop := ∃ t, exec c s = .next t ∧
      t.replica = Replica.empty ∧ t.xfer = { TransferUnit.reset with attempts := s.xfer.attempts } ∧
      t.desk = s.desk ∧ t.attention = { s.attention with changed := true, readMark := false } ∧ t.sel.streak = 0 ∧
      t.sel.joinCount = 0 ∧
      (s.xfer.attempts < 3 →
        t.ctl = { s.ctl with
          state := .joining, preGroup := [], groupSeen := true, listed := listed, ownJoinApplied := applied } ∧
        t.timer = { s.timer with window := .running (1000 * 8000) } ∧ t.sel.join = join) ∧
      (3 ≤ s.xfer.attempts →
        t.ctl = { s.ctl with
          state := .leaving .failed, preGroup := [], groupSeen := false, listed := false, ownJoinApplied := false } ∧
        t.timer = { s.timer with countdown := .stopped, window := .stopped } ∧ t.sel.join = false ∧
        t.sel.leave = true ∧ t.sel.leaveCount = 0)
    (s.Listening h → p ≠ s.own → 3 ≤ x.idle ∨ (p ≠ x.sender ∧ 7 ≤ s.xfer.watch) →
      ∀ c ∈ [Instr.senderWatchLapse p h, .transferIdleTimeout p h, .beat p h, .expired p h, .lapse p h],
        abandons c s.ctl.listed
          (s.ctl.ownJoinApplied && !decide (s.xfer.phase = some .recording ∧ 32 ≤ s.xfer.journal.length)) false) ∧
    (s.Listening h → x.sender ≠ s.own → abandons (.leave x.sender h) s.ctl.listed s.ctl.ownJoinApplied false) ∧
    (∀ b, s.Listening h → p ≠ s.own → foundMalformed p b = false →
      let listed := (carriedQueue b).contains s.own
      abandons (.found p b h) listed (s.ctl.ownJoinApplied && listed) (!listed)) ∧
    (s.Carries h .join → abandons (.join s.own h) s.ctl.listed true false)

/-- SPOIL (R91): the frame that would be the 33rd record, of any class that is recorded, is not recorded, the records
go, and the restart JOIN becomes a candidate; the frame's live effects on the sender watch and the idle beats are
still taken (R89). Said of a BEAT that does not abandon the load: of one that does, log entry 24 and
LoadIsAbandoned tell. -/
def Obligations.SpoilDiscardsTheJournal : Prop :=
  ∀ (s : State) (h : Hearing) (p : Station) (x : Transfer) (b : Body), s.Listening h → s.ctl.state = .loading →
    p ≠ s.own → s.replica.transfer = some x → s.xfer.phase = some .recording → s.xfer.journal.length = 32 →
    malformed s { sender := p, body := b } = false →
    (b = .beat ∧ x.idle < 3 ∧ (p = x.sender ∨ s.xfer.watch < 7)) ∨ b = .present ∨ b = .join ∨
      (b = .leave ∧ p ≠ x.sender) ∨ (∃ k, b = .release k) ∨ (∃ k w, b = .renew k w) ∨
      (∃ k m w, b = .acquire k m w) → ∃ t,
    exec (.spoil { sender := p, body := b } h) s = .next t ∧
    t.xfer.journal = [] ∧ t.xfer.phase = some .spoiled ∧
    t.xfer.watch = (if p = x.sender then 0 else if b = .beat then s.xfer.watch + 1 else s.xfer.watch) ∧
    t.sel.join = true ∧ t.sel.joinCount = 0 ∧ t.ctl = { s.ctl with ownJoinApplied := false } ∧
    t.replica = { s.replica with
      seq := s.replica.seq + 1
      transfer := some (if b = .beat then { x with idle := x.idle + 1 } else x) } ∧
    t.timer = { s.timer with window := .running (1000 * 8000) } ∧ t.desk = s.desk

/-! ## Objections, breaks and exits -/

/-- FRAME_OBJECTED (R117, R121, R122, R123, R130, R137, R152): a frame of another station whose window a station drives is
applied nowhere, at a member, in JOINING, in LOADING and in LEAVING of every kind alike. Where the station takes part in
it and drives it itself, for a check mismatch, noise or malformed content, that is an error objection and counts on the
streak; a refusal alone is not one, and the streak goes to 0. Where others drive it and the station received it cleanly
and found nothing, or takes no part in it, as in JOINING in the other classes, in UNCONFIGURED and in IDLE, the streak
goes to 0. Content is malformed exactly as R105 and R111..R114 (R77) list it, by the state that makes the test (R117), and a
frame is refused exactly by the four rows of R122 (R60, R61, R64, R91). A frame is received cleanly with every character
taken, its check matched and at most two noisy cells (R118). The hunt of a station that drives the window begins after its
own driven cells (R151). -/
def Obligations.ObjectedFrameIsNotApplied : Prop :=
  (∀ r : Reception, r.clean = true ↔ r.taken = .complete ∧ r.matched = true ∧ r.noisy ≤ 2) ∧
  (∀ (s : State) (f : Frame),
    let member := s.ctl.state = .synced ∨ s.ctl.state = .leaving .member
    let loading := s.ctl.state = .loading
    let requests := loading ∨ s.ctl.state = .synced ∨ ∃ k, s.ctl.state = .leaving k
    let transfers := s.ctl.state = .joining ∨ requests
    (malformed s f = true ↔ match f.body with
      | .beat | .present | .leave | .join => False
      | .release key => requests ∧ key = 0
      | .renew key term => requests ∧ (key = 0 ∨ term = 0)
      | .acquire key mw term =>
        requests ∧ (key = 0 ∨ term = 0 ∨ 2 ≤ (mw.extractLsb' 0 2).toNat ∨ mw.extractLsb' 2 5 ≠ 0)
      | .misshapen => transfers
      | .head b => (transfers ∧ HeadMalformed f.sender b) ∨ (member ∧ HeadDrifts f.sender b s.replica) ∨ loading
      | .part b => (transfers ∧ PartMalformed b) ∨ ((member ∨ loading) ∧ PartDrifts f.sender b s.replica) ∨
        (loading ∧ PartRepeats b s.replica)
      | .found b => transfers ∧ FoundMalformed f.sender b) ∧
    (refuses s f = true ↔ match f.body with
      | .join => (member ∧ ((∃ m ∈ s.replica.roster, m.station = f.sender) ∨
          (4 ≤ s.replica.joinQueue.length ∧ f.sender ∉ s.replica.joinQueue))) ∨
        (s.ctl.state = .joining ∧ s.ctl.groupSeen = false ∧ 4 ≤ s.ctl.preGroup.length ∧ f.sender ∉ s.ctl.preGroup)
      | .found _ => member
      | .part _ => loading ∧ s.xfer.phase = some .spoiled
      | .beat | .present | .head _ | .misshapen | .leave | .release _ | .renew _ _ | .acquire _ _ _ => False)) ∧
  (∀ (header length subtype check : Byte) (content : List Byte), header.toNat / 32 = 2 →
    ((decodeFrame (header :: length :: subtype :: content ++ [check])).body = .misshapen ↔
      (subtype ≠ 1 ∧ subtype ≠ 2 ∧ subtype ≠ 3) ∨ (subtype ≠ 2 ∧ content.length ≠ 29) ∨
      (subtype = 2 ∧ ∀ summary, content[4]? = some summary → content.length ≠
        5 + 2 * ((summary.extractLsb' 3 3).toNat + (summary.extractLsb' 0 3).toNat)))) ∧
  ∀ (s : State) (raw : RawFrame) (r : Reception), s.Hears raw r → r.taken = .complete → r.frame.sender ≠ s.own →
    let part := s.TakesPart r.headerCls
    let bad := malformed s r.frame
    let error := r.matched = false ∨ 2 < r.noisy ∨ (r.clean = true ∧ bad = true)
    let refused := r.clean = true ∧ bad = false ∧ refuses s r.frame = true
    let passed := r.clean = true ∧ (part → bad = false ∧ refuses s r.frame = false) ∧
      ∃ c ∈ r.window, cellLevel c = true
    ∀ raised, (raised = .error ∧ part ∧ error ∧ s.sel.streak < 3) ∨ (raised = .refusal ∧ part ∧ refused) ∨
      (raised = Raised.nothing ∧ passed) → ∃ t,
    exec (.frameObjected raw) s = .next t ∧ t.replica = s.replica ∧ t.desk = s.desk ∧ t.ctl = s.ctl ∧
    t.timer = s.timer ∧ t.xfer = s.xfer ∧ t.attention = s.attention ∧ t.port = s.port ∧
    t.sel = { s.sel with
      streak := if raised = .error then s.sel.streak + 1 else 0
      lastEnd := some { sent := .none, ending := .objected, raised := raised, clean := r.clean, applied := none } } ∧
    t.liu.linePhase = .hunt ∧ t.liu.releasedRun = 0 ∧ (raised ≠ .nothing → t.liu.quiet = false) ∧
    t.liu.errorSeen = decide (raised = .error) ∧
    t.liu.noisy = r.noisy

/-- EARLY_BREAK (R117, R119, R120, R130, R150): a station that takes part in a frame and finds a framing error breaks it,
a member, in JOINING, in LOADING and in LEAVING of every kind alike; it is applied nowhere, and the streak counts an
error of the station's own finding, not a break seen. A station that takes no part, as JOINING in a frame whose header it
did not take, raises nothing, and its streak stands. That a header whose own start cell is sampled released is such a
frame, in which JOINING takes no part, is log entry 25, DESIGN CHOICE. Characters are taken ten cells each: a start cell
sampled released, a stop cell sampled driven, and a length of 0 or above 30 are framing errors, a break seen where all
ten cells were driven (R105, R142, R149); noisy cells count to the cell at which it ends (R118); and the class, or the
length, gives the extent (R102, R105). The hunt of a station that breaks begins after its own driven cells (R150). LINE past the looks given is released (log entry 8, the model's choice). -/
def Obligations.BrokenFrameIsNotApplied : Prop :=
  let released : Cell := { s5 := false, s6 := false, s7 := false }
  (∀ (m : Sampler) (ls : List Bool),
    let cs := (looks m (ls ++ List.replicate 11 false)).2.map (·.cell)
    let t := takeChars 33 cs [] 0
    hearRaw m ls = {
      chars := t.1, noisy := t.2.1, taken := t.2.2, frame := decodeFrame t.1, levels := cs.map cellLevel
      matched := decide (t.2.2 = .complete) && checkMatches t.1
      window := (cs.drop (10 * t.1.length) ++ List.replicate 10 released).take 10 } ∧
    (hearRaw m ls).headerCls = t.1.head?.map fun h => h.toNat / 32) ∧
  (∀ (n : Nat) (cs : List Cell) (chars : List Byte) (noisy : Nat),
    let ten := (cs ++ List.replicate 10 released).take 10
    let levels := ten.map cellLevel
    let count := noisy + ten.countP cellNoisy
    let all := chars ++ [charOfBits chars.isEmpty (((levels.drop 1).take 8).map not)]
    let taken := takeChars (n + 1) cs chars noisy
    let wrong : Prop := ∃ h l, all = [h, l] ∧ h.toNat / 32 = 2 ∧ (l = 0 ∨ 30 < l.toNat)
    let whole : Prop := ∃ h, all.head? = some h ∧
      match h.toNat / 32 with
      | 2 => ∃ l, all[1]? = some l ∧ all.length = l.toNat + 3
      | 4 => all.length = 4
      | 5 => all.length = 5
      | 6 => all.length = 6
      | _ => all.length = 2
    (levels[0]? = some false → taken = (chars, noisy + (ten.take 1).countP cellNoisy, .framing false)) ∧
    (levels[0]? = some true → levels[9]? = some true →
      taken = (chars, count, .framing (decide (false ∉ levels)))) ∧
    (levels[0]? = some true → levels[9]? = some false →
      (wrong → taken = (all, count, .framing false)) ∧
      (¬ wrong → whole → taken = (all, count, .complete)) ∧
      (¬ wrong → ¬ whole → taken = takeChars n (cs.drop 10) all count))) ∧
  ∀ (s : State) (raw : RawFrame) (r : Reception) (seen : Bool), s.Hears raw r → r.taken = .framing seen →
    s.sel.streak < 4 → ∀ raised, (raised = .error ∧ s.TakesPart r.headerCls ∧ seen = false ∧ s.sel.streak < 3) ∨
      (raised = .breakSeen ∧ s.TakesPart r.headerCls ∧ seen = true) ∨
      (raised = Raised.nothing ∧ ¬ s.TakesPart r.headerCls) → ∃ t,
    exec (.earlyBreak raw) s = .next t ∧ t.replica = s.replica ∧ t.desk = s.desk ∧ t.ctl = s.ctl ∧
    t.timer = s.timer ∧ t.xfer = s.xfer ∧ t.attention = s.attention ∧ t.port = s.port ∧
    t.sel = { s.sel with
      streak := if raised = .error then s.sel.streak + 1 else s.sel.streak
      lastEnd := some { sent := .none, ending := .earlyBreak, raised := raised, clean := false, applied := none } } ∧
    t.liu.linePhase = .hunt ∧ t.liu.releasedRun = 0 ∧ (s.TakesPart r.headerCls → t.liu.quiet = false) ∧
    t.liu.errorSeen = !seen

/-- STREAK (R131, R72, R73, R27, R171): the fourth consecutive error objection, an early break of the station's own
finding or a verdict break for a check mismatch, noise or malformed content (R121), takes the station to IDLE with
cause STREAK from JOINING, LOADING, SYNCED and LEAVING of every kind alike: whatever it held, the load and the
candidates are gone, and the exit report carries the number as it stood. That a header whose own start cell is sampled
released counts as an early break's error is log entry 25, DESIGN CHOICE. -/
def Obligations.FourthErrorExits : Prop :=
  ∀ (s : State) (raw : RawFrame) (r : Reception), s.Hears raw r → s.TakesPart r.headerCls → s.sel.streak = 3 →
    r.taken = .framing false ∨ (r.taken = .complete ∧ r.frame.sender ≠ s.own ∧
      (r.matched = false ∨ 2 < r.noisy ∨ (r.clean = true ∧ malformed s r.frame = true))) → ∃ t,
    exec (.streak raw) s = .next t ∧ t.ctl.state = .idle ∧ t.ctl.cause = .streak ∧
    t.replica = Replica.empty ∧ t.desk = s.desk.exitReport s.replica.seq ∧ t.xfer = TransferUnit.reset ∧
    t.ctl.preGroup = [] ∧ t.ctl.groupSeen = false ∧ t.ctl.listed = false ∧ t.ctl.ownJoinApplied = false ∧
    t.sel.found = false ∧ t.sel.join = false ∧ t.sel.leave = false ∧ t.sel.joinCount = 0 ∧ t.sel.leaveCount = 0 ∧
    t.timer = { s.timer with countdown := .stopped, window := .stopped } ∧ t.sel.streak = 0 ∧
    t.attention = { s.attention with changed := true, readMark := false } ∧ t.port = s.port

/-- An objection against an own frame whose window another station drives (R126, R127, R128). Below the eighth the
candidate's count rises by one, and nothing else changes but the streak, which counts an error the station itself
raised, and what is on the line. At the eighth, one consequence for each kind: LINE_REFUSED (R168), JOIN_REFUSED (R59),
LEAVE_UNHEARD (R67), GIVE_UP_SENDING (R84) and HEAD_BARRED. A request that a STOP met on the line completes with ABORTED
at its first objection after it, the eighth included (R129, R170), and where the candidate is gone nothing counts
(R135). A JOIN stands in JOINING and LOADING, a LEAVE in LEAVING of every kind (R133). That each of the five commands
counts an objection below the eighth alike, for a candidate of any kind, whatever consequence it is named for, is log
entry 4, DESIGN CHOICE. -/
def Obligations.ObjectionsAreCounted : Prop :=
  (∀ s : State,
    (s.joinStands = true ↔ s.sel.join = true ∧ (s.ctl.state = .joining ∨ s.ctl.state = .loading)) ∧
    (s.leaveStands = true ↔ s.sel.leave = true ∧ ∃ k, s.ctl.state = .leaving k)) ∧
  (∀ (st : StationState) (cls : Option Nat), takesPart st cls = true ↔
    st = .loading ∨ st = .synced ∨ (∃ k, st = .leaving k) ∨ (st = .joining ∧ (cls = some 2 ∨ cls = some 7))) ∧
  ∀ (s : State) (o : OwnObjection) (k : Option CandKind) (b : Body), s.pins.resetLow = false → s.ctl.state ≠ .halted →
    s.liu.linePhase = .contend → Objects o → s.sel.streak < 3 →
    s.sel.onLine = some { kind := k, frame := { sender := s.own, body := b } } →
    let counts (d : Desk) (x : Selector) : Prop := ∀ c ∈ [Instr.lineRefused o, .joinRefused o, .leaveUnheard o,
        .giveUpSending o, .headBarred o], ∃ t, exec c s = .next t ∧
      t = { s with
        liu := t.liu
        desk := d
        sel := { x with
          onLine := none
          streak := if 2 < o.noisy ∨ malformed s { sender := s.own, body := b } = true then s.sel.streak + 1 else 0
          lastEnd := t.sel.lastEnd } } ∧
      t.liu.linePhase = .hunt ∧ t.liu.releasedRun = 0
    (∀ r rs, k = some (.request r.ticket) → s.ctl.state = .synced → s.desk.requests = r :: rs → s.sel.requestCount < 7 →
      counts s.desk { s.sel with requestCount := s.sel.requestCount + 1 }) ∧
    (k = some .join → s.joinStands = true → s.sel.joinCount < 7 →
      b = .join → counts s.desk { s.sel with joinCount := s.sel.joinCount + 1 }) ∧
    (k = some .leave → s.leaveStands = true → s.sel.leaveCount < 7 →
      counts s.desk { s.sel with leaveCount := s.sel.leaveCount + 1 }) ∧
    (∀ p, k = some (.part p.index) → partOffer s = some p → s.sel.partCount < 7 →
      counts s.desk { s.sel with partCount := s.sel.partCount + 1 }) ∧
    (k = some .head → s.headStands = true → s.sel.headCount < 7 →
      counts s.desk { s.sel with headCount := s.sel.headCount + 1 }) ∧
    (∀ r rs, k = some (.request r.ticket) → s.ctl.state = .leaving .member → s.desk.requests = r :: rs →
      counts ({ s.desk with requests := rs }.conclude r .aborted none none) s.sel.nextRequest) ∧
    (k = none → s.ctl.state.participating = true → takesPart s.ctl.state (some b.cls) = true →
      counts s.desk s.sel) ∧
    (∀ r rs, k = some (.request r.ticket) → s.ctl.state = .synced → s.desk.requests = r :: rs →
      s.sel.requestCount = 7 → ∃ t, exec (.lineRefused o) s = .next t ∧
      t.desk = { s.desk with requests := rs }.conclude r .lineRefused none none ∧ t.sel.requestCount = 0 ∧
      t.replica = s.replica ∧ t.ctl = s.ctl) ∧
    (k = some .join → s.joinStands = true → s.sel.joinCount = 7 → ∃ t, exec (.joinRefused o) s = .next t ∧
      t.ctl.state = .idle ∧ t.ctl.cause = .joinRefused ∧ t.replica = Replica.empty ∧ t.sel.join = false ∧
      t.attention = { s.attention with changed := true, readMark := false }) ∧
    (k = some .leave → s.leaveStands = true → s.sel.leaveCount = 7 → ∃ t, exec (.leaveUnheard o) s = .next t ∧
      t.ctl.state = .idle ∧ t.ctl.cause = .leaveUnheard ∧ t.replica = Replica.empty ∧ t.sel.leave = false ∧
      t.desk = s.desk.exitReport s.replica.seq ∧
      t.attention = { s.attention with changed := true, readMark := false }) ∧
    (∀ p, k = some (.part p.index) → partOffer s = some p → s.sel.partCount = 7 → ∃ t,
      exec (.giveUpSending o) s = .next t ∧ t.xfer = { s.xfer with image := none, cursor := none } ∧
      t.sel.partCount = 0 ∧ t.replica = s.replica ∧ t.ctl = s.ctl ∧ t.desk = s.desk) ∧
    (k = some .head → s.headStands = true → s.sel.headCount = 7 → ∃ t, exec (.headBarred o) s = .next t ∧
      t.sel.headBarred = true ∧ t.sel.headCount = 0 ∧ t.replica = s.replica ∧ t.ctl = s.ctl ∧ t.desk = s.desk)

/-- An own frame broken, with no other station going on with it (R125, R126, R148): the LIU stops and hunts, and the
frame end waits, with the candidate it counts against. Where LINE goes on with another station's HEAD, which a member
applies, the end waits too, and the application takes its candidate with the HEAD and PART candidates that it withdraws
(R76, R127, R135). At the first idle gap it is handed and counts one objection, whether the frame was broken after its
header or in it (log entries 9 and 10), with the consequence of the eighth, or completes a request that a STOP met with
ABORTED (R129, R170); a candidate that is gone meanwhile draws none, though one of its kind stands again (R135). A
choice follows. A frame whose cells are all sampled as they were sent is carried; at the first that is not, a data cell
of the header sent released and sampled driven loses the contest (R147), and any other breaks the frame (R148). -/
def Obligations.BrokenEndWaitsForTheGap : Prop :=
  (∀ (o : Offer) (levels : List Bool),
    let sent := frameLevels o.frame
    let same (i : Nat) : Prop := sent[i]? = some (levels[i]?.getD false)
    ((∀ i < sent.length, same i) → sentOf (some o) levels = .carried) ∧
    (∀ i l, sent[i]? = some l → ¬ same i → (∀ j < i, same j) →
      sentOf (some o) levels = if l = false ∧ 1 ≤ i ∧ i ≤ 8 then .lost else .broken) ∧
    sentOf none levels = .none) ∧
  let e : FrameEnd := { sent := .broken, ending := .earlyBreak, raised := .nothing, clean := false, applied := none }
  (∀ (s : State) (raw : RawFrame) (seen : Bool) (f : Offer), s.pins.resetLow = false → s.ctl.state ≠ .halted →
    s.liu.linePhase = .contend → raw.within = Within.nothing → s.sel.onLine = some f →
    let a := toStartCell s.liu.sampler raw.looks
    let r := hearRaw a.1 a.2
    sentOf s.sel.onLine r.levels = .broken → r.taken = .framing seen → ∃ t, exec (.earlyBreak raw) s = .next t ∧
    t = { s with
      liu := t.liu
      sel := { s.sel with onLine := none, brokenEnds := s.sel.brokenEnds ++ [{ kind := f.kind, frameEnd := e }] } } ∧
    t.liu.linePhase = .hunt ∧ t.liu.releasedRun = 0 ∧ t.liu.transmitting = false ∧ t.liu.takingPart = false) ∧
  (∀ (s : State) (raw : RawFrame) (f : Offer) (b : HeadBody), s.pins.resetLow = false → s.ctl.state.isMember = true →
    s.liu.linePhase = .contend → raw.within = Within.nothing → s.sel.onLine = some f →
    let a := toStartCell s.liu.sampler raw.looks
    let r := hearRaw a.1 a.2
    sentOf s.sel.onLine r.levels = .broken → r.clean = true → (∀ c ∈ r.window, cellLevel c = false) →
    r.frame.body = .head b → r.frame.sender ≠ s.own → ∃ t, exec (.frameObjected raw) s = .next t ∧
    t.replica.seq = s.replica.seq + 1 ∧ t.sel.headCount = 0 ∧ t.sel.onLine = none ∧ t.ctl = s.ctl ∧
    let kept : BrokenEnd := {
      kind := f.kind
      frameEnd := { sent := .broken, ending := .applied, raised := .nothing, clean := true
                    applied := some r.frame } }
    t.sel.brokenEnds = (s.sel.brokenEnds ++ [kept]).map (BrokenEnd.settle (withdraws (.head b) t))) ∧
  (∀ (s : State) (k : Option CandKind), s.pins.resetLow = false → s.ctl.state ≠ .halted → s.liu.linePhase = .hunt →
    s.sel.onLine = none → s.sel.streak < 4 → s.sel.brokenEnds = [{ kind := k, frameEnd := e }] →
    ∃ t, exec .idleGap s = .next t ∧ t.sel.brokenEnds = [] ∧
    (k = none → t.sel.joinCount = s.sel.joinCount ∧ t.sel.leaveCount = s.sel.leaveCount ∧
      t.sel.partCount = s.sel.partCount ∧ t.sel.headCount = s.sel.headCount ∧ t.ctl = s.ctl ∧
      (∀ r rs, s.desk.requests = r :: rs → s.desk.fits r = true → t.sel.requestCount = s.sel.requestCount ∧
        t.desk = s.desk)) ∧
    (∀ r rs, k = some (.request r.ticket) → s.ctl.state = .synced → s.desk.requests = r :: rs →
      (s.sel.requestCount < 7 → s.desk.fits r = true → t.sel.requestCount = s.sel.requestCount + 1 ∧ t.desk = s.desk) ∧
      (s.sel.requestCount = 7 → t.sel.requestCount = 0 ∧ (s.desk.notices ++
        [{ kind := .done .lineRefused, ticket := r.ticket, key := r.key, mode := none, seq := none }]) <+:
          t.desk.notices)) ∧
    (∀ r rs, k = some (.request r.ticket) → s.ctl.state = .leaving .member → s.desk.requests = r :: rs →
      t.sel.requestCount = 0 ∧ t.desk = { s.desk with requests := rs }.conclude r .aborted none none ∧
      t.ctl = s.ctl) ∧
    (k = some .join → s.joinStands = true →
      (s.sel.joinCount < 7 → t.sel.joinCount = s.sel.joinCount + 1 ∧ t.ctl = s.ctl) ∧
      (s.sel.joinCount = 7 → t.ctl.state = .idle ∧ t.ctl.cause = .joinRefused)) ∧
    (k = some .leave → s.leaveStands = true →
      (s.sel.leaveCount < 7 → t.sel.leaveCount = s.sel.leaveCount + 1 ∧ t.ctl = s.ctl) ∧
      (s.sel.leaveCount = 7 → t.ctl.state = .idle ∧ t.ctl.cause = .leaveUnheard ∧
        t.desk = s.desk.exitReport s.replica.seq)) ∧
    (∀ p, k = some (.part p.index) → partOffer s = some p →
      (s.sel.partCount < 7 → t.sel.partCount = s.sel.partCount + 1 ∧ t.xfer = s.xfer) ∧
      (s.sel.partCount = 7 → t.sel.partCount = 0 ∧ t.xfer = { s.xfer with image := none, cursor := none })) ∧
    (k = some .head → s.headStands = true →
      (s.sel.headCount < 7 → t.sel.headCount = s.sel.headCount + 1 ∧ t.sel.headBarred = s.sel.headBarred) ∧
      (s.sel.headCount = 7 → t.sel.headCount = 0 ∧ t.sel.headBarred = true))) ∧
  (∀ (g : CandKind → Bool) (b : BrokenEnd), (b.settle g).frameEnd = b.frameEnd ∧
    ∀ k, (b.settle g).kind = some k ↔ b.kind = some k ∧ g k = false)

/-- DUPLICATE (R70, R73, R154): a clean frame bearing the own number that the station did not send is not
applied, whatever its window and whether or not the station objects to it, and takes a participant to HALTED with cause
DUPLICATE, LINE let go (R156). A station in IDLE enters HALTED with no exit report. -/
def Obligations.DuplicateHalts : Prop :=
  ∀ (s : State) (h : Hearing) (f : Frame) (w : List Bool), s.Listening h → f.sender = s.own →
    s.ctl.state.participating = true ∨ s.ctl.state = .idle → ∃ t,
    exec (.duplicate f w h) s = .next t ∧ t.ctl.state = .halted ∧ t.ctl.cause = .duplicate ∧
    (s.ctl.state.participating = true → t.replica = Replica.empty ∧ t.xfer = TransferUnit.reset ∧
      t.desk = s.desk.exitReport s.replica.seq ∧
      t.timer = { s.timer with countdown := .stopped, window := .stopped }) ∧
    (s.ctl.state = .idle → t.replica = s.replica ∧ t.xfer = s.xfer ∧ t.desk = s.desk ∧ t.timer = s.timer) ∧
    t.liu.linePhase = .hunt ∧ t.liu.blind = true ∧ t.liu.releasedRun = 0 ∧ t.liu.buffer = [] ∧
    t.liu.transmitting = false ∧ t.attention = { s.attention with changed := true, readMark := false }

/-- HALTED is left only by reset (R71, R156): no frame of any kind, no gap, no start bit and no countdown moves a
halted station with its countdowns stopped; what falls within a frame comes to it all the same. And a station in
UNCONFIGURED or IDLE receives the group's frames, under each of their names (log entry 4), raises nothing and does
nothing with one that is applied (R117), the own number alone told apart in IDLE (R154). -/
def Obligations.HaltedTakesNoFrame : Prop :=
  (∀ (s : State) (h : Hearing) (p : Station) (c : Instr) (b : Body),
    s.ctl.state = .unconfigured ∨ (s.ctl.state = .idle ∧ p ≠ s.own) → c ∈ frameCommands p h b → s.Listening h →
    ∃ t, exec c s = .next t ∧ s.Unmoved (decide (p = s.own) && s.sel.yielding) t) ∧
  ∀ (s : State) (c : Instr), s.ctl.state = .halted → s.timer.countdown = .stopped → s.timer.window = .stopped →
    s.sel.onLine = none →
    (∀ (p : Station) (h : Hearing) (x : HeadBody) (y : PartBody) (k : Key) (m w : Byte) (f : Frame) (l : List Bool),
      c ∈ [Instr.beat p h, .present p h, .head p x h, .part p y h, .found p x h, .leave p h, .join p h,
        .acquireFrame p k m w h, .releaseFrame p k h, .renewFrame p k w h, .duplicate f l h, .expired p h, .lapse p h,
        .transferIdleTimeout p h, .senderWatchLapse p h, .spoil f h] →
      exec c s = .next (s.events h.within.all)) ∧
    (∀ raw : RawFrame, c ∈ [Instr.frameObjected raw, .earlyBreak raw, .streak raw] →
      exec c s = .next (s.events raw.within.all)) ∧
    (∀ (o : OwnObjection) (run : Nat),
      c ∈ [Instr.lineRefused o, .joinRefused o, .leaveUnheard o, .giveUpSending o, .headBarred o, .idleGap, .yieldRun,
        .startBitNotAccepted run, .beatCountdownExpiry, .foundWindowExpiry] → exec c s = .next s) ∧
    s.events [] = s

/-! ## The rules of the lease table, of the streak and of the desk -/

/-- R10, R11, R12 and R13: what an applied ACQUIRE from `p` makes of the table, by where the key and the
station stand in it. A request that queues is not grantable at the moment it joins. A GRANTED carries the slot's mode
after the grant, a QUEUED the mode wanted, any other outcome none (R18, R166), and no promotion is reported. A key is
found in the one slot that holds it (R1), a station in the slot's records. -/
def Obligations.AcquireOutcomes : Prop :=
  ∀ (p : Station) (key : Key) (mode : Mode) (wait : Bool) (term i : Nat) (t : Table),
    let a := applyAcquire p key mode wait term t
    (findKey key t = none ↔ ∀ x, some x ∈ t → x.key ≠ key) ∧
    (∀ x, findKey key t = some (i, x) ↔
      t[i]? = some (some x) ∧ x.key = key ∧ ∀ j < i, ∀ y, t[j]? = some (some y) → y.key ≠ key) ∧
    (∀ x, (slotHasHolder p x = true ↔ ∃ h ∈ x.holders, h.station = p) ∧
      (slotHasWaiter p x = true ↔ ∃ w ∈ x.waiters, w.station = p) ∧
      (slotHas p x = true ↔ slotHasHolder p x = true ∨ slotHasWaiter p x = true)) ∧
    a.reports = [] ∧
    (findKey key t = none →
      ((∀ o ∈ t, o.isSome = true) → a.outcome = .tableFull ∧ a.mode = none ∧ a.table = t) ∧
      (t[i]? = some none → (∀ j < i, ∃ s, t[j]? = some (some s)) →
        a.outcome = .granted ∧ a.mode = some mode ∧
        a.table = t.set i (some { key := key, mode := mode, holders := [{ station := p, remaining := term }],
                                  waiters := [] }))) ∧
    (∀ slot, findKey key t = some (i, slot) →
      (slotHas p slot = true → a.outcome = .already ∧ a.mode = none ∧ a.table = t) ∧
      (slotHas p slot = false → slot.waiters = [] →
        slot.mode = .shared ∧ mode = .shared ∧ slot.holders.length < 4 →
        a.outcome = .granted ∧ a.mode = some .shared ∧
        a.table = t.set i (some { slot with holders := slot.holders ++ [{ station := p, remaining := term }] })) ∧
      (slotHas p slot = false →
        slot.waiters ≠ [] ∨ ¬ (slot.mode = .shared ∧ mode = .shared ∧ slot.holders.length < 4) →
        (wait = false → a.outcome = .busy ∧ a.mode = none ∧ a.table = t) ∧
        (wait = true → 4 ≤ slot.waiters.length → a.outcome = .queueFull ∧ a.mode = none ∧ a.table = t) ∧
        (wait = true → slot.waiters.length < 4 → a.outcome = .queued ∧ a.mode = some mode ∧
          a.table = t.set i (some { slot with
            waiters := slot.waiters ++ [{ station := p, wanted := mode, term := term }] }) ∧
          (slot.waiters = [] → slot.holders ≠ [] →
            grantable slot.mode slot.holders { station := p, wanted := mode, term := term } = false))))

/-- R17, the RENEW itself: the one record of the sender is set to the term in place, or the table stands. R14, R15,
R16: a RELEASE from a holder removes its record and promotes; one from a waiter cancels it, and promotes only where
it was the head waiter; from any other station, or for an absent key, the table stands. Neither answer carries a mode
(R18), and a RENEW sets no promotion going. -/
def Obligations.RenewAndReleaseOutcomes : Prop :=
  ∀ (own p : Station) (q : Seq) (key : Key) (term : Nat) (t : Table),
    let n := applyRenew p key term t
    let a := applyRelease own q p key t
    n.mode = none ∧ n.reports = [] ∧ a.mode = none ∧
    (findKey key t = none →
      n.outcome = .notHeld ∧ n.table = t ∧ a.outcome = .notHeld ∧ a.table = t ∧ a.reports = []) ∧
    (∀ i slot, findKey key t = some (i, slot) →
      let holders := slot.holders.filter (fun h => decide (h.station ≠ p))
      let waiters := slot.waiters.filter (fun w => decide (w.station ≠ p))
      (slotHasHolder p slot = true →
        n.outcome = .renewed ∧
        n.table = t.set i (some { slot with
          holders := slot.holders.map fun h => if h.station = p then { h with remaining := term } else h }) ∧
        a.outcome = .released ∧ a.table = t.set i (promote own q { slot with holders := holders }).1 ∧
        a.reports = (promote own q { slot with holders := holders }).2) ∧
      (slotHasHolder p slot = false →
        n.outcome = .notHeld ∧ n.table = t ∧
        (slotHasWaiter p slot = true → a.outcome = .cancelled ∧
          (∀ w ws, slot.waiters = w :: ws →
            (w.station = p → a.table = t.set i (promote own q { slot with waiters := waiters }).1 ∧
              a.reports = (promote own q { slot with waiters := waiters }).2) ∧
            (w.station ≠ p → a.table = t.set i (some { slot with waiters := waiters }) ∧ a.reports = []))) ∧
        (slotHasWaiter p slot = false → a.outcome = .notHeld ∧ a.table = t ∧ a.reports = [])))

/-- R6, R7, R8, R20: while the head waiter is grantable, promotion takes it from the list and appends it to the holders
with its term as remaining beats; the slot takes the wanted mode of a waiter promoted into an empty holder list, and the
own station gets a GRANTED with the mode after that pass; the waiters behind keep their order and are tested in turn. It
leaves a head waiter that is not grantable, a slot with no waiters stands, and one with nobody in it is freed. The purge
of a station takes its records out slot by slot, in ascending index, and promotes each slot where it had one; after
it no slot has a record of the station, and a slot where it had none stands. -/
def Obligations.PromotionAndPurge : Prop :=
  ∀ (own p : Station) (q : Seq) (t : Table) (s : Slot),
    let left (x : Slot) : Slot := { x with
      holders := x.holders.filter fun h => decide (h.station ≠ p)
      waiters := x.waiters.filter fun w => decide (w.station ≠ p) }
    (∀ w, grantable s.mode s.holders w = true ↔
      s.holders = [] ∨ (s.mode = .shared ∧ w.wanted = .shared ∧ s.holders.length < 4)) ∧
    (s.waiters = [] → promote own q s = (if s.holders = [] then none else some s, [])) ∧
    (∀ w ws, s.waiters = w :: ws →
      (grantable s.mode s.holders w = false → promote own q s = (some s, [])) ∧
      (grantable s.mode s.holders w = true →
        let mode := if s.holders = [] then w.wanted else s.mode
        let after := promote own q
          { key := s.key, mode := mode, waiters := ws
            holders := s.holders ++ [{ station := w.station, remaining := w.term }] }
        promote own q s = (after.1, (if w.station = own then
          [{ origin := .table, outcome := .granted, key := s.key, mode := some mode, seq := q }] else []) ++
            after.2))) ∧
    (∀ s' w ws, (promote own q s).1 = some s' → s'.waiters = w :: ws →
      grantable s'.mode s'.holders w = false) ∧
    ((promote own q s).1 = none ↔ s.holders = [] ∧ s.waiters = []) ∧
    (some s ∈ (purge own q p t).1 → slotHas p s = false) ∧
    (∀ i : Nat, t[i]? = some (some s) → slotHas p s = false → (purge own q p t).1[i]? = some (some s)) ∧
    (∀ i : Nat, t[i]? = some (some s) → slotHas p s = true →
      (purge own q p t).1[i]? = some (promote own q (left s)).1) ∧
    (purge own q p t).2 = ((t.filterMap id).filter (slotHas p)).flatMap fun x => (promote own q (left x)).2

/-- The laws of the table (R1..R6) are kept by each request with a term of at least 1, by the BEAT's
countdown and by a purge. -/
def Obligations.TableStaysLawful : Prop :=
  ∀ (own p : Station) (q : Seq) (key : Key) (mode : Mode) (wait : Bool) (term : Nat) (t : Table),
    TableLawful t →
    (0 < term → TableLawful (applyAcquire p key mode wait term t).table) ∧
    TableLawful (applyRelease own q p key t).table ∧
    (0 < term → TableLawful (applyRenew p key term t).table) ∧
    TableLawful (countDown own q t).1 ∧ TableLawful (purge own q p t).1

/-- R130: the streak count is 0 after hardware reset and at exit from membership, and changes at each frame end
by the rows of its table; a frame end that leaves it below 4 and draws no objection has no other say in it. -/
def Obligations.StreakFollowsTheFrameEnd : Prop :=
  State.reset.sel.streak = 0 ∧
  (∀ (s : State) (cause : ExitCause) (st : StationState), (s.exit cause st).sel.streak = 0) ∧
  (∀ (s : State) (first : FirstTrigger) (e : FrameEnd), nextStreak s.sel.streak e < 4 →
    (s.frameEnd first e none).sel.streak = nextStreak s.sel.streak e) ∧
  (∀ (n : Nat) (e : FrameEnd),
    (e.sent ≠ .broken → e.raised = .error → nextStreak n e = n + 1) ∧
    (e.sent ≠ .broken → e.clean = true → e.raised = .nothing ∨ e.raised = .refusal → nextStreak n e = 0) ∧
    (e.raised = .breakSeen → nextStreak n e = n) ∧
    (e.sent = .broken → nextStreak n e = n) ∧
    (e.clean = false → e.raised = .nothing → nextStreak n e = n))

/-- R163, R172, R178, R179: requests and claims agree, the reservation equals what they hold, and the entries with it
stay within 40, through every event of the desk: an acceptance, the completion of the head request in every way
it can complete, a TABLE report, the pre-check's completions, a STOP, and the exit, after which the reservation is
0. A TAKE's removal keeps it too. Reports are taken in the order they are handed over; an OWN_FRAME report completes the
head request (R166). A TABLE report is matched to the claim with its key (R169): GRANTED makes a WAITING claim HELD and
EXPIRED removes a HELD one, each with its notice, for which 1 of the claim's reservation is consumed; any other finds
no row and is discarded. -/
def Obligations.BudgetIsKept : Prop :=
  Desk.reset.Lawful ∧
  (∀ (d : Desk) (r : Report), d.takeReports [] = d ∧ (∀ rs, d.takeReports (r :: rs) = (d.takeReport r).takeReports rs) ∧
    (r.origin = .ownFrame → d.takeReport r = d.concludeHead r.outcome r.mode (some r.seq)) ∧
    (r.origin = .table → (∀ c ∈ d.claims, c.key ≠ r.key) → d.takeReport r = d) ∧
    (∀ c, r.origin = .table → d.claimFor r.key = some c →
      (r.outcome = .granted → c.state = .waiting → d.takeReport r = { d with
        claims := d.claims.map fun x => if x.key = r.key then { x with state := .held } else x
        notices := d.notices ++
          [{ kind := .granted, ticket := c.ticket, key := r.key, mode := r.mode, seq := some r.seq }]
        reservation := d.reservation - 1 }) ∧
      (r.outcome = .expired → c.state = .held → d.takeReport r = { d with
        claims := d.claims.filter fun x => decide (x.key ≠ r.key)
        notices := d.notices ++
          [{ kind := .expired, ticket := c.ticket, key := r.key, mode := none, seq := some r.seq }]
        reservation := d.reservation - 1 }) ∧
      (¬ (r.outcome = .granted ∧ c.state = .waiting) → ¬ (r.outcome = .expired ∧ c.state = .held) →
        d.takeReport r = d))) ∧
  ∀ d : Desk, d.Lawful →
    (∀ (s : State) (kind : RequestKind) (key : Key) (o t : Byte), s.desk = d → s.admission kind key o t = .ok →
      (d.accept (requestRecord kind key o t d.nextTicket)).Lawful) ∧
    (∀ (r : Request) (rs : List Request) (o : Outcome) (mode : Option Mode) (q : Option Seq),
      d.requests = r :: rs → completes r.kind o = true →
      (o = .released ∨ o = .cancelled → ∀ c ∈ d.claims, c.key = r.key → c.state ≠ .pending) →
      (d.concludeHead o mode q).Lawful) ∧
    (∀ r : Report, (d.tableReport r).Lawful) ∧
    (∀ n, (Desk.preCheck n d).Lawful) ∧
    (∀ ts, (d.abortQueue ts).Lawful) ∧
    (∀ q, (d.exitReport q).Lawful ∧ (d.exitReport q).reservation = 0) ∧
    ({ d with notices := d.notices.tail } : Desk).Lawful

/-- R171: at an exit every queued request completes with ABORTED, head first, and every remaining claim ends
PURGED, oldest first, behind the notices already queued; queue and claims are empty, the counter stands. -/
def Obligations.ExitReportsEveryEnd : Prop :=
  ∀ (d : Desk) (q : Seq),
    (d.exitReport q).requests = [] ∧ (d.exitReport q).claims = [] ∧ (d.exitReport q).nextTicket = d.nextTicket ∧
    (d.exitReport q).notices = d.notices ++
      d.requests.map (fun r => { kind := .done .aborted, ticket := r.ticket, key := r.key, mode := none, seq := none }) ++
      (d.claims.filter fun c => d.requests.all fun r => !(r.kind == .acquire && r.key == c.key)).map
        (fun c => { kind := .purged, ticket := c.ticket, key := c.key, mode := none, seq := some q })
end

