-- ==== Sys2Proof/Laws/Apply.lean ====
section
/-! SUPPORT. What an applied frame leaves alone, in every state. -/

namespace Sys2Proof.Machine

/-- The second state has the first's pins, LIU, port, draws, queue, straps, configured flag and interval. -/
structure State.Beside (s t : State) : Prop where
  pins : t.pins = s.pins
  liu : t.liu = s.liu
  port : t.port = s.port
  freeDraws : t.freeDraws = s.freeDraws
  pending : t.pending = s.pending
  station : t.ctl.station = s.ctl.station
  rate : t.ctl.rate = s.ctl.rate
  configured : t.ctl.configured = s.ctl.configured
  interval : t.timer.interval = s.timer.interval

theorem State.Beside.refl (s : State) : s.Beside s := ⟨rfl, rfl, rfl, rfl, rfl, rfl, rfl, rfl, rfl⟩

theorem State.Beside.trans {a b c : State} (h : a.Beside b) (k : b.Beside c) : a.Beside c :=
  ⟨k.1.trans h.1, k.2.trans h.2, k.3.trans h.3, k.4.trans h.4, k.5.trans h.5, k.6.trans h.6, k.7.trans h.7,
    k.8.trans h.8, k.9.trans h.9⟩

theorem exit_beside (c : ExitCause) (st : StationState) (s : State) : s.Beside (s.exit c st) :=
  ⟨rfl, rfl, rfl, rfl, rfl, rfl, rfl, rfl, rfl⟩

theorem exitOn_beside (c : ExitCause) (s : State) : s.Beside (s.exitOn c) := by
  unfold State.exitOn
  split
  · exact exit_beside _ _ s
  · exact .refl s

theorem enterSynced_beside (s : State) : s.Beside s.enterSynced :=
  ⟨rfl, rfl, rfl, rfl, rfl, rfl, rfl, rfl, rfl⟩

theorem withdraw_beside (k : LeaveKind) (s : State) : s.Beside (s.withdraw k) :=
  ⟨rfl, rfl, rfl, rfl, rfl, rfl, rfl, rfl, rfl⟩

theorem abandonLoad_beside (s : State) : s.Beside s.abandonLoad := by
  unfold State.abandonLoad
  dsimp only
  split <;> exact ⟨rfl, rfl, rfl, rfl, rfl, rfl, rfl, rfl, rfl⟩

theorem completeLoad_beside (s : State) : s.Beside s.completeLoad := by
  unfold State.completeLoad
  split
  · exact .refl s
  · exact ⟨rfl, rfl, rfl, rfl, rfl, rfl, rfl, rfl, rfl⟩

theorem startLoad_beside (p : Station) (b : HeadBody) (s : State) : s.Beside (s.startLoad p b) := by
  have a : s.Beside (s.loadBegun p b) := ⟨rfl, rfl, rfl, rfl, rfl, rfl, rfl, rfl, rfl⟩
  unfold State.startLoad
  split
  · exact a.trans (completeLoad_beside _)
  · exact a

theorem settleCandidates_beside (s : State) : s.Beside s.settleCandidates := by
  unfold State.settleCandidates
  dsimp only
  split <;> split <;> exact ⟨rfl, rfl, rfl, rfl, rfl, rfl, rfl, rfl, rfl⟩

theorem memberApplied_beside (f : Frame) (own : Bool) (s : State) : s.Beside (s.memberApplied f own) := by
  unfold State.memberApplied State.memberParts
  dsimp only
  split <;> (try split) <;> exact ⟨rfl, rfl, rfl, rfl, rfl, rfl, rfl, rfl, rfl⟩

theorem applyMember_beside (f : Frame) (own : Bool) (s : State) : s.Beside (s.applyMember f own) := by
  have a := (memberApplied_beside f own s).trans (settleCandidates_beside _)
  unfold State.applyMember
  dsimp only
  split
  · exact a.trans (exitOn_beside _ _)
  · exact a

theorem groupFrame_beside (q : Option (List Station)) (s : State) : s.Beside (s.groupFrame q) := by
  have a : s.Beside s.groupNoted := by
    unfold State.groupNoted
    dsimp only
    split <;> exact ⟨rfl, rfl, rfl, rfl, rfl, rfl, rfl, rfl, rfl⟩
  cases q with
  | none => exact a
  | some q =>
    refine a.trans ?_
    show s.groupNoted.Beside (s.groupNoted.queueRead q)
    unfold State.queueRead
    split
    · exact ⟨rfl, rfl, rfl, rfl, rfl, rfl, rfl, rfl, rfl⟩
    · split <;> exact ⟨rfl, rfl, rfl, rfl, rfl, rfl, rfl, rfl, rfl⟩

theorem joinSeen_beside (j : Station) (own : Bool) (s : State) : s.Beside (s.joinSeen j own) := by
  unfold State.joinSeen
  dsimp only
  split <;> split <;> exact ⟨rfl, rfl, rfl, rfl, rfl, rfl, rfl, rfl, rfl⟩

theorem applyJoining_beside (f : Frame) (own : Bool) (s : State) : s.Beside (s.applyJoining f own) := by
  unfold State.applyJoining
  split
  · exact joinSeen_beside _ _ s
  · split
    · exact (⟨rfl, rfl, rfl, rfl, rfl, rfl, rfl, rfl, rfl⟩ : s.Beside (s.foundGroup _))
    · exact groupFrame_beside _ s
  · dsimp only
    split
    · exact (groupFrame_beside _ s).trans (startLoad_beside _ _ _)
    · exact groupFrame_beside _ s
  all_goals exact groupFrame_beside _ s

theorem record_beside (f : Frame) (s : State) : s.Beside (s.record f) := by
  unfold State.record
  split
  · split <;> exact ⟨rfl, rfl, rfl, rfl, rfl, rfl, rfl, rfl, rfl⟩
  · exact .refl s

theorem partTaken_beside (b : PartBody) (t : Transfer) (s : State) : s.Beside (s.partTaken b t) := by
  unfold State.partTaken
  dsimp only
  split
  · split
    · refine State.Beside.trans ?_ (completeLoad_beside _)
      exact ⟨rfl, rfl, rfl, rfl, rfl, rfl, rfl, rfl, rfl⟩
    · exact ⟨rfl, rfl, rfl, rfl, rfl, rfl, rfl, rfl, rfl⟩
  · exact ⟨rfl, rfl, rfl, rfl, rfl, rfl, rfl, rfl, rfl⟩

theorem idleBeat_beside (t : Transfer) (s : State) : s.Beside (s.idleBeat t) := by
  unfold State.idleBeat
  split
  · exact abandonLoad_beside s
  · exact ⟨rfl, rfl, rfl, rfl, rfl, rfl, rfl, rfl, rfl⟩

theorem beatTracked_beside (p : Station) (t : Transfer) (s : State) : s.Beside (s.beatTracked p t) := by
  unfold State.beatTracked
  split
  · exact idleBeat_beside t s
  · split
    · exact abandonLoad_beside s
    · refine State.Beside.trans ?_ (idleBeat_beside t _)
      exact ⟨rfl, rfl, rfl, rfl, rfl, rfl, rfl, rfl, rfl⟩

theorem applyLoading_beside (f : Frame) (own : Bool) (s : State) : s.Beside (s.applyLoading f own) := by
  unfold State.applyLoading
  dsimp only
  split
  · exact ⟨rfl, rfl, rfl, rfl, rfl, rfl, rfl, rfl, rfl⟩
  · rename_i t _
    generalize hu : (if (f.sender == t.sender) = true then _ else _) = u
    have a : s.Beside u := by
      subst hu
      split <;> exact ⟨rfl, rfl, rfl, rfl, rfl, rfl, rfl, rfl, rfl⟩
    refine a.trans ?_
    split
    · exact (record_beside f u).trans (beatTracked_beside _ _ _)
    · exact record_beside f u
    · exact .refl u
    · split
      · exact partTaken_beside _ _ _
      · exact .refl u
    · split
      · exact (abandonLoad_beside u).trans (groupFrame_beside _ _)
      · exact abandonLoad_beside u
    · exact .refl u
    · split
      · exact abandonLoad_beside u
      · exact record_beside f u
    · exact record_beside f u
    · exact record_beside f u
    · exact record_beside f u
    · split
      · refine State.Beside.trans ?_ (abandonLoad_beside _)
        exact ⟨rfl, rfl, rfl, rfl, rfl, rfl, rfl, rfl, rfl⟩
      · exact record_beside f u

/-- An applied frame leaves all this alone, in every state. -/
theorem applyFrame_beside (f : Frame) (own : Bool) (s : State) : s.Beside (s.applyFrame f own) := by
  unfold State.applyFrame
  split
  · exact .refl s
  · exact .refl s
  · exact applyJoining_beside f own s
  · exact applyLoading_beside f own s
  · exact applyMember_beside f own s
  · exact applyMember_beside f own s
  · split
    · exact exitOn_beside _ s
    · exact .refl s
  · split
    · exact exitOn_beside _ s
    · exact .refl s
  · exact .refl s

end Sys2Proof.Machine
end

