-- ==== Sys2Proof/Laws/Codec.lean ====
section
/-! SUPPORT. The layouts read back what they wrote, part by part: numbers of several characters, the fields
of each body, the bits of a character; and a frame sent is a frame carried. -/

namespace Sys2Proof.Machine

@[simp] theorem leBytes_length (n v : Nat) : (leBytes n v).length = n := by
  induction n generalizing v with
  | zero => rfl
  | succ n ih => simp [leBytes, ih]

/-- A number of several characters, read back. -/
theorem leNat_leBytes (n v : Nat) : leNat (leBytes n v) = v % 256 ^ n := by
  induction n generalizing v with
  | zero => simp [leBytes, leNat, Nat.mod_one]
  | succ n ih =>
    simp only [leBytes, leNat, ih, BitVec.toNat_ofNat]
    have h : v % 256 ^ (n + 1) = v % 256 + 256 * (v / 256 % 256 ^ n) := by
      rw [Nat.pow_succ, Nat.mul_comm (256 ^ n) 256, Nat.mod_mul]
    exact h.symm

theorem leNat_leBytes_toNat {w : Nat} (n : Nat) (hw : w = 8 * n) (v : BitVec w) :
    leNat (leBytes n v.toNat) = v.toNat := by
  subst hw
  rw [leNat_leBytes, Nat.mod_eq_of_lt]
  have := v.isLt
  rw [Nat.pow_mul] at this
  exact this

theorem word_of_two (k : BitVec 16) : BitVec.ofNat 16 (leNat (leBytes 2 k.toNat)) = k := by
  rw [leNat_leBytes_toNat 2 rfl]
  simp

/-- The two characters of a key, as the parsers match them. -/
theorem leBytes_two (v : Nat) : leBytes 2 v = [BitVec.ofNat 8 v, BitVec.ofNat 8 (v / 256)] := rfl

theorem leBytes_four (v : Nat) : leBytes 4 v = [BitVec.ofNat 8 v, BitVec.ofNat 8 (v / 256),
    BitVec.ofNat 8 (v / 256 / 256), BitVec.ofNat 8 (v / 256 / 256 / 256)] := rfl

/-- The content of a HEAD or FOUND, read back. -/
theorem parseHead_headContent (b : HeadBody) (h : b.entries.length = 4) : parseHead (headContent b) = some b := by
  obtain ⟨j, q, n, r, s, c, es⟩ := b
  have hq := word_of_two q
  have hr : BitVec.ofNat 32 (leNat (leBytes 4 r.toNat)) = r := by
    rw [leNat_leBytes_toNat 4 rfl]; simp
  have hs : BitVec.ofNat 128 (leNat (leBytes 16 s.toNat)) = s := by
    rw [leNat_leBytes_toNat 16 rfl]; simp
  rw [leBytes_two] at hq
  rw [leBytes_four] at hr
  simp only [headContent, leBytes_two, leBytes_four, List.cons_append, List.nil_append, List.append_assoc]
  simp only [parseHead]
  have hd : (leBytes 16 s.toNat ++ c :: es).drop 16 = c :: es := by
    rw [List.drop_append_of_le_length (by simp)]
    simp [List.drop_eq_nil_of_le]
  have ht : (leBytes 16 s.toNat ++ c :: es).take 16 = leBytes 16 s.toNat := by
    rw [List.take_append_of_le_length (by simp)]
    exact List.take_of_length_le (by simp)
  simp only [hd, ht]
  rw [if_pos h, hq, hr, hs]

theorem low_of_append {m : Nat} (u : BitVec m) (x : BitVec 5) : (u ++ x).extractLsb' 0 5 = x := by
  ext i hi
  simp [BitVec.getElem_extractLsb', BitVec.getLsbD_append, hi]

theorem high_of_append (u : BitVec 3) (x : BitVec 5) : (u ++ x).extractLsb' 5 3 = u := by
  ext i hi
  rw [BitVec.getElem_extractLsb', BitVec.getLsbD_append]
  simp [hi]

theorem middle_of_append (u : BitVec 1) (m : BitVec 2) (x : BitVec 5) :
    (u ++ m ++ x).extractLsb' 5 2 = m := by
  ext i hi
  rw [BitVec.getElem_extractLsb', BitVec.getLsbD_append, BitVec.getLsbD_append]
  simp [hi]

theorem top_of_append (u : BitVec 1) (m : BitVec 2) (x : BitVec 5) : (u ++ m ++ x).extractLsb' 7 1 = u := by
  ext i hi
  obtain rfl : i = 0 := by omega
  rw [BitVec.getElem_extractLsb', BitVec.getLsbD_append, BitVec.getLsbD_append]
  simp

theorem ofNat_val_toFin (p : Station) : (BitVec.ofNat 5 p.val).toFin = p := by
  apply Fin.ext
  simp

/-- A holder record of a PART, read back. -/
theorem parseHolder_read (x : HolderField) :
    parseHolder (x.unused ++ BitVec.ofNat 5 x.station.val) x.remaining = x := by
  unfold parseHolder
  rw [low_of_append, high_of_append, ofNat_val_toFin]

/-- A waiter record of a PART, read back. -/
theorem parseWaiter_read (x : WaiterField) :
    parseWaiter (x.unused ++ x.wanted ++ BitVec.ofNat 5 x.station.val) x.term = x := by
  unfold parseWaiter
  rw [low_of_append, middle_of_append, top_of_append, ofNat_val_toFin]

/-- The slot summary's three fields, read back. -/
theorem summary_read (m : BitVec 2) (h w : Nat) (hh : h ≤ 7) (hw : w ≤ 7) :
    (summaryByte m h w).extractLsb' 6 2 = m ∧ ((summaryByte m h w).extractLsb' 3 3).toNat = h ∧
      ((summaryByte m h w).extractLsb' 0 3).toNat = w := by
  have h1 : (m ++ BitVec.ofNat 3 h ++ BitVec.ofNat 3 w).extractLsb' 6 2 = m := by
    ext i hi
    rw [BitVec.getElem_extractLsb', BitVec.getLsbD_append, BitVec.getLsbD_append]
    simp [hi, show ¬ 6 + i < 3 by omega, show 6 + i - 3 = 3 + i by omega]
  have h2 : (m ++ BitVec.ofNat 3 h ++ BitVec.ofNat 3 w).extractLsb' 3 3 = BitVec.ofNat 3 h := by
    ext i hi
    rw [BitVec.getElem_extractLsb', BitVec.getLsbD_append, BitVec.getLsbD_append]
    simp [hi]
  have h3 : (m ++ BitVec.ofNat 3 h ++ BitVec.ofNat 3 w).extractLsb' 0 3 = BitVec.ofNat 3 w := by
    ext i hi
    rw [BitVec.getElem_extractLsb', BitVec.getLsbD_append, BitVec.getLsbD_append]
    simp [hi]
  unfold summaryByte
  refine ⟨h1, ?_, ?_⟩
  · rw [h2, BitVec.toNat_ofNat]
    omega
  · rw [h3, BitVec.toNat_ofNat]
    omega

theorem pairs_holders (l : List HolderField) : pairs parseHolder (l.flatMap holderChars) = l := by
  induction l with
  | nil => rfl
  | cons x l ih =>
    simp only [List.flatMap_cons, holderChars, List.cons_append, List.nil_append, pairs, parseHolder_read]
    rw [ih]

theorem pairs_waiters (l : List WaiterField) : pairs parseWaiter (l.flatMap waiterChars) = l := by
  induction l with
  | nil => rfl
  | cons x l ih =>
    simp only [List.flatMap_cons, waiterChars, List.cons_append, List.nil_append, pairs, parseWaiter_read]
    rw [ih]

@[simp] theorem holderChars_length (l : List HolderField) : (l.flatMap holderChars).length = 2 * l.length := by
  induction l with
  | nil => rfl
  | cons x l ih => simp [holderChars, ih]; omega

@[simp] theorem waiterChars_length (l : List WaiterField) : (l.flatMap waiterChars).length = 2 * l.length := by
  induction l with
  | nil => rfl
  | cons x l ih => simp [waiterChars, ih]; omega

/-- The content of a PART, read back. -/
theorem parsePart_partContent (b : PartBody) (hh : b.holders.length ≤ 7) (hw : b.waiters.length ≤ 7) :
    parsePart (partContent b) = some b := by
  obtain ⟨i, s, k, m, hs, ws⟩ := b
  have hk := word_of_two k
  rw [leBytes_two] at hk
  obtain ⟨s1, s2, s3⟩ := summary_read m hs.length ws.length hh hw
  simp only [partContent, leBytes_two, List.cons_append, List.nil_append, parsePart, s1, s2, s3, hk]
  have hd : (hs.flatMap holderChars ++ ws.flatMap waiterChars).drop (2 * hs.length) =
      ws.flatMap waiterChars := by
    rw [← holderChars_length hs, List.drop_left]
  have ht : (hs.flatMap holderChars ++ ws.flatMap waiterChars).take (2 * hs.length) =
      hs.flatMap holderChars := by
    rw [← holderChars_length hs, List.take_left]
  rw [if_pos (by rw [List.length_append, holderChars_length, waiterChars_length]; omega), hd, ht, pairs_holders,
    pairs_waiters]

/-- The header's two fields, read back. -/
theorem header_read (f : Frame) :
    headerClass (headerByte f) = f.body.cls ∧ headerSender (headerByte f) = f.sender := by
  have hc : f.body.cls < 8 := by cases f.body <;> simp [Body.cls]
  have hs := f.sender.isLt
  constructor
  · simp only [headerClass, headerByte, BitVec.extractLsb'_toNat, BitVec.toNat_ofNat, Nat.shiftRight_eq_div_pow]
    omega
  · apply Fin.ext
    simp only [headerSender, headerByte, BitVec.toFin_extractLsb', BitVec.toNat_ofNat, Fin.val_ofNat]
    omega

/-! ## Characters as bits -/

/-- The bits of a character, taken back in the order they went out. -/
theorem charOfBits_charBits (isHeader : Bool) (b : Byte) : charOfBits isHeader (charBits isHeader b) = b := by
  have h : charOfBits false (charBits false b) = b := by
    have all : ∀ n : Fin 256, charOfBits false (charBits false (BitVec.ofFin n)) = BitVec.ofFin n := by
      decide +kernel
    exact all b.toFin
  cases isHeader
  · exact h
  · simpa [charOfBits, charBits] using h

/-! ## The own frame on the line -/

/-- Cells sampled as they were sent carry the frame (R148). -/
theorem contest_self (i : Nat) (l : List Bool) : contest i l l = .carried := by
  induction l generalizing i with
  | nil => rfl
  | cons b l ih => simp [contest, ih]

/-- The own frame, heard cell for cell, is carried. -/
@[simp] theorem sentOf_own (o : Offer) (n : Nat) (w : List Bool) :
    sentOf (some o) (hear o.frame n w).levels = .carried :=
  contest_self 0 _

/-- Bits as a number, most significant first. -/
def natOfBits (bits : List Bool) : Nat := bits.foldl (fun n b => 2 * n + b.toNat) 0

theorem natOfBits_foldl (bits : List Bool) (n : Nat) :
    bits.foldl (fun n b => 2 * n + b.toNat) n = 2 ^ bits.length * n + natOfBits bits := by
  unfold natOfBits
  induction bits generalizing n with
  | nil => simp
  | cons b bits ih =>
    rw [List.foldl_cons, List.foldl_cons, ih, ih (2 * 0 + b.toNat), List.length_cons, Nat.pow_succ]
    ring

theorem natOfBits_cons (b : Bool) (bits : List Bool) : natOfBits (b :: bits) = 2 ^ bits.length * b.toNat + natOfBits bits := by
  conv => lhs; unfold natOfBits
  rw [List.foldl_cons, natOfBits_foldl]
  simp

theorem natOfBits_lt (bits : List Bool) : natOfBits bits < 2 ^ bits.length := by
  induction bits with
  | nil => decide
  | cons b bits ih =>
    rw [natOfBits_cons, List.length_cons, Nat.pow_succ]
    cases b <;> simp <;> omega

/-- Header data cells against those of a lower header lose (R147). -/
theorem contest_lower {xs ys : List Bool} (i : Nat) (r r' : List Bool) (h1 : 1 ≤ i) (h2 : i + ys.length ≤ 9)
    (hl : xs.length = ys.length) (h : natOfBits xs < natOfBits ys) :
    contest i (ys.map not ++ r) (xs.map not ++ r') = .lost := by
  induction ys generalizing xs i with
  | nil => simp [natOfBits] at h
  | cons y ys ih =>
    cases xs with
    | nil => simp at hl
    | cons x xs =>
      simp only [List.length_cons, Nat.add_right_cancel_iff] at hl h2
      have hx := natOfBits_lt xs
      have hy := natOfBits_lt ys
      rw [natOfBits_cons, natOfBits_cons] at h
      rw [hl] at h hx
      have h8 : i ≤ 8 := by omega
      cases x <;> cases y <;> simp [contest, h1, h8] at h ⊢
      · exact ih (i + 1) (by omega) (by omega) hl h
      · omega
      · exact ih (i + 1) (by omega) (by omega) hl h

/-- A header's number is that of its bits in the order they go out (R100). -/
theorem natOfBits_charBits (b : Byte) : natOfBits (charBits true b) = b.toNat := by
  revert b
  decide +kernel

/-- The own frame loses to one with a lower header (R147). -/
theorem sentOf_lower {o : Offer} {f : Frame} (n : Nat) (w : List Bool) (h : headerByte f < headerByte o.frame) :
    sentOf (some o) (hear f n w).levels = .lost := by
  have e : ∀ g : Frame, frameLevels g = true :: ((charBits true (headerByte g)).map not ++
      (false :: (bodyChars g.body ++ [crc (uncheckedChars g)]).flatMap (charLevels false))) := fun g => by
    simp [frameLevels, encodeFrame, uncheckedChars, levelsOf, charLevels]
  show contest 0 (frameLevels o.frame) (frameLevels f) = .lost
  rw [e, e]
  show contest 1 _ _ = .lost
  exact contest_lower 1 _ _ (Nat.le_refl 1) (Nat.le_refl 9) rfl
    (by rw [natOfBits_charBits, natOfBits_charBits]; exact BitVec.lt_def.mp h)

/-! ## Phases to cells -/

/-- A cell held at one level for its twelve phases. -/
def heldCell (l : Bool) : Cell := { s5 := l, s6 := l, s7 := l }

/-- Twelve looks at one level from a cell boundary close one cell of that level, and leave a cell boundary. -/
theorem looks_held (seen l : Bool) (ls : List Bool) :
    looks (Sampler.boundary seen) (List.replicate 12 l ++ ls) =
      ((looks (Sampler.boundary l) ls).1,
        { edge := l && !seen, cut := false, cell := heldCell l } :: (looks (Sampler.boundary l) ls).2) := by
  cases seen <;> cases l <;>
    simp [List.replicate, looks, look, Sampler.boundary, Sampler.close, closeCell, heldCell]

/-- LINE held at each level for its twelve phases gives one cell of each level (R140, R141). -/
theorem cellsOf_held (levels : List Bool) (seen : Bool) :
    cellsOf (Sampler.boundary seen) (levels.flatMap (List.replicate 12)) = levels.map heldCell := by
  unfold cellsOf
  induction levels generalizing seen with
  | nil => cases seen <;> rfl
  | cons l ls ih =>
    rw [List.flatMap_cons, List.append_assoc, looks_held]
    simp only [List.map_cons, ih]

end Sys2Proof.Machine
end

