-- ==== Sys2Proof/Laws/Content.lean ====
section
/-! SUPPORT. What each test of a frame's content finds, as chapter 5 lists it (R77, R112, R113, R114). -/

namespace Sys2Proof.Machine

/-! ## The tests that need the frame alone -/

theorem allDistinct_iff {α : Type} [BEq α] [LawfulBEq α] (l : List α) : allDistinct l = true ↔ l.Nodup := by
  induction l with
  | nil => simp [allDistinct]
  | cons a l ih => simp [allDistinct, ih]

theorem mem_stations (p : Station) : p ∈ stations := by revert p; decide

theorem silenceMalformed_iff (b : HeadBody) (p : Station) : silenceMalformed b p = true ↔
    (b.rosterSet.getLsbD p.val = true ∧ 7 < (b.silences.extractLsb' (4 * p.val) 4).toNat) ∨
    (b.rosterSet.getLsbD p.val = false ∧ (b.silences.extractLsb' (4 * p.val) 4).toNat ≠ 0) := by
  unfold silenceMalformed carriedSilence
  cases b.rosterSet.getLsbD p.val <;> simp

/-- R112 of both. -/
theorem bothMalformed_iff (b : HeadBody) : bothMalformed b = true ↔ EitherMalformed b := by
  have d : (!allDistinct (countedEntries b)) = true ↔ ¬ (countedEntries b).Nodup := by
    rw [← allDistinct_iff]
    simp
  unfold bothMalformed EitherMalformed
  simp only [Bool.or_eq_true, d, silenceMalformed_iff, List.any_eq_true, mem_stations, true_and, decide_eq_true_eq, or_assoc]
  exact Iff.rfl

/-- A number given as a character is marked where a station has that number. -/
theorem marked_iff (b : HeadBody) (e : Byte) :
    marked b e = true ↔ ∃ p : Station, p.val = e.toNat ∧ b.rosterSet.getLsbD p.val = true := by
  unfold marked
  simp only [Bool.and_eq_true, decide_eq_true_eq]
  constructor
  · rintro ⟨h, m⟩
    exact ⟨⟨e.toNat, h⟩, rfl, m⟩
  · rintro ⟨p, h, m⟩
    rw [← h]
    exact ⟨p.isLt, m⟩

/-- R112 of a HEAD. -/
theorem headMalformed_iff (sender : Station) (b : HeadBody) : headMalformed sender b = true ↔ HeadMalformed sender b := by
  unfold headMalformed HeadMalformed
  simp only [Bool.or_eq_true, bothMalformed_iff, marked_iff, List.any_eq_true, bne_iff_ne, or_assoc, beq_iff_eq,
    Bool.not_eq_true']
  by_cases hc : b.queueCount = 0
  · simp [hc]
  · have hn : b.queueCount.toNat ≠ 0 := fun h => hc (BitVec.eq_of_toNat_eq h)
    have he : (b.entries.take b.queueCount.toNat).head? = b.entries.head? := by
      rw [List.head?_take, if_neg hn]
    rw [he]
    exact Iff.rfl

/-- The roster set marks this station alone where each position agrees. -/
theorem aloneSet_iff (set : BitVec 32) (p : Station) :
    set ≠ BitVec.ofNat 32 (2 ^ p.val) ↔ ∃ k : Station, set.getLsbD k.val ≠ decide (k = p) := by
  have e : ∀ k : Station, (BitVec.ofNat 32 (2 ^ p.val)).getLsbD k.val = decide (k = p) := by
    intro k
    rw [BitVec.getLsbD_ofNat, Nat.testBit_two_pow]
    simp [k.isLt, Fin.ext_iff, eq_comm]
  constructor
  · intro h
    by_contra hk
    push Not at hk
    refine h (BitVec.eq_of_getLsbD_eq fun i hi => ?_)
    rw [hk ⟨i, hi⟩, e ⟨i, hi⟩]
  · rintro ⟨k, hk⟩ h
    exact hk (by rw [h, e])

/-- R112 of a FOUND. -/
theorem foundMalformed_iff (sender : Station) (b : HeadBody) :
    foundMalformed sender b = true ↔ FoundMalformed sender b := by
  unfold foundMalformed FoundMalformed
  simp only [Bool.or_eq_true, bothMalformed_iff, bne_iff_ne, or_assoc, decide_eq_true_eq, List.any_eq_true, beq_iff_eq,
    aloneSet_iff, countedEntries]

/-- A mode code and the mode it is read as (R104). -/
theorem carriedMode_eq (c : BitVec 2) : carriedMode c = if c = 1 then .shared else .exclusive := by revert c; decide

theorem modeOf_isNone (c : BitVec 2) : (modeOf c).isNone = true ↔ 2 ≤ c.toNat := by revert c; decide

/-- The carried head waiter is grantable by R6, judged against the carried holders. -/
theorem headGrantable_iff (b : PartBody) : headGrantable b = true ↔
    ∃ w ws, b.waiters = w :: ws ∧ (b.holders = [] ∨ (b.mode = 1 ∧ w.wanted = 1 ∧ b.holders.length < 4)) := by
  have e : ∀ c : BitVec 2, (carriedMode c == Mode.shared) = decide (c = 1) := by decide
  unfold headGrantable carriedSlot
  cases b.waiters with
  | nil => simp
  | cons w ws => simp [grantable, e, and_assoc, Config.maxHolders]

/-- R113. -/
theorem partMalformed_iff (b : PartBody) : partMalformed b = true ↔ PartMalformed b := by
  have d : (!allDistinct (b.holders.map (·.station) ++ b.waiters.map (·.station))) = true ↔
      ¬ (b.holders.map (·.station) ++ b.waiters.map (·.station)).Nodup := by
    rw [← allDistinct_iff]
    simp
  unfold partMalformed PartMalformed
  simp only [Bool.or_eq_true, d, headGrantable_iff, modeOf_isNone, List.any_eq_true, decide_eq_true_eq, or_assoc,
    beq_iff_eq, bne_iff_ne, List.isEmpty_iff, Bool.and_eq_true]
  by_cases hm : 2 ≤ b.mode.toNat
  · simp [hm]
  · have he : carriedMode b.mode = .exclusive ↔ b.mode = 0 := by
      revert hm
      generalize b.mode = c
      revert c
      decide
    rw [he]
    exact Iff.rfl

/-! ## The tests that need replicated state -/

theorem inRoster_iff (p : Station) (l : List Member) : inRoster p l = true ↔ ∃ m ∈ l, m.station = p := by
  simp [inRoster]

/-- R77, R114 of a HEAD. -/
theorem headDrifted_iff (sender : Station) (b : HeadBody) (r : Replica) :
    headDrifted sender b r = true ↔ HeadDrifts sender b r := by
  have i : (!inRoster sender r.roster) = true ↔ ∀ m ∈ r.roster, m.station ≠ sender := by simp [inRoster]
  unfold headDrifted HeadDrifts
  simp only [Bool.or_eq_true, i, bne_iff_ne, or_assoc]
  cases r.transfer <;> cases r.joinQueue <;> simp

/-- R77, R114 of a PART. -/
theorem partDrifted_iff (sender : Station) (b : PartBody) (r : Replica) :
    partDrifted sender b r = true ↔ PartDrifts sender b r := by
  unfold partDrifted PartDrifts
  cases r.transfer <;> simp

theorem nextOccupiedFrom_isSome (low : Nat) (t : Table) (i : Nat) : (nextOccupiedFrom low i t).isSome = true ↔
    ∃ k x, t[k]? = some (some x) ∧ low ≤ i + k := by
  induction t generalizing i with
  | nil => simp [nextOccupiedFrom]
  | cons o t ih =>
    unfold nextOccupiedFrom
    split
    · rename_i h
      simp only [Bool.and_eq_true, decide_eq_true_eq] at h
      obtain ⟨x, hx⟩ := Option.isSome_iff_exists.mp h.1
      exact ⟨fun _ => ⟨0, x, by simp [hx], h.2⟩, fun _ => rfl⟩
    · rename_i h
      rw [ih]
      constructor
      · rintro ⟨k, x, h1, h2⟩
        exact ⟨k + 1, x, by simpa using h1, by omega⟩
      · rintro ⟨k, x, h1, h2⟩
        cases k with
        | zero =>
          simp only [List.getElem?_cons_zero, Option.some.injEq] at h1
          simp [h1] at h
          omega
        | succ k => exact ⟨k, x, by simpa using h1, by omega⟩

theorem findKeyFrom_none (key : Key) (t : Table) (i : Nat) :
    findKeyFrom key i t = none ↔ ∀ x, some x ∈ t → x.key ≠ key := by
  induction t generalizing i with
  | nil => simp [findKeyFrom]
  | cons o t ih =>
    cases o with
    | none => simp [findKeyFrom, ih]
    | some s =>
      unfold findKeyFrom
      split
      · rename_i h
        simp only [beq_iff_eq] at h
        simp [h]
      · rename_i h
        simp only [beq_iff_eq] at h
        simp [ih, h]

/-- A key is absent where no occupied slot holds it (R1). -/
theorem findKey_none (key : Key) (t : Table) : findKey key t = none ↔ ∀ x, some x ∈ t → x.key ≠ key :=
  findKeyFrom_none key t 0

theorem le_of_findKeyFrom {key : Key} {t : Table} {n k : Nat} {x : Slot} (h : findKeyFrom key n t = some (k, x)) :
    n ≤ k := by
  induction t generalizing n with
  | nil => simp [findKeyFrom] at h
  | cons o t ih =>
    cases o with
    | none => exact Nat.le_of_succ_le (ih h)
    | some s =>
      unfold findKeyFrom at h
      split at h
      · simp only [Option.some.injEq, Prod.mk.injEq] at h
        exact Nat.le_of_eq h.1
      · exact Nat.le_of_succ_le (ih h)

theorem findKeyFrom_some (key : Key) (t : Table) (n i : Nat) (x : Slot) : findKeyFrom key n t = some (n + i, x) ↔
    t[i]? = some (some x) ∧ x.key = key ∧ ∀ j < i, ∀ y, t[j]? = some (some y) → y.key ≠ key := by
  induction t generalizing n i with
  | nil => simp [findKeyFrom]
  | cons o t ih =>
    have rest (ho : ∀ y, o = some y → y.key ≠ key) : findKeyFrom key (n + 1) t = some (n + i, x) ↔
        (o :: t)[i]? = some (some x) ∧ x.key = key ∧ ∀ j < i, ∀ y, (o :: t)[j]? = some (some y) → y.key ≠ key := by
      cases i with
      | zero =>
        constructor
        · intro h
          have := le_of_findKeyFrom h
          omega
        · rintro ⟨h1, h2, -⟩
          exact absurd h2 (ho x (by simpa using h1))
      | succ i =>
        rw [show n + (i + 1) = n + 1 + i by omega, ih]
        simp only [List.getElem?_cons_succ]
        refine and_congr_right fun _ => and_congr_right fun _ => ⟨fun h j hj y hy => ?_, fun h j hj y hy => ?_⟩
        · cases j with
          | zero => exact ho y (by simpa using hy)
          | succ j => exact h j (by omega) y (by simpa using hy)
        · exact h (j + 1) (by omega) y (by simpa using hy)
    cases o with
    | none => exact rest nofun
    | some s =>
      unfold findKeyFrom
      by_cases hs : s.key = key
      · simp only [hs, beq_self_eq_true, if_true, Option.some.injEq, Prod.mk.injEq]
        cases i with
        | zero =>
          simp
          rintro rfl
          exact hs
        | succ i =>
          constructor
          · rintro ⟨h, -⟩
            omega
          · rintro ⟨-, -, h⟩
            exact absurd hs (h 0 (by omega) s rfl)
      · simp only [beq_iff_eq, hs, if_false]
        exact rest fun y hy => by
          cases hy
          exact hs

/-- A key is found in the lowest slot that holds it (R1). -/
theorem findKey_some (key : Key) (t : Table) (i : Nat) (x : Slot) : findKey key t = some (i, x) ↔
    t[i]? = some (some x) ∧ x.key = key ∧ ∀ j < i, ∀ y, t[j]? = some (some y) → y.key ≠ key := by
  have := findKeyFrom_some key t 0 i x
  rwa [Nat.zero_add] at this

/-- R114 of a PART in LOADING. -/
theorem partRepeats_iff (b : PartBody) (r : Replica) : partRepeats b r = true ↔ PartRepeats b r := by
  have k : (findKey b.key r.table).isSome = true ↔ ∃ (i : Nat) (x : Slot), r.table[i]? = some (some x) ∧ x.key = b.key := by
    rw [← Option.ne_none_iff_isSome, Ne, findKey_none]
    push Not
    constructor
    · rintro ⟨x, h1, h2⟩
      obtain ⟨i, hi⟩ := List.mem_iff_getElem?.mp h1
      exact ⟨i, x, hi, h2⟩
    · rintro ⟨i, x, h1, h2⟩
      exact ⟨x, List.mem_iff_getElem?.mpr ⟨i, h1⟩, h2⟩
  unfold partRepeats PartRepeats nextOccupied
  rw [Bool.or_eq_true, k, nextOccupiedFrom_isSome]
  simp only [Nat.zero_add]
  constructor
  · rintro (⟨i, x, h1, h2⟩ | ⟨i, x, h1, h2⟩)
    · exact ⟨i, x, h1, .inl h2⟩
    · exact ⟨i, x, h1, .inr h2⟩
  · rintro ⟨i, x, h1, h2 | h2⟩
    · exact .inl ⟨i, x, h1, h2⟩
    · exact .inr ⟨i, x, h1, h2⟩

end Sys2Proof.Machine
end

