-- ==== Sys2Proof/Laws/Desk.lean ====
section
/-! SUPPORT. What the operations of the desk can do to its lists: the queue and the claims only shrink but
at an acceptance, and an exit empties both; what a report does. -/

namespace Sys2Proof.Machine

/-- The queue and the claims of the second desk are no longer than those of the first. -/
def Desk.Shrinks (d d' : Desk) : Prop :=
  d'.requests.length ≤ d.requests.length ∧ d'.claims.length ≤ d.claims.length

theorem Desk.Shrinks.refl (d : Desk) : d.Shrinks d := ⟨Nat.le_refl _, Nat.le_refl _⟩

theorem Desk.Shrinks.trans {a b c : Desk} (h : a.Shrinks b) (k : b.Shrinks c) : a.Shrinks c :=
  ⟨Nat.le_trans k.1 h.1, Nat.le_trans k.2 h.2⟩

/-- A desk that shrinks from an empty one is empty. -/
theorem Desk.Shrinks.empty {d d' : Desk} (h : d.Shrinks d') (e : d.requests = [] ∧ d.claims = []) :
    d'.requests = [] ∧ d'.claims = [] := by
  obtain ⟨h1, h2⟩ := h
  simp only [e.1, e.2, List.length_nil, Nat.le_zero, List.length_eq_zero_iff] at h1 h2
  exact ⟨h1, h2⟩

@[simp] theorem Desk.append_requests (n : Notice) (d : Desk) : (d.append n).requests = d.requests := rfl
@[simp] theorem Desk.append_claims (n : Notice) (d : Desk) : (d.append n).claims = d.claims := rfl
@[simp] theorem Desk.append_nextTicket (n : Notice) (d : Desk) : (d.append n).nextTicket = d.nextTicket := rfl
@[simp] theorem Desk.append_notices (n : Notice) (d : Desk) : (d.append n).notices = d.notices ++ [n] := rfl
@[simp] theorem Desk.append_reservation (n : Notice) (d : Desk) :
    (d.append n).reservation = d.reservation - 1 := rfl
@[simp] theorem Desk.giveBack_requests (k : Nat) (d : Desk) : (d.giveBack k).requests = d.requests := rfl
@[simp] theorem Desk.giveBack_claims (k : Nat) (d : Desk) : (d.giveBack k).claims = d.claims := rfl
@[simp] theorem Desk.giveBack_nextTicket (k : Nat) (d : Desk) : (d.giveBack k).nextTicket = d.nextTicket := rfl
@[simp] theorem Desk.giveBack_notices (k : Nat) (d : Desk) : (d.giveBack k).notices = d.notices := rfl
@[simp] theorem Desk.giveBack_reservation (k : Nat) (d : Desk) :
    (d.giveBack k).reservation = d.reservation - k := rfl
@[simp] theorem Desk.setClaim_requests (key : Key) (st : ClaimState) (d : Desk) :
    (d.setClaim key st).requests = d.requests := rfl
@[simp] theorem Desk.setClaim_nextTicket (key : Key) (st : ClaimState) (d : Desk) :
    (d.setClaim key st).nextTicket = d.nextTicket := rfl
@[simp] theorem Desk.setClaim_notices (key : Key) (st : ClaimState) (d : Desk) :
    (d.setClaim key st).notices = d.notices := rfl
@[simp] theorem Desk.setClaim_reservation (key : Key) (st : ClaimState) (d : Desk) :
    (d.setClaim key st).reservation = d.reservation := rfl
@[simp] theorem Desk.setClaim_claims_length (key : Key) (st : ClaimState) (d : Desk) :
    (d.setClaim key st).claims.length = d.claims.length := by simp [Desk.setClaim]
@[simp] theorem Desk.dropClaim_requests (key : Key) (d : Desk) : (d.dropClaim key).requests = d.requests := rfl
@[simp] theorem Desk.dropClaim_nextTicket (key : Key) (d : Desk) :
    (d.dropClaim key).nextTicket = d.nextTicket := rfl
@[simp] theorem Desk.dropClaim_notices (key : Key) (d : Desk) : (d.dropClaim key).notices = d.notices := rfl
@[simp] theorem Desk.dropClaim_reservation (key : Key) (d : Desk) :
    (d.dropClaim key).reservation = d.reservation := rfl

theorem Desk.dropClaim_claims_length_le (key : Key) (d : Desk) :
    (d.dropClaim key).claims.length ≤ d.claims.length := List.length_filter_le _ _

/-- A request that completes leaves the queue to the caller. -/
@[simp] theorem Desk.conclude_requests (r : Request) (o : Outcome) (m : Option Mode) (q : Option Seq)
    (d : Desk) : (d.conclude r o m q).requests = d.requests := by
  unfold Desk.conclude
  cases r.kind <;> cases o <;> rfl

/-- A request that completes appends its DONE notice. -/
@[simp] theorem Desk.conclude_notices (r : Request) (o : Outcome) (m : Option Mode) (q : Option Seq)
    (d : Desk) : (d.conclude r o m q).notices =
      d.notices ++ [{ kind := .done o, ticket := r.ticket, key := r.key, mode := m, seq := q }] := by
  unfold Desk.conclude
  cases r.kind <;> cases o <;> rfl

theorem Desk.conclude_shrinks (r : Request) (o : Outcome) (m : Option Mode) (q : Option Seq) (d : Desk) :
    d.Shrinks (d.conclude r o m q) := by
  refine ⟨by simp, ?_⟩
  unfold Desk.conclude
  cases r.kind <;> cases o <;>
    simp [Desk.dropClaim, List.length_filter_le, Desk.setClaim, Desk.giveBack, Desk.append]

theorem Desk.concludeHead_shrinks (o : Outcome) (m : Option Mode) (q : Option Seq) (d : Desk) :
    d.Shrinks (d.concludeHead o m q) := by
  unfold Desk.concludeHead
  split
  · exact Desk.Shrinks.refl d
  · rename_i r rs h
    refine Desk.Shrinks.trans (b := { d with requests := rs }) ⟨by simp [h], Nat.le_refl _⟩ ?_
    exact Desk.conclude_shrinks _ _ _ _ _

/-- The head leaves the queue. -/
@[simp] theorem Desk.concludeHead_requests (o : Outcome) (m : Option Mode) (q : Option Seq) (d : Desk) :
    (d.concludeHead o m q).requests = d.requests.tail := by
  unfold Desk.concludeHead
  split <;> simp_all

/-! ## Reports -/

theorem Desk.takeReports_nil (d : Desk) : d.takeReports [] = d := rfl

theorem Desk.takeReports_cons (r : Report) (rs : List Report) (d : Desk) :
    d.takeReports (r :: rs) = (d.takeReport r).takeReports rs := rfl

/-- The claim found for a key has that key. -/
theorem Desk.claimFor_key {d : Desk} {key : Key} {c : Claim} (h : d.claimFor key = some c) : c.key = key := by
  simpa using List.find?_some h

/-- A GRANTED report makes a WAITING claim HELD, with its notice (R169). -/
theorem Desk.tableReport_granted {d : Desk} {r : Report} {c : Claim} (h : d.claimFor r.key = some c)
    (ho : r.outcome = .granted) (hc : c.state = .waiting) :
    d.tableReport r = (d.append { kind := .granted, ticket := c.ticket, key := r.key, mode := r.mode,
                                  seq := some r.seq }).setClaim r.key .held := by
  simp only [Desk.tableReport, h, ho, hc, Desk.claimFor_key h]

/-- An EXPIRED report removes a HELD claim, with its notice (R169). -/
theorem Desk.tableReport_expired {d : Desk} {r : Report} {c : Claim} (h : d.claimFor r.key = some c)
    (ho : r.outcome = .expired) (hc : c.state = .held) :
    d.tableReport r = (d.append { kind := .expired, ticket := c.ticket, key := r.key, mode := none,
                                  seq := some r.seq }).dropClaim r.key := by
  simp only [Desk.tableReport, h, ho, hc, Desk.claimFor_key h]

/-- A report that finds no row of its table is discarded (R169). -/
theorem Desk.tableReport_discarded {d : Desk} {r : Report}
    (h : ∀ c, d.claimFor r.key = some c → ¬ (r.outcome = .granted ∧ c.state = .waiting) ∧
      ¬ (r.outcome = .expired ∧ c.state = .held)) : d.tableReport r = d := by
  unfold Desk.tableReport
  split
  · rfl
  · rename_i c hc
    obtain ⟨h1, h2⟩ := h c hc
    split <;> simp_all

theorem Desk.tableReport_shrinks (r : Report) (d : Desk) : d.Shrinks (d.tableReport r) := by
  unfold Desk.tableReport
  split
  · exact Desk.Shrinks.refl d
  · split
    · exact ⟨by simp, by simp⟩
    · exact ⟨by simp, Desk.dropClaim_claims_length_le _ _⟩
    · exact Desk.Shrinks.refl d

theorem Desk.takeReport_shrinks (r : Report) (d : Desk) : d.Shrinks (d.takeReport r) := by
  unfold Desk.takeReport
  split
  · exact Desk.concludeHead_shrinks _ _ _ _
  · exact Desk.tableReport_shrinks _ _

theorem Desk.takeReports_shrinks (rs : List Report) (d : Desk) : d.Shrinks (d.takeReports rs) := by
  unfold Desk.takeReports
  induction rs generalizing d with
  | nil => exact Desk.Shrinks.refl d
  | cons r rs ih => exact (Desk.takeReport_shrinks r d).trans (ih _)

theorem Desk.abort_shrinks (rs : List Request) (d : Desk) : d.Shrinks (d.abort rs) := by
  unfold Desk.abort
  induction rs generalizing d with
  | nil => exact Desk.Shrinks.refl d
  | cons r rs ih => exact (Desk.conclude_shrinks r _ _ _ d).trans (ih _)

@[simp] theorem Desk.abort_requests (rs : List Request) (d : Desk) : (d.abort rs).requests = d.requests := by
  unfold Desk.abort
  induction rs generalizing d with
  | nil => rfl
  | cons r rs ih => simp [ih]

/-- A STOP leaves a request whose frame is on the line (R54, R170). -/
@[simp] theorem Desk.abortQueue_requests (ts : List Ticket) (d : Desk) :
    (d.abortQueue ts).requests = d.requests.filter fun r => ts.contains r.ticket :=
  Desk.abort_requests _ _

theorem Desk.abortQueue_shrinks (ts : List Ticket) (d : Desk) : d.Shrinks (d.abortQueue ts) :=
  Desk.Shrinks.trans (b := { d with requests := d.requests.filter fun r => ts.contains r.ticket })
    ⟨List.length_filter_le _ _, Nat.le_refl _⟩ (Desk.abort_shrinks _ _)

theorem Desk.purgeClaims_lists (q : Seq) (cs : List Claim) (d : Desk) :
    (d.purgeClaims q cs).requests = d.requests ∧ (d.purgeClaims q cs).claims = d.claims := by
  unfold Desk.purgeClaims
  induction cs generalizing d with
  | nil => exact ⟨rfl, rfl⟩
  | cons c cs ih =>
    simp only [List.foldl_cons]
    exact ⟨(ih _).1.trans rfl, (ih _).2.trans rfl⟩

/-- An exit leaves the queue and the claims empty (R171). -/
@[simp] theorem Desk.exitReport_requests (q : Seq) (d : Desk) : (d.exitReport q).requests = [] := by
  simp [Desk.exitReport, (Desk.purgeClaims_lists _ _ _).1]

@[simp] theorem Desk.exitReport_claims (q : Seq) (d : Desk) : (d.exitReport q).claims = [] := by
  simp [Desk.exitReport, (Desk.purgeClaims_lists _ _ _).2]

theorem Desk.preCheck_shrinks (n : Nat) (d : Desk) : d.Shrinks (Desk.preCheck n d) := by
  induction n generalizing d with
  | zero => exact Desk.Shrinks.refl d
  | succ n ih =>
    unfold Desk.preCheck
    split
    · exact Desk.Shrinks.refl d
    · split
      · exact Desk.Shrinks.refl d
      · exact (Desk.concludeHead_shrinks _ _ _ d).trans (ih _)

end Sys2Proof.Machine
end

