-- ==== Sys2Proof/Laws/Table.lean ====
section
/-! SUPPORT. What promotion gives a slot; what an application can do to the table as a list, and to the transfer
record. -/

namespace Sys2Proof.Machine

/-! ## Promotion -/

/-- Promotion of a slot with no waiters is the freeing test (R7). -/
theorem promote_alone (own : Station) (q : Seq) {s : Slot} (h : s.waiters = []) :
    promote own q s = (if s.holders = [] then none else some s, []) := by
  obtain ⟨k, m, hs, ws⟩ := s
  subst h
  cases hs <;> rfl

/-- Promotion leaves a slot whose head waiter is not grantable as it is (R7). -/
theorem promote_waits (own : Station) (q : Seq) {s : Slot} {w : Waiter} {ws : List Waiter} (h : s.waiters = w :: ws)
    (g : grantable s.mode s.holders w = false) : promote own q s = (some s, []) := by
  unfold promote
  simp only [h, promoteLoop, g, Bool.false_eq_true, if_false]
  simp [grantReports, ← h]
  simp [h]

/-- Promotion grants a grantable head waiter and goes on with the slot as that leaves it (R7, R20). -/
theorem promote_grants (own : Station) (q : Seq) {s : Slot} {w : Waiter} {ws : List Waiter} (h : s.waiters = w :: ws)
    (g : grantable s.mode s.holders w = true) :
    let mode := if s.holders = [] then w.wanted else s.mode
    let after := promote own q
      { s with mode := mode, holders := s.holders ++ [{ station := w.station, remaining := w.term }], waiters := ws }
    promote own q s = (after.1, (if w.station = own then
      [{ origin := .table, outcome := .granted, key := s.key, mode := some mode, seq := q }] else []) ++ after.2) := by
  intro mode after
  have e : (if s.holders.isEmpty then w.wanted else s.mode) = mode := by simp [mode]
  unfold after promote
  simp only [h, promoteLoop, g, if_true, e]
  refine Prod.ext rfl ?_
  simp only [grantReports, List.filter_cons]
  by_cases hw : w.station = own <;> simp [hw]

/-- A slot's part of a purge that finds the station there (R8). -/
theorem purgeSlot_of_has {own : Station} {q : Seq} {p : Station} {s : Slot} (h : slotHas p s = true) :
    purgeSlot own q p s = promote own q { s with
      holders := s.holders.filter (·.station != p), waiters := s.waiters.filter (·.station != p) } := by
  simp [purgeSlot, h]

/-- A slot's part of a purge that does not find the station there (R8). -/
theorem purgeSlot_of_not_has {own : Station} {q : Seq} {p : Station} {s : Slot} (h : slotHas p s = false) :
    purgeSlot own q p s = (some s, []) := by simp [purgeSlot, h]

/-! ## The table keeps its slots -/

@[simp] theorem visitSlots_length (f : Slot → Option Slot × List Report) (t : Table) :
    (visitSlots f t).1.length = t.length := by simp [visitSlots]

@[simp] theorem purge_length (own : Station) (seq : Seq) (p : Station) (t : Table) :
    (purge own seq p t).1.length = t.length := visitSlots_length _ _

@[simp] theorem countDown_length (own : Station) (seq : Seq) (t : Table) :
    (countDown own seq t).1.length = t.length := visitSlots_length _ _

@[simp] theorem applyAcquire_length (s : Station) (key : Key) (mode : Mode) (wait : Bool) (term : Nat)
    (t : Table) : (applyAcquire s key mode wait term t).table.length = t.length := by
  unfold applyAcquire
  split
  · split
    · rfl
    · split
      · simp
      · split
        · rfl
        · split
          · rfl
          · simp
  · split
    · rfl
    · simp

@[simp] theorem applyRelease_length (own : Station) (seq : Seq) (s : Station) (key : Key) (t : Table) :
    (applyRelease own seq s key t).table.length = t.length := by
  unfold applyRelease
  split
  · rfl
  · split
    · simp
    · split
      · dsimp only
        split <;> simp
      · rfl

@[simp] theorem applyRenew_length (s : Station) (key : Key) (term : Nat) (t : Table) :
    (applyRenew s key term t).table.length = t.length := by
  unfold applyRenew
  split
  · rfl
  · split
    · simp
    · rfl

@[simp] theorem removeMember_length (own : Station) (live : Bool) (seq : Seq) (p : Station) (r : Replica) :
    (r.removeMember own live seq p).1.table.length = r.table.length := by simp [Replica.removeMember]

@[simp] theorem presenceStage_length (own : Station) (live : Bool) (seq : Seq) (sender : Station)
    (ms : List Member) (r : Replica) :
    (presenceStage own live seq sender ms r).replica.table.length = r.table.length := by
  induction ms generalizing r with
  | nil => rfl
  | cons m ms ih =>
    unfold presenceStage
    split
    · exact ih r
    · split
      · simp [ih]
      · simp [ih]

@[simp] theorem idleStage_table (r : Replica) : (idleStage r).table = r.table := by
  unfold idleStage
  split
  · rfl
  · split <;> rfl

@[simp] theorem applyBeat_length (own : Station) (live : Bool) (seq : Seq) (p : Station) (r : Replica) :
    (applyBeat own live seq p r).replica.table.length = r.table.length := by
  unfold applyBeat
  dsimp only
  split <;> simp

/-! ### A LEAVE (R68) -/

section
variable (own : Station) (live : Bool) (seq : Seq) (p : Station) (r : Replica)

@[simp] theorem removeJoiner_table : (r.removeJoiner live p).table = r.table := by
  unfold Replica.removeJoiner
  split <;> rfl

@[simp] theorem removeJoiner_roster : (r.removeJoiner live p).roster = r.roster := by
  unfold Replica.removeJoiner
  split <;> rfl

@[simp] theorem removeJoiner_seq : (r.removeJoiner live p).seq = r.seq := by
  unfold Replica.removeJoiner
  split <;> rfl

/-- The sender is out of the queue wherever it stood, the order of the others kept (R58). -/
@[simp] theorem removeJoiner_joinQueue : (r.removeJoiner live p).joinQueue = r.joinQueue.filter (· != p) := by
  unfold Replica.removeJoiner
  split
  · rfl
  · rename_i h
    refine (List.filter_eq_self.mpr fun k hk => bne_iff_ne.mpr ?_).symm
    rintro rfl
    exact h (List.contains_iff_mem.mpr hk)

/-- A queued sender abandons the transfer to it (R94). -/
@[simp] theorem removeJoiner_transfer : (r.removeJoiner live p).transfer =
    if r.joinQueue.contains p && (live && joinedBy p r.transfer) then none else r.transfer := by
  unfold Replica.removeJoiner
  cases r.joinQueue.contains p <;> rfl

/-- In a replay only the queue changes (R92). -/
theorem removeJoiner_replayed :
    r.removeJoiner false p = { r with joinQueue := r.joinQueue.filter fun k => decide (k ≠ p) } := by
  have h : r.removeJoiner false p = { r with joinQueue := (r.removeJoiner false p).joinQueue } := by
    unfold Replica.removeJoiner
    split <;> rfl
  rw [h, removeJoiner_joinQueue]
  simp [bne, BEq.beq]

variable {own live seq p r}

/-- A LEAVE from a roster member, queued or not: removed, purged, and out of the queue. -/
theorem applyLeave_of_member (h : inRoster p r.roster = true) : applyLeave own live seq p r =
    { replica := (r.removeMember own live seq p).1.removeJoiner live p
      reports := (r.removeMember own live seq p).2, ownGone := p == own } := by
  simp [applyLeave, h]

/-- A LEAVE from a station outside the roster: out of the queue, and nothing else. -/
theorem applyLeave_of_stranger (h : inRoster p r.roster = false) : applyLeave own live seq p r =
    { replica := r.removeJoiner live p, reports := [], ownGone := false } := by
  simp [applyLeave, h]

end

@[simp] theorem applyLeave_length (own : Station) (live : Bool) (seq : Seq) (p : Station) (r : Replica) :
    (applyLeave own live seq p r).replica.table.length = r.table.length := by
  cases h : inRoster p r.roster
  · simp [applyLeave_of_stranger h]
  · simp [applyLeave_of_member h]

@[simp] theorem applyJoin_table (live : Bool) (j : Station) (r : Replica) : (applyJoin live j r).table = r.table := by
  unfold applyJoin
  split
  · split <;> rfl
  · rfl

@[simp] theorem complete_table (j : Station) (r : Replica) : (r.complete j).table = r.table := rfl

@[simp] theorem applyHead_table (h : Station) (n : Nat) (r : Replica) : (applyHead h n r).table = r.table := by
  unfold applyHead
  split
  · rfl
  · dsimp only
    split <;> rfl

@[simp] theorem applyPart_table (r : Replica) : (applyPart r).table = r.table := by
  unfold applyPart
  split
  · rfl
  · split <;> rfl

/-- An application keeps the table's 64 slots. -/
@[simp] theorem apply_length (own : Station) (ownFrame live : Bool) (seq : Seq) (f : Frame) (r : Replica) :
    (r.apply own ownFrame live seq f).replica.table.length = r.table.length := by
  unfold Replica.apply
  dsimp only
  split <;> try simp
  split <;> simp

/-- An answered request carries a mode in an ACQUIRE's GRANTED and QUEUED alone, and sets a promotion going in a RELEASE
alone (R7, R18). -/
theorem applyAcquire_reports (p : Station) (key : Key) (mode : Mode) (wait : Bool) (term : Nat) (t : Table) :
    (applyAcquire p key mode wait term t).reports = [] := by
  unfold applyAcquire
  repeat' split
  all_goals rfl

theorem applyRenew_answer (p : Station) (key : Key) (term : Nat) (t : Table) :
    (applyRenew p key term t).reports = [] ∧ (applyRenew p key term t).mode = none := by
  unfold applyRenew
  repeat' split
  all_goals exact ⟨rfl, rfl⟩

theorem applyRelease_mode (own p : Station) (q : Seq) (key : Key) (t : Table) :
    (applyRelease own q p key t).mode = none := by
  unfold applyRelease
  repeat' split
  all_goals rfl

/-- A difference of more than one, counted modulo 65536 (R92). -/
theorem one_lt_gap (last q : Seq) : 1 < (q - last).toNat ↔ ¬ (q = last ∨ q = last + 1) := by
  have := q.isLt
  have := last.isLt
  simp only [BitVec.toNat_sub, ← BitVec.toNat_inj, BitVec.toNat_add, show (1 : Seq).toNat = 1 from rfl]
  omega

/-- A replay takes its oldest record first, the sender's count at 0 where numbers are missing before it (R92). -/
theorem replay_cons (own sender : Station) (last : Seq) (j : JournalRecord) (js : List JournalRecord) (r : Replica) :
    replay own sender last (j :: js) r =
      (let held := if j.seq = last ∨ j.seq = last + 1 then r.roster else setSilence sender 0 r.roster
       let a := ({ r with roster := held } : Replica).apply own false false j.seq j.frame
       ((replay own sender j.seq js a.replica).1, a.reports ++ (replay own sender j.seq js a.replica).2)) := by
  rw [replay]
  by_cases h : j.seq = last ∨ j.seq = last + 1
  · rw [if_neg fun c => (one_lt_gap _ _).mp c h, if_pos h]
  · rw [if_pos ((one_lt_gap _ _).mpr h), if_neg h]

@[simp] theorem replay_length (own sender : Station) (prev : Seq) (js : List JournalRecord) (r : Replica) :
    (replay own sender prev js r).1.table.length = r.table.length := by
  induction js generalizing prev r with
  | nil => rfl
  | cons j js ih =>
    unfold replay
    dsimp only
    rw [ih, apply_length]
    split <;> rfl

end Sys2Proof.Machine
end

