-- ==== Sys2Proof/Laws/Roster.lean ====
section
/-! SUPPORT. Every operation on the roster keeps it in ascending station number, each station in it once (R57). -/

namespace Sys2Proof.Machine

theorem setSilence_ordered {r : List Member} (h : RosterOrdered r) (p : Station) (n : Nat) :
    RosterOrdered (setSilence p n r) := by
  refine List.Pairwise.map _ (fun a b hab => ?_) h
  split <;> split <;> exact hab

theorem dropMember_ordered {r : List Member} (h : RosterOrdered r) (p : Station) : RosterOrdered (dropMember p r) :=
  h.filter _

theorem addMember_ordered {r : List Member} (h : RosterOrdered r) (p : Station) : RosterOrdered (addMember p r) := by
  have mem : ∀ (ms : List Member) (x : Member), x ∈ addMember p ms → x.station = p ∨ x ∈ ms := by
    intro ms
    induction ms with
    | nil => intro x hx; simp [addMember] at hx; simp [hx]
    | cons m ms ih =>
      intro x hx
      unfold addMember at hx
      split at hx
      · rcases List.mem_cons.mp hx with hx | hx
        · exact .inl (by rw [hx])
        · exact .inr hx
      · split at hx
        · rcases List.mem_cons.mp hx with hx | hx
          · exact .inl (by rw [hx])
          · exact .inr (List.mem_cons_of_mem _ hx)
        · rcases List.mem_cons.mp hx with hx | hx
          · exact .inr (by rw [hx]; exact List.mem_cons_self ..)
          · exact (ih x hx).imp id (List.mem_cons_of_mem _)
  induction r with
  | nil => exact List.pairwise_singleton _ _
  | cons m ms ih =>
    obtain ⟨hm, hms⟩ := List.pairwise_cons.mp h
    unfold addMember
    split
    · rename_i hp
      refine List.pairwise_cons.mpr ⟨fun x hx => ?_, h⟩
      rcases List.mem_cons.mp hx with rfl | hx
      · exact hp
      · exact lt_trans hp (hm x hx)
    · split
      · rename_i hp
        exact List.pairwise_cons.mpr ⟨fun x hx => hp ▸ hm x hx, hms⟩
      · rename_i h1 h2
        refine List.pairwise_cons.mpr ⟨fun x hx => ?_, ih hms⟩
        rcases mem ms x hx with hx | hx
        · rw [hx]
          exact lt_of_le_of_ne (not_lt.mp h1) (Ne.symm h2)
        · exact hm x hx

theorem stations_ordered : stations.Pairwise (· < ·) := by decide

theorem carriedRoster_ordered (b : HeadBody) : RosterOrdered (carriedRoster b) :=
  List.Pairwise.map _ (fun _ _ h => h) (stations_ordered.filter _)

theorem presenceStage_ordered (own : Station) (live : Bool) (seq : Seq) (sender : Station) (ms : List Member)
    {r : Replica} (h : RosterOrdered r.roster) :
    RosterOrdered (presenceStage own live seq sender ms r).replica.roster := by
  induction ms generalizing r with
  | nil => exact h
  | cons m ms ih =>
    unfold presenceStage
    split
    · exact ih h
    · split
      · exact ih (dropMember_ordered h _)
      · exact ih (setSilence_ordered h _ _)

theorem idleStage_roster (r : Replica) : (idleStage r).roster = r.roster := by
  unfold idleStage
  split
  · rfl
  · split <;> rfl

theorem complete_ordered {r : Replica} (h : RosterOrdered r.roster) (j : Station) :
    RosterOrdered (r.complete j).roster := addMember_ordered h j

/-- An application keeps the roster's order. -/
theorem apply_ordered (own : Station) (ownFrame live : Bool) (seq : Seq) (f : Frame) {r : Replica}
    (h : RosterOrdered r.roster) : RosterOrdered (r.apply own ownFrame live seq f).replica.roster := by
  have h0 := setSilence_ordered h f.sender 0
  unfold Replica.apply
  dsimp only
  generalize setSilence f.sender 0 r.roster = m at h0
  split
  · unfold applyBeat
    dsimp only
    split
    · rw [idleStage_roster]
      exact presenceStage_ordered _ _ _ _ _ h0
    · exact presenceStage_ordered _ _ _ _ _ h0
  · exact h0
  · unfold applyHead
    split
    · exact h0
    · dsimp only
      split
      · exact addMember_ordered h0 _
      · exact h0
  · unfold applyPart
    split
    · exact h0
    · split
      · exact addMember_ordered h0 _
      · exact h0
  · exact h0
  · exact h0
  · unfold applyLeave
    rw [removeJoiner_roster]
    split
    · exact dropMember_ordered h0 _
    · exact h0
  · exact h0
  · exact h0
  · split <;> exact h0
  · unfold applyJoin
    split
    · split <;> exact h0
    · exact h0

theorem replay_ordered (own sender : Station) (prev : Seq) (js : List JournalRecord) {r : Replica}
    (h : RosterOrdered r.roster) : RosterOrdered (replay own sender prev js r).1.roster := by
  induction js generalizing prev r with
  | nil => exact h
  | cons j js ih =>
    unfold replay
    dsimp only
    refine ih _ (apply_ordered _ _ _ _ _ ?_)
    split
    · exact setSilence_ordered h _ _
    · exact h

end Sys2Proof.Machine
end

