-- ==== Sys2Proof/Laws/State.lean ====
section
/-! SUPPORT. What each named update of the station leaves in each field. -/

namespace Sys2Proof.Machine

/-! ## enter -/

@[simp] theorem State.enter_pins (st : StationState) (s : State) : (s.enter st).pins = s.pins := rfl
@[simp] theorem State.enter_liu (st : StationState) (s : State) : (s.enter st).liu = s.liu := rfl
@[simp] theorem State.enter_sel (st : StationState) (s : State) : (s.enter st).sel = s.sel := rfl
@[simp] theorem State.enter_replica (st : StationState) (s : State) : (s.enter st).replica = s.replica := rfl
@[simp] theorem State.enter_timer (st : StationState) (s : State) : (s.enter st).timer = s.timer := rfl
@[simp] theorem State.enter_xfer (st : StationState) (s : State) : (s.enter st).xfer = s.xfer := rfl
@[simp] theorem State.enter_ctl (st : StationState) (s : State) :
    (s.enter st).ctl = { s.ctl with state := st } := rfl
@[simp] theorem State.enter_desk (st : StationState) (s : State) : (s.enter st).desk = s.desk := rfl
@[simp] theorem State.enter_attention (st : StationState) (s : State) :
    (s.enter st).attention = s.attention.stateChanged := rfl
@[simp] theorem State.enter_port (st : StationState) (s : State) : (s.enter st).port = s.port := rfl
@[simp] theorem State.enter_freeDraws (st : StationState) (s : State) :
    (s.enter st).freeDraws = s.freeDraws := rfl
@[simp] theorem State.enter_pending (st : StationState) (s : State) : (s.enter st).pending = s.pending := rfl

/-! ## forget, and what a withdrawn candidate leaves -/

@[simp] theorem Selector.forget_beat (g : CandKind → Bool) (x : Selector) : (x.forget g).beat = x.beat := rfl
@[simp] theorem Selector.forget_present (g : CandKind → Bool) (x : Selector) : (x.forget g).present = x.present := rfl
@[simp] theorem Selector.forget_found (g : CandKind → Bool) (x : Selector) : (x.forget g).found = x.found := rfl
@[simp] theorem Selector.forget_leave (g : CandKind → Bool) (x : Selector) : (x.forget g).leave = x.leave := rfl
@[simp] theorem Selector.forget_join (g : CandKind → Bool) (x : Selector) : (x.forget g).join = x.join := rfl
@[simp] theorem Selector.forget_requestCount (g : CandKind → Bool) (x : Selector) : (x.forget g).requestCount = x.requestCount := rfl
@[simp] theorem Selector.forget_joinCount (g : CandKind → Bool) (x : Selector) : (x.forget g).joinCount = x.joinCount := rfl
@[simp] theorem Selector.forget_leaveCount (g : CandKind → Bool) (x : Selector) : (x.forget g).leaveCount = x.leaveCount := rfl
@[simp] theorem Selector.forget_partCount (g : CandKind → Bool) (x : Selector) : (x.forget g).partCount = x.partCount := rfl
@[simp] theorem Selector.forget_headCount (g : CandKind → Bool) (x : Selector) : (x.forget g).headCount = x.headCount := rfl
@[simp] theorem Selector.forget_headBarred (g : CandKind → Bool) (x : Selector) : (x.forget g).headBarred = x.headBarred := rfl
@[simp] theorem Selector.forget_streak (g : CandKind → Bool) (x : Selector) : (x.forget g).streak = x.streak := rfl
@[simp] theorem Selector.forget_yielding (g : CandKind → Bool) (x : Selector) : (x.forget g).yielding = x.yielding := rfl
@[simp] theorem Selector.forget_onLine (g : CandKind → Bool) (x : Selector) :
    (x.forget g).onLine = x.onLine.map (Offer.settle g) := rfl
@[simp] theorem Selector.forget_lastEnd (g : CandKind → Bool) (x : Selector) : (x.forget g).lastEnd = x.lastEnd := rfl
@[simp] theorem Selector.forget_brokenEnds (g : CandKind → Bool) (x : Selector) :
    (x.forget g).brokenEnds = x.brokenEnds.map (BrokenEnd.settle g) := rfl

@[simp] theorem Selector.nextRequest_beat (x : Selector) : x.nextRequest.beat = x.beat := rfl
@[simp] theorem Selector.nextRequest_present (x : Selector) : x.nextRequest.present = x.present := rfl
@[simp] theorem Selector.nextRequest_found (x : Selector) : x.nextRequest.found = x.found := rfl
@[simp] theorem Selector.nextRequest_leave (x : Selector) : x.nextRequest.leave = x.leave := rfl
@[simp] theorem Selector.nextRequest_join (x : Selector) : x.nextRequest.join = x.join := rfl
@[simp] theorem Selector.nextRequest_requestCount (x : Selector) : x.nextRequest.requestCount = 0 := rfl
@[simp] theorem Selector.nextRequest_joinCount (x : Selector) : x.nextRequest.joinCount = x.joinCount := rfl
@[simp] theorem Selector.nextRequest_leaveCount (x : Selector) : x.nextRequest.leaveCount = x.leaveCount := rfl
@[simp] theorem Selector.nextRequest_partCount (x : Selector) : x.nextRequest.partCount = x.partCount := rfl
@[simp] theorem Selector.nextRequest_headCount (x : Selector) : x.nextRequest.headCount = x.headCount := rfl
@[simp] theorem Selector.nextRequest_headBarred (x : Selector) : x.nextRequest.headBarred = x.headBarred := rfl
@[simp] theorem Selector.nextRequest_streak (x : Selector) : x.nextRequest.streak = x.streak := rfl
@[simp] theorem Selector.nextRequest_yielding (x : Selector) : x.nextRequest.yielding = x.yielding := rfl
@[simp] theorem Selector.nextRequest_onLine (x : Selector) :
    x.nextRequest.onLine = x.onLine.map (Offer.settle CandKind.isRequest) := rfl
@[simp] theorem Selector.nextRequest_lastEnd (x : Selector) : x.nextRequest.lastEnd = x.lastEnd := rfl
@[simp] theorem Selector.nextRequest_brokenEnds (x : Selector) :
    x.nextRequest.brokenEnds = x.brokenEnds.map (BrokenEnd.settle CandKind.isRequest) := rfl

@[simp] theorem Selector.dropHead_beat (x : Selector) : x.dropHead.beat = x.beat := rfl
@[simp] theorem Selector.dropHead_present (x : Selector) : x.dropHead.present = x.present := rfl
@[simp] theorem Selector.dropHead_found (x : Selector) : x.dropHead.found = x.found := rfl
@[simp] theorem Selector.dropHead_leave (x : Selector) : x.dropHead.leave = x.leave := rfl
@[simp] theorem Selector.dropHead_join (x : Selector) : x.dropHead.join = x.join := rfl
@[simp] theorem Selector.dropHead_requestCount (x : Selector) : x.dropHead.requestCount = x.requestCount := rfl
@[simp] theorem Selector.dropHead_joinCount (x : Selector) : x.dropHead.joinCount = x.joinCount := rfl
@[simp] theorem Selector.dropHead_leaveCount (x : Selector) : x.dropHead.leaveCount = x.leaveCount := rfl
@[simp] theorem Selector.dropHead_partCount (x : Selector) : x.dropHead.partCount = x.partCount := rfl
@[simp] theorem Selector.dropHead_headCount (x : Selector) : x.dropHead.headCount = 0 := rfl
@[simp] theorem Selector.dropHead_headBarred (x : Selector) : x.dropHead.headBarred = x.headBarred := rfl
@[simp] theorem Selector.dropHead_streak (x : Selector) : x.dropHead.streak = x.streak := rfl
@[simp] theorem Selector.dropHead_yielding (x : Selector) : x.dropHead.yielding = x.yielding := rfl
@[simp] theorem Selector.dropHead_onLine (x : Selector) :
    x.dropHead.onLine = x.onLine.map (Offer.settle (· == .head)) := rfl
@[simp] theorem Selector.dropHead_lastEnd (x : Selector) : x.dropHead.lastEnd = x.lastEnd := rfl
@[simp] theorem Selector.dropHead_brokenEnds (x : Selector) :
    x.dropHead.brokenEnds = x.brokenEnds.map (BrokenEnd.settle (· == .head)) := rfl

@[simp] theorem Selector.dropPart_beat (x : Selector) : x.dropPart.beat = x.beat := rfl
@[simp] theorem Selector.dropPart_present (x : Selector) : x.dropPart.present = x.present := rfl
@[simp] theorem Selector.dropPart_found (x : Selector) : x.dropPart.found = x.found := rfl
@[simp] theorem Selector.dropPart_leave (x : Selector) : x.dropPart.leave = x.leave := rfl
@[simp] theorem Selector.dropPart_join (x : Selector) : x.dropPart.join = x.join := rfl
@[simp] theorem Selector.dropPart_requestCount (x : Selector) : x.dropPart.requestCount = x.requestCount := rfl
@[simp] theorem Selector.dropPart_joinCount (x : Selector) : x.dropPart.joinCount = x.joinCount := rfl
@[simp] theorem Selector.dropPart_leaveCount (x : Selector) : x.dropPart.leaveCount = x.leaveCount := rfl
@[simp] theorem Selector.dropPart_partCount (x : Selector) : x.dropPart.partCount = 0 := rfl
@[simp] theorem Selector.dropPart_headCount (x : Selector) : x.dropPart.headCount = x.headCount := rfl
@[simp] theorem Selector.dropPart_headBarred (x : Selector) : x.dropPart.headBarred = x.headBarred := rfl
@[simp] theorem Selector.dropPart_streak (x : Selector) : x.dropPart.streak = x.streak := rfl
@[simp] theorem Selector.dropPart_yielding (x : Selector) : x.dropPart.yielding = x.yielding := rfl
@[simp] theorem Selector.dropPart_onLine (x : Selector) :
    x.dropPart.onLine = x.onLine.map (Offer.settle CandKind.isPart) := rfl
@[simp] theorem Selector.dropPart_lastEnd (x : Selector) : x.dropPart.lastEnd = x.lastEnd := rfl
@[simp] theorem Selector.dropPart_brokenEnds (x : Selector) :
    x.dropPart.brokenEnds = x.brokenEnds.map (BrokenEnd.settle CandKind.isPart) := rfl

@[simp] theorem Offer.settle_frame (g : CandKind → Bool) (o : Offer) : (o.settle g).frame = o.frame := rfl

@[simp] theorem BrokenEnd.settle_frameEnd (g : CandKind → Bool) (b : BrokenEnd) : (b.settle g).frameEnd = b.frameEnd := rfl

/-- Candidates gone one after another are gone together. -/
theorem Offer.settle_settle (g k : CandKind → Bool) (o : Offer) :
    (o.settle g).settle k = o.settle fun c => g c || k c := by
  simp [Offer.settle]

@[inherit_doc Offer.settle_settle]
theorem BrokenEnd.settle_settle (g k : CandKind → Bool) (b : BrokenEnd) :
    (b.settle g).settle k = b.settle fun c => g c || k c := by
  simp [BrokenEnd.settle]

/-- Where no candidate is gone, the frame on the line stands. -/
@[simp] theorem Offer.settle_none : Offer.settle (fun _ => false) = id := by
  funext o
  cases o with
  | mk k f => cases k <;> rfl

/-- Where no candidate is gone, every broken end stands. -/
@[simp] theorem BrokenEnd.settle_none : BrokenEnd.settle (fun _ => false) = id := by
  funext b
  cases b with
  | mk k e => cases k <;> rfl

@[simp] theorem Selector.forget_none (x : Selector) : x.forget (fun _ => false) = x := by
  simp [Selector.forget]

/-- Candidates gone one after another are gone together. -/
theorem Selector.forget_forget (g k : CandKind → Bool) (x : Selector) :
    (x.forget g).forget k = x.forget fun c => g c || k c := by
  simp [Selector.forget, Function.comp_def, Offer.settle_settle, BrokenEnd.settle_settle]

@[simp] theorem Selector.nextRequest_nextRequest (x : Selector) : x.nextRequest.nextRequest = x.nextRequest := by
  simp [Selector.nextRequest, Selector.forget, Function.comp_def, Offer.settle_settle, BrokenEnd.settle_settle]

/-- A broken end still counts against a candidate just where it did and the candidate is not gone. -/
theorem BrokenEnd.settle_kind (g : CandKind → Bool) (b : BrokenEnd) (k : CandKind) :
    (b.settle g).kind = some k ↔ b.kind = some k ∧ g k = false := by
  unfold BrokenEnd.settle
  cases b.kind with
  | none => simp
  | some c =>
    simp only [Option.filter_some, Option.some.injEq]
    cases hg : g c <;> simp
    · rintro rfl
      exact hg
    · rintro rfl
      exact hg

/-! ## setJoin -/

@[simp] theorem State.setJoin_pins (s : State) : s.setJoin.pins = s.pins := rfl
@[simp] theorem State.setJoin_liu (s : State) : s.setJoin.liu = s.liu := rfl
@[simp] theorem State.setJoin_sel (s : State) :
    s.setJoin.sel = { s.sel with join := true, joinCount := 0 } := rfl
@[simp] theorem State.setJoin_replica (s : State) : s.setJoin.replica = s.replica := rfl
@[simp] theorem State.setJoin_timer (s : State) : s.setJoin.timer = s.timer := rfl
@[simp] theorem State.setJoin_xfer (s : State) : s.setJoin.xfer = s.xfer := rfl
@[simp] theorem State.setJoin_ctl (s : State) : s.setJoin.ctl = { s.ctl with ownJoinApplied := false } := rfl
@[simp] theorem State.setJoin_desk (s : State) : s.setJoin.desk = s.desk := rfl
@[simp] theorem State.setJoin_attention (s : State) : s.setJoin.attention = s.attention := rfl
@[simp] theorem State.setJoin_port (s : State) : s.setJoin.port = s.port := rfl
@[simp] theorem State.setJoin_freeDraws (s : State) : s.setJoin.freeDraws = s.freeDraws := rfl
@[simp] theorem State.setJoin_pending (s : State) : s.setJoin.pending = s.pending := rfl

/-! ## dropJoin -/

@[simp] theorem State.dropJoin_pins (s : State) : s.dropJoin.pins = s.pins := rfl
@[simp] theorem State.dropJoin_liu (s : State) : s.dropJoin.liu = s.liu := rfl
@[simp] theorem State.dropJoin_sel (s : State) :
    s.dropJoin.sel = { s.sel.forget (· == .join) with join := false, joinCount := 0 } := rfl
@[simp] theorem State.dropJoin_replica (s : State) : s.dropJoin.replica = s.replica := rfl
@[simp] theorem State.dropJoin_timer (s : State) : s.dropJoin.timer = s.timer := rfl
@[simp] theorem State.dropJoin_xfer (s : State) : s.dropJoin.xfer = s.xfer := rfl
@[simp] theorem State.dropJoin_ctl (s : State) : s.dropJoin.ctl = s.ctl := rfl
@[simp] theorem State.dropJoin_desk (s : State) : s.dropJoin.desk = s.desk := rfl
@[simp] theorem State.dropJoin_attention (s : State) : s.dropJoin.attention = s.attention := rfl
@[simp] theorem State.dropJoin_port (s : State) : s.dropJoin.port = s.port := rfl
@[simp] theorem State.dropJoin_freeDraws (s : State) : s.dropJoin.freeDraws = s.freeDraws := rfl
@[simp] theorem State.dropJoin_pending (s : State) : s.dropJoin.pending = s.pending := rfl

/-! ## loadWindow -/

@[simp] theorem State.loadWindow_pins (s : State) : s.loadWindow.pins = s.pins := rfl
@[simp] theorem State.loadWindow_liu (s : State) : s.loadWindow.liu = s.liu := rfl
@[simp] theorem State.loadWindow_sel (s : State) : s.loadWindow.sel = s.sel := rfl
@[simp] theorem State.loadWindow_replica (s : State) : s.loadWindow.replica = s.replica := rfl
@[simp] theorem State.loadWindow_timer (s : State) :
    s.loadWindow.timer = { s.timer with window := .load Config.foundWindow } := rfl
@[simp] theorem State.loadWindow_xfer (s : State) : s.loadWindow.xfer = s.xfer := rfl
@[simp] theorem State.loadWindow_ctl (s : State) : s.loadWindow.ctl = s.ctl := rfl
@[simp] theorem State.loadWindow_desk (s : State) : s.loadWindow.desk = s.desk := rfl
@[simp] theorem State.loadWindow_attention (s : State) : s.loadWindow.attention = s.attention := rfl
@[simp] theorem State.loadWindow_port (s : State) : s.loadWindow.port = s.port := rfl
@[simp] theorem State.loadWindow_freeDraws (s : State) : s.loadWindow.freeDraws = s.freeDraws := rfl
@[simp] theorem State.loadWindow_pending (s : State) : s.loadWindow.pending = s.pending := rfl

/-! ## stopSending -/

@[simp] theorem State.stopSending_pins (s : State) : s.stopSending.pins = s.pins := rfl
@[simp] theorem State.stopSending_liu (s : State) : s.stopSending.liu = s.liu := rfl
@[simp] theorem State.stopSending_sel (s : State) : s.stopSending.sel = s.sel.dropPart := rfl
@[simp] theorem State.stopSending_replica (s : State) : s.stopSending.replica = s.replica := rfl
@[simp] theorem State.stopSending_timer (s : State) : s.stopSending.timer = s.timer := rfl
@[simp] theorem State.stopSending_xfer (s : State) :
    s.stopSending.xfer = { s.xfer with image := none, cursor := none } := rfl
@[simp] theorem State.stopSending_ctl (s : State) : s.stopSending.ctl = s.ctl := rfl
@[simp] theorem State.stopSending_desk (s : State) : s.stopSending.desk = s.desk := rfl
@[simp] theorem State.stopSending_attention (s : State) : s.stopSending.attention = s.attention := rfl
@[simp] theorem State.stopSending_port (s : State) : s.stopSending.port = s.port := rfl
@[simp] theorem State.stopSending_freeDraws (s : State) : s.stopSending.freeDraws = s.freeDraws := rfl
@[simp] theorem State.stopSending_pending (s : State) : s.stopSending.pending = s.pending := rfl

/-! ## exit -/

@[simp] theorem State.exit_pins (c : ExitCause) (st : StationState) (s : State) :
    (s.exit c st).pins = s.pins := rfl
@[simp] theorem State.exit_liu (c : ExitCause) (st : StationState) (s : State) :
    (s.exit c st).liu = s.liu := rfl
@[simp] theorem State.exit_sel (c : ExitCause) (st : StationState) (s : State) :
    (s.exit c st).sel = s.sel.cleared := rfl
@[simp] theorem State.exit_replica (c : ExitCause) (st : StationState) (s : State) :
    (s.exit c st).replica = Replica.empty := rfl
@[simp] theorem State.exit_timer (c : ExitCause) (st : StationState) (s : State) :
    (s.exit c st).timer = { s.timer with countdown := .stopped, window := .stopped } := rfl
@[simp] theorem State.exit_xfer (c : ExitCause) (st : StationState) (s : State) :
    (s.exit c st).xfer = TransferUnit.reset := rfl
@[simp] theorem State.exit_ctl (c : ExitCause) (st : StationState) (s : State) :
    (s.exit c st).ctl = { s.ctl.clearJoining with state := st, cause := c } := rfl
@[simp] theorem State.exit_desk (c : ExitCause) (st : StationState) (s : State) :
    (s.exit c st).desk = s.desk.exitReport s.replica.seq := rfl
@[simp] theorem State.exit_attention (c : ExitCause) (st : StationState) (s : State) :
    (s.exit c st).attention = s.attention.stateChanged := rfl
@[simp] theorem State.exit_port (c : ExitCause) (st : StationState) (s : State) :
    (s.exit c st).port = s.port := rfl
@[simp] theorem State.exit_freeDraws (c : ExitCause) (st : StationState) (s : State) :
    (s.exit c st).freeDraws = s.freeDraws := rfl
@[simp] theorem State.exit_pending (c : ExitCause) (st : StationState) (s : State) :
    (s.exit c st).pending = s.pending := rfl

/-! ## enterSynced -/

@[simp] theorem State.enterSynced_pins (s : State) : s.enterSynced.pins = s.pins := rfl
@[simp] theorem State.enterSynced_liu (s : State) : s.enterSynced.liu = s.liu := rfl
@[simp] theorem State.enterSynced_sel (s : State) :
    s.enterSynced.sel = { s.sel.cleared with streak := s.sel.streak } := rfl
@[simp] theorem State.enterSynced_replica (s : State) : s.enterSynced.replica = s.replica := rfl
@[simp] theorem State.enterSynced_timer (s : State) :
    s.enterSynced.timer = { s.timer with countdown := .load s.timer.interval, window := .stopped } := rfl
@[simp] theorem State.enterSynced_xfer (s : State) : s.enterSynced.xfer = s.xfer := rfl
@[simp] theorem State.enterSynced_ctl (s : State) :
    s.enterSynced.ctl = { s.ctl.clearJoining with state := .synced } := rfl
@[simp] theorem State.enterSynced_desk (s : State) : s.enterSynced.desk = s.desk := rfl
@[simp] theorem State.enterSynced_attention (s : State) :
    s.enterSynced.attention = s.attention.stateChanged := rfl
@[simp] theorem State.enterSynced_port (s : State) : s.enterSynced.port = s.port := rfl
@[simp] theorem State.enterSynced_freeDraws (s : State) : s.enterSynced.freeDraws = s.freeDraws := rfl
@[simp] theorem State.enterSynced_pending (s : State) : s.enterSynced.pending = s.pending := rfl

/-! ## withdraw -/

@[simp] theorem State.withdraw_pins (k : LeaveKind) (s : State) : (s.withdraw k).pins = s.pins := rfl
@[simp] theorem State.withdraw_liu (k : LeaveKind) (s : State) : (s.withdraw k).liu = s.liu := rfl
@[simp] theorem State.withdraw_replica (k : LeaveKind) (s : State) :
    (s.withdraw k).replica = Replica.empty := rfl
@[simp] theorem State.withdraw_timer (k : LeaveKind) (s : State) :
    (s.withdraw k).timer = { s.timer with countdown := .stopped, window := .stopped } := rfl
@[simp] theorem State.withdraw_xfer (k : LeaveKind) (s : State) :
    (s.withdraw k).xfer = { TransferUnit.reset with attempts := s.xfer.attempts } := rfl
@[simp] theorem State.withdraw_ctl (k : LeaveKind) (s : State) :
    (s.withdraw k).ctl = { s.ctl.clearJoining with state := .leaving k } := rfl
@[simp] theorem State.withdraw_desk (k : LeaveKind) (s : State) : (s.withdraw k).desk = s.desk := rfl
@[simp] theorem State.withdraw_attention (k : LeaveKind) (s : State) :
    (s.withdraw k).attention = s.attention.stateChanged := rfl
@[simp] theorem State.withdraw_port (k : LeaveKind) (s : State) : (s.withdraw k).port = s.port := rfl
@[simp] theorem State.withdraw_freeDraws (k : LeaveKind) (s : State) :
    (s.withdraw k).freeDraws = s.freeDraws := rfl
@[simp] theorem State.withdraw_pending (k : LeaveKind) (s : State) : (s.withdraw k).pending = s.pending := rfl

/-! ## offer -/

@[simp] theorem State.offer_pins (k : CandKind) (b : Body) (s : State) : (s.offer k b).pins = s.pins := rfl
@[simp] theorem State.offer_sel (k : CandKind) (b : Body) (s : State) :
    (s.offer k b).sel = { s.sel with onLine := some { kind := k, frame := { sender := s.own, body := b } } } := rfl
@[simp] theorem State.offer_replica (k : CandKind) (b : Body) (s : State) :
    (s.offer k b).replica = s.replica := rfl
@[simp] theorem State.offer_timer (k : CandKind) (b : Body) (s : State) : (s.offer k b).timer = s.timer := rfl
@[simp] theorem State.offer_xfer (k : CandKind) (b : Body) (s : State) : (s.offer k b).xfer = s.xfer := rfl
@[simp] theorem State.offer_ctl (k : CandKind) (b : Body) (s : State) : (s.offer k b).ctl = s.ctl := rfl
@[simp] theorem State.offer_desk (k : CandKind) (b : Body) (s : State) : (s.offer k b).desk = s.desk := rfl
@[simp] theorem State.offer_attention (k : CandKind) (b : Body) (s : State) :
    (s.offer k b).attention = s.attention := rfl
@[simp] theorem State.offer_port (k : CandKind) (b : Body) (s : State) : (s.offer k b).port = s.port := rfl
@[simp] theorem State.offer_freeDraws (k : CandKind) (b : Body) (s : State) :
    (s.offer k b).freeDraws = s.freeDraws := rfl
@[simp] theorem State.offer_pending (k : CandKind) (b : Body) (s : State) :
    (s.offer k b).pending = s.pending := rfl

/-! ## beatApplied -/

@[simp] theorem State.beatApplied_pins (s : State) : s.beatApplied.pins = s.pins := rfl
@[simp] theorem State.beatApplied_liu (s : State) : s.beatApplied.liu = s.liu := rfl
@[simp] theorem State.beatApplied_replica (s : State) : s.beatApplied.replica = s.replica := rfl
@[simp] theorem State.beatApplied_timer (s : State) :
    s.beatApplied.timer = { s.timer with countdown := .load s.timer.interval } := rfl
@[simp] theorem State.beatApplied_xfer (s : State) : s.beatApplied.xfer = s.xfer := rfl
@[simp] theorem State.beatApplied_ctl (s : State) : s.beatApplied.ctl = s.ctl := rfl
@[simp] theorem State.beatApplied_desk (s : State) : s.beatApplied.desk = s.desk := rfl
@[simp] theorem State.beatApplied_attention (s : State) : s.beatApplied.attention = s.attention := rfl
@[simp] theorem State.beatApplied_port (s : State) : s.beatApplied.port = s.port := rfl
@[simp] theorem State.beatApplied_freeDraws (s : State) : s.beatApplied.freeDraws = s.freeDraws := rfl
@[simp] theorem State.beatApplied_pending (s : State) : s.beatApplied.pending = s.pending := rfl

/-! ## headSent -/

@[simp] theorem State.headSent_pins (t : Table) (s : State) : (s.headSent t).pins = s.pins := rfl
@[simp] theorem State.headSent_liu (t : Table) (s : State) : (s.headSent t).liu = s.liu := rfl
@[simp] theorem State.headSent_sel (t : Table) (s : State) :
    (s.headSent t).sel = s.sel.dropPart.dropHead := rfl
@[simp] theorem State.headSent_replica (t : Table) (s : State) : (s.headSent t).replica = s.replica := rfl
@[simp] theorem State.headSent_timer (t : Table) (s : State) : (s.headSent t).timer = s.timer := rfl
@[simp] theorem State.headSent_xfer (t : Table) (s : State) :
    (s.headSent t).xfer = { s.xfer with image := some t, cursor := nextOccupied 0 t } := rfl
@[simp] theorem State.headSent_ctl (t : Table) (s : State) : (s.headSent t).ctl = s.ctl := rfl
@[simp] theorem State.headSent_desk (t : Table) (s : State) : (s.headSent t).desk = s.desk := rfl
@[simp] theorem State.headSent_attention (t : Table) (s : State) : (s.headSent t).attention = s.attention := rfl
@[simp] theorem State.headSent_port (t : Table) (s : State) : (s.headSent t).port = s.port := rfl
@[simp] theorem State.headSent_freeDraws (t : Table) (s : State) : (s.headSent t).freeDraws = s.freeDraws := rfl
@[simp] theorem State.headSent_pending (t : Table) (s : State) : (s.headSent t).pending = s.pending := rfl

/-! ## partSent -/

@[simp] theorem State.partSent_pins (s : State) : s.partSent.pins = s.pins := rfl
@[simp] theorem State.partSent_liu (s : State) : s.partSent.liu = s.liu := rfl
@[simp] theorem State.partSent_sel (s : State) : s.partSent.sel = s.sel.dropPart := rfl
@[simp] theorem State.partSent_replica (s : State) : s.partSent.replica = s.replica := rfl
@[simp] theorem State.partSent_timer (s : State) : s.partSent.timer = s.timer := rfl
@[simp] theorem State.partSent_ctl (s : State) : s.partSent.ctl = s.ctl := rfl
@[simp] theorem State.partSent_desk (s : State) : s.partSent.desk = s.desk := rfl
@[simp] theorem State.partSent_attention (s : State) : s.partSent.attention = s.attention := rfl
@[simp] theorem State.partSent_port (s : State) : s.partSent.port = s.port := rfl
@[simp] theorem State.partSent_freeDraws (s : State) : s.partSent.freeDraws = s.freeDraws := rfl
@[simp] theorem State.partSent_pending (s : State) : s.partSent.pending = s.pending := rfl

/-! ## offLine -/

@[simp] theorem State.offLine_pins (s : State) : s.offLine.pins = s.pins := rfl
@[simp] theorem State.offLine_liu (s : State) : s.offLine.liu = s.liu := rfl
@[simp] theorem State.offLine_sel (s : State) : s.offLine.sel = { s.sel with onLine := none } := rfl
@[simp] theorem State.offLine_replica (s : State) : s.offLine.replica = s.replica := rfl
@[simp] theorem State.offLine_timer (s : State) : s.offLine.timer = s.timer := rfl
@[simp] theorem State.offLine_xfer (s : State) : s.offLine.xfer = s.xfer := rfl
@[simp] theorem State.offLine_ctl (s : State) : s.offLine.ctl = s.ctl := rfl
@[simp] theorem State.offLine_desk (s : State) : s.offLine.desk = s.desk := rfl
@[simp] theorem State.offLine_attention (s : State) : s.offLine.attention = s.attention := rfl
@[simp] theorem State.offLine_port (s : State) : s.offLine.port = s.port := rfl
@[simp] theorem State.offLine_freeDraws (s : State) : s.offLine.freeDraws = s.freeDraws := rfl
@[simp] theorem State.offLine_pending (s : State) : s.offLine.pending = s.pending := rfl

/-! ## keepEnd -/

@[simp] theorem State.keepEnd_pins (e : FrameEnd) (k : Option CandKind) (s : State) :
    (s.keepEnd e k).pins = s.pins := rfl
@[simp] theorem State.keepEnd_liu (e : FrameEnd) (k : Option CandKind) (s : State) :
    (s.keepEnd e k).liu = s.liu := rfl
@[simp] theorem State.keepEnd_sel (e : FrameEnd) (k : Option CandKind) (s : State) :
    (s.keepEnd e k).sel = { s.sel with brokenEnds :=
      if e.sent == .broken then s.sel.brokenEnds ++ [{ kind := k, frameEnd := e }] else s.sel.brokenEnds } := rfl
@[simp] theorem State.keepEnd_replica (e : FrameEnd) (k : Option CandKind) (s : State) :
    (s.keepEnd e k).replica = s.replica := rfl
@[simp] theorem State.keepEnd_timer (e : FrameEnd) (k : Option CandKind) (s : State) :
    (s.keepEnd e k).timer = s.timer := rfl
@[simp] theorem State.keepEnd_xfer (e : FrameEnd) (k : Option CandKind) (s : State) :
    (s.keepEnd e k).xfer = s.xfer := rfl
@[simp] theorem State.keepEnd_ctl (e : FrameEnd) (k : Option CandKind) (s : State) :
    (s.keepEnd e k).ctl = s.ctl := rfl
@[simp] theorem State.keepEnd_desk (e : FrameEnd) (k : Option CandKind) (s : State) :
    (s.keepEnd e k).desk = s.desk := rfl
@[simp] theorem State.keepEnd_attention (e : FrameEnd) (k : Option CandKind) (s : State) :
    (s.keepEnd e k).attention = s.attention := rfl
@[simp] theorem State.keepEnd_port (e : FrameEnd) (k : Option CandKind) (s : State) :
    (s.keepEnd e k).port = s.port := rfl
@[simp] theorem State.keepEnd_freeDraws (e : FrameEnd) (k : Option CandKind) (s : State) :
    (s.keepEnd e k).freeDraws = s.freeDraws := rfl
@[simp] theorem State.keepEnd_pending (e : FrameEnd) (k : Option CandKind) (s : State) :
    (s.keepEnd e k).pending = s.pending := rfl

/-- An end that is handed at once keeps nothing. -/
theorem State.keepEnd_handed {e : FrameEnd} (h : e.sent ≠ .broken) (k : Option CandKind) (s : State) : s.keepEnd e k = s := by
  have : (e.sent == .broken) = false := by simpa using h
  simp [State.keepEnd, this]

/-! ## atBoundary -/

@[simp] theorem State.atBoundary_pins (seen : Bool) (s : State) : (s.atBoundary seen).pins = s.pins := rfl
@[simp] theorem State.atBoundary_liu (seen : Bool) (s : State) :
    (s.atBoundary seen).liu = { s.liu with sampler := Sampler.boundary seen } := rfl
@[simp] theorem State.atBoundary_sel (seen : Bool) (s : State) : (s.atBoundary seen).sel = s.sel := rfl
@[simp] theorem State.atBoundary_replica (seen : Bool) (s : State) : (s.atBoundary seen).replica = s.replica := rfl
@[simp] theorem State.atBoundary_timer (seen : Bool) (s : State) : (s.atBoundary seen).timer = s.timer := rfl
@[simp] theorem State.atBoundary_xfer (seen : Bool) (s : State) : (s.atBoundary seen).xfer = s.xfer := rfl
@[simp] theorem State.atBoundary_ctl (seen : Bool) (s : State) : (s.atBoundary seen).ctl = s.ctl := rfl
@[simp] theorem State.atBoundary_desk (seen : Bool) (s : State) : (s.atBoundary seen).desk = s.desk := rfl
@[simp] theorem State.atBoundary_attention (seen : Bool) (s : State) :
    (s.atBoundary seen).attention = s.attention := rfl
@[simp] theorem State.atBoundary_port (seen : Bool) (s : State) : (s.atBoundary seen).port = s.port := rfl
@[simp] theorem State.atBoundary_freeDraws (seen : Bool) (s : State) :
    (s.atBoundary seen).freeDraws = s.freeDraws := rfl
@[simp] theorem State.atBoundary_pending (seen : Bool) (s : State) : (s.atBoundary seen).pending = s.pending := rfl

end Sys2Proof.Machine
end

