-- ==== Sys2Proof/Laws/Kept.lean ====
section
/-! SUPPORT. What each shared operation does to the invariant `State.Kept`. -/

namespace Sys2Proof.Machine

/-- The invariant reads none of these: the pins, the LIU, the attention flags, the port, the draws, the queue. -/
theorem State.Kept.congr {s t : State} (h : s.Kept) (hr : t.replica = s.replica) (hc : t.ctl.state = s.ctl.state)
    (hd : t.desk = s.desk) (hx : t.xfer = s.xfer) (ht : t.timer = s.timer) (hs : t.sel = s.sel) : t.Kept := by
  obtain ⟨h1, h2, h3, h4, h5, h6, h7, h8, h9, h10, h11, h12, h13, h14, h15, h16, h17, h18, h19, h20⟩ := h
  constructor <;> simp only [hr, hc, hd, hx, ht, hs] <;> assumption

/-- A change of the candidates and counts within their ranges. -/
theorem State.Kept.withSel {s : State} (h : s.Kept) (x : Selector) (h1 : x.streak < Config.streakLimit)
    (h2 : x.requestCount < Config.objectionLimit) (h3 : x.joinCount < Config.objectionLimit)
    (h4 : x.leaveCount < Config.objectionLimit) (h5 : x.partCount < Config.objectionLimit)
    (h6 : x.headCount < Config.objectionLimit) (h7 : ∀ b ∈ x.brokenEnds, b.frameEnd.sent = .broken) :
    State.Kept { s with sel := x } :=
  { h with
    streakFits := h1, requestCountFits := h2, joinCountFits := h3, leaveCountFits := h4
    partCountFits := h5, headCountFits := h6, brokenEndsBroken := h7 }

/-- The frame ends that wait are those of broken frames, whatever they count against. -/
theorem settled_broken {x : Selector} (h : ∀ b ∈ x.brokenEnds, b.frameEnd.sent = .broken) (g : CandKind → Bool) :
    ∀ b ∈ (x.forget g).brokenEnds, b.frameEnd.sent = .broken := by
  intro b hb
  obtain ⟨a, ha, rfl⟩ := List.mem_map.mp hb
  exact h a ha

/-- So too where every candidate goes. -/
theorem cleared_broken {x : Selector} (h : ∀ b ∈ x.brokenEnds, b.frameEnd.sent = .broken) :
    ∀ b ∈ x.cleared.brokenEnds, b.frameEnd.sent = .broken :=
  settled_broken h _

/-- A desk that shrinks. -/
theorem State.Kept.withDesk {s : State} (h : s.Kept) (d : Desk) (hd : s.desk.Shrinks d) :
    State.Kept { s with desk := d } :=
  { h with
    deskEmpty := fun m => hd.empty (h.deskEmpty m)
    requestsFit := Nat.le_trans hd.1 h.requestsFit
    claimsFit := Nat.le_trans hd.2 h.claimsFit }

theorem empty_ordered : RosterOrdered Replica.empty.roster := List.Pairwise.nil

theorem emptyTable_length : emptyTable.length = Config.slots := List.length_replicate

theorem Replica.empty_length : Replica.empty.table.length = Config.slots := by
  simp [Replica.empty, emptyTable]

/-! ## The Station Controller's moves -/

/-- An exit leaves a kept state whatever stood before it, but for the interval and the broken ends. -/
theorem exit_kept {s : State} (hi : Config.minInterval ≤ s.timer.interval ∧
    s.timer.interval ≤ Config.maxInterval) (hb : ∀ b ∈ s.sel.brokenEnds, b.frameEnd.sent = .broken) (cause : ExitCause) (st : StationState)
    (hst : st = .idle ∨ st = .halted) : (s.exit cause st).Kept := by
  constructor <;>
    rcases hst with rfl | rfl <;>
    simp_all [State.exit, TransferUnit.reset, Selector.cleared, Selector.reset,
      Controller.clearJoining, Config.streakLimit, Config.objectionLimit, Replica.empty_length, empty_ordered,
      StationState.isMember]

theorem exitOn_kept {s : State} (h : s.Kept) (cause : ExitCause) : (s.exitOn cause).Kept := by
  unfold State.exitOn
  split
  · exact exit_kept h.intervalLegal h.brokenEndsBroken _ _ (.inl rfl)
  · exact h

theorem duplicateReport_kept {s : State} (h : s.Kept) : s.duplicateReport.Kept := by
  unfold State.duplicateReport
  split
  · exact (exit_kept h.intervalLegal h.brokenEndsBroken .duplicate .halted (.inr rfl)).congr rfl rfl rfl rfl rfl rfl
  · split
    · rename_i hp hi
      obtain ⟨h1, h2, h3, h4, h5, h6, h7, h8, h9, h10, h11, h12, h13, h14, h15, h16, h17, h18, h19, h20⟩ := h
      constructor <;> simp_all [State.enter, Selector.cleared, Selector.reset, Config.streakLimit, Config.objectionLimit,
        StationState.isMember]
    · exact h

/-- What an entry to SYNCED needs of the state before it. -/
theorem enterSynced_kept {s : State} (h1 : s.replica.table.length = Config.slots)
    (h2 : s.xfer = TransferUnit.reset ∨ (s.xfer.image = none ∧ s.xfer.cursor = none ∧ s.xfer.journal = [] ∧
      s.xfer.phase = none))
    (h3 : s.desk.requests.length ≤ Config.maxRequests) (h4 : s.desk.claims.length ≤ Config.maxClaims)
    (h5 : Config.minInterval ≤ s.timer.interval ∧ s.timer.interval ≤ Config.maxInterval)
    (h6 : s.sel.streak < Config.streakLimit) (h7 : RosterOrdered s.replica.roster)
    (h8 : ∀ b ∈ s.sel.brokenEnds, b.frameEnd.sent = .broken) : s.enterSynced.Kept := by
  constructor <;> rcases h2 with h2 | h2 <;>
    simp_all [State.enterSynced, State.enter, Controller.clearJoining, Selector.cleared, Selector.reset,
      TransferUnit.reset, StationState.isMember, Config.objectionLimit]

/-- A withdrawal needs an empty desk: the station is no member. -/
theorem withdraw_kept {s : State} (k : LeaveKind) (hk : k ≠ .member)
    (h4 : s.desk.requests = [] ∧ s.desk.claims = [])
    (h5 : Config.minInterval ≤ s.timer.interval ∧ s.timer.interval ≤ Config.maxInterval)
    (h6 : s.sel.streak < Config.streakLimit) (h7 : ∀ b ∈ s.sel.brokenEnds, b.frameEnd.sent = .broken) :
    (s.withdraw k).Kept := by
  cases k <;> simp at hk <;>
  constructor <;>
    simp_all [State.withdraw, State.enter, Controller.clearJoining, Selector.cleared, Selector.reset,
      TransferUnit.reset, StationState.isMember, Config.objectionLimit, Replica.empty_length, empty_ordered]

theorem abandonLoad_kept {s : State} (h : s.Kept) (hl : s.ctl.state = .loading) : s.abandonLoad.Kept := by
  have hd := h.deskEmpty (by simp [hl, StationState.isMember])
  unfold State.abandonLoad
  dsimp only
  split
  · obtain ⟨h1, h2, h3, h4, h5, h6, h7, h8, h9, h10, h11, h12, h13, h14, h15, h16, h17, h18, h19, h20⟩ := h
    constructor <;> simp_all [State.dropJoin, State.loadWindow, State.enter, TransferUnit.reset,
      StationState.isMember, Replica.empty_length, empty_ordered, Config.objectionLimit]
  · exact withdraw_kept .failed (by simp) hd h.intervalLegal h.streakFits (settled_broken h.brokenEndsBroken _)

theorem completeLoad_kept {s : State} (h : s.Kept) : s.completeLoad.Kept := by
  unfold State.completeLoad
  split
  · exact h
  · dsimp only
    have hs := Desk.takeReports_shrinks
    apply enterSynced_kept
    · simp [h.tableSlots]
    · exact .inl rfl
    · exact Nat.le_trans (hs _ _).1 h.requestsFit
    · exact Nat.le_trans (hs _ _).2 h.claimsFit
    · exact h.intervalLegal
    · exact h.streakFits
    · exact complete_ordered (setSilence_ordered (replay_ordered _ _ _ _ h.rosterOrdered) _ _) _
    · exact h.brokenEndsBroken

theorem loadBegun_kept {s : State} (h : s.Kept) (hj : s.ctl.state = .joining) (p : Station) (b : HeadBody) :
    (s.loadBegun p b).Kept := by
  obtain ⟨h1, h2, h3, h4, h5, h6, h7, h8, h9, h10, h11, h12, h13, h14, h15, h16, h17, h18, h19, h20⟩ := h
  have hx := h8 (by simp [hj])
  have hd := h4 (by simp [hj, StationState.isMember])
  have hb := h11 (by simp [hj, StationState.isMember])
  have h0 : (0 : Nat) < Config.objectionLimit := by simp [Config.objectionLimit]
  exact {
    tableSlots := emptyTable_length
    imageSlots := fun t ht => by simp [State.loadBegun, State.dropJoin, State.loadWindow, TransferUnit.reset] at ht
    nothingReplicated := fun _ hl => absurd rfl hl
    deskEmpty := fun _ => hd
    requestsFit := h5
    claimsFit := h6
    journalFits := Nat.zero_le _
    loadingOnly := fun hl => absurd rfl hl
    sendingOnly := fun _ => ⟨rfl, rfl⟩
    intervalLegal := h10
    beatStops := fun _ => hb
    windowStops := fun _ hl => absurd rfl hl
    streakFits := h13
    requestCountFits := h14
    joinCountFits := h0
    leaveCountFits := h16
    partCountFits := h17
    headCountFits := h18
    brokenEndsBroken := settled_broken h19 _
    rosterOrdered := setSilence_ordered (carriedRoster_ordered b) p 0 }

theorem startLoad_kept {s : State} (h : s.Kept) (hj : s.ctl.state = .joining) (p : Station) (b : HeadBody) :
    (s.startLoad p b).Kept := by
  unfold State.startLoad
  split
  · exact completeLoad_kept (loadBegun_kept h hj p b)
  · exact loadBegun_kept h hj p b

/-! ## Applied frames -/

theorem beatApplied_kept {s : State} (h : s.Kept) (hm : s.ctl.state.isMember = true) : s.beatApplied.Kept := by
  obtain ⟨h1, h2, h3, h4, h5, h6, h7, h8, h9, h10, h11, h12, h13, h14, h15, h16, h17, h18, h19, h20⟩ := h
  constructor <;> simp_all [State.beatApplied]

theorem ownApplied_kept {s : State} (h : s.Kept) (b : Body) :
    State.Kept { s with sel := s.sel.ownApplied b } := by
  have h0 : (0 : Nat) < Config.objectionLimit := by simp [Config.objectionLimit]
  apply h.withSel <;> cases b <;>
    first
    | exact h0
    | exact h.streakFits
    | exact h.requestCountFits
    | exact h.joinCountFits
    | exact h.leaveCountFits
    | exact h.partCountFits
    | exact h.headCountFits
    | exact h.brokenEndsBroken
    | exact settled_broken h.brokenEndsBroken _

theorem partSent_kept {s : State} (h : s.Kept) : s.partSent.Kept := by
  obtain ⟨h1, h2, h3, h4, h5, h6, h7, h8, h9, h10, h11, h12, h13, h14, h15, h16, h17, h18, h19, h20⟩ := h
  constructor <;> simp_all [State.partSent, Config.objectionLimit]

theorem stopSending_kept {s : State} (h : s.Kept) : s.stopSending.Kept := by
  obtain ⟨h1, h2, h3, h4, h5, h6, h7, h8, h9, h10, h11, h12, h13, h14, h15, h16, h17, h18, h19, h20⟩ := h
  constructor <;> simp_all [State.stopSending, Config.objectionLimit]

/-- The clauses that an application by a member may break until the candidates are settled. -/
theorem settleCandidates_kept {s : State} (hm : s.ctl.state.isMember = true)
    (h1 : s.replica.table.length = Config.slots) (h2 : ∀ t, s.xfer.image = some t → t.length = Config.slots)
    (h5 : s.desk.requests.length ≤ Config.maxRequests) (h6 : s.desk.claims.length ≤ Config.maxClaims)
    (h7 : s.xfer.journal = [] ∧ s.xfer.phase = none)
    (h10 : Config.minInterval ≤ s.timer.interval ∧ s.timer.interval ≤ Config.maxInterval)
    (h12 : s.timer.window = .stopped)
    (h13 : s.sel.streak < Config.streakLimit) (h14 : s.sel.requestCount < Config.objectionLimit)
    (h15 : s.sel.joinCount < Config.objectionLimit) (h16 : s.sel.leaveCount < Config.objectionLimit)
    (h17 : s.sel.partCount < Config.objectionLimit) (h18 : s.sel.headCount < Config.objectionLimit)
    (h19 : ∀ b ∈ s.sel.brokenEnds, b.frameEnd.sent = .broken) (h20 : RosterOrdered s.replica.roster) :
    s.settleCandidates.Kept := by
  have a : (if s.replica.transfer.isNone then s.stopSending else s).Kept := by
    split
    · constructor <;> simp_all [State.stopSending, Config.objectionLimit, StationState.isMember]
    · constructor <;> simp_all [StationState.isMember]
  unfold State.settleCandidates
  dsimp only
  generalize (if s.replica.transfer.isNone then s.stopSending else s) = t at a
  split
  · exact a
  · exact a.withSel _ a.streakFits a.requestCountFits a.joinCountFits a.leaveCountFits a.partCountFits
      (by simp [Config.objectionLimit]) (settled_broken a.brokenEndsBroken _)

theorem member_not_loading {st : StationState} (h : st.isMember = true) : st ≠ .loading ∧ st ≠ .joining := by
  constructor <;> rintro rfl <;> simp [StationState.isMember] at h

theorem memberApplied_kept {s : State} (h : s.Kept) (hm : s.ctl.state.isMember = true) (f : Frame)
    (own : Bool) : (s.memberApplied f own).settleCandidates.Kept := by
  have hn := member_not_loading hm
  have hj := h.loadingOnly hn.1
  have hw := h.windowStops hn.2 hn.1
  have hsh := Desk.takeReports_shrinks (s.memberEffect f own).reports s.desk
  have hr := Nat.le_trans hsh.1 h.requestsFit
  have hc := Nat.le_trans hsh.2 h.claimsFit
  have hl : (s.memberEffect f own).replica.table.length = Config.slots := by
    simp [State.memberEffect, h.tableSlots]
  have ho : RosterOrdered (s.memberEffect f own).replica.roster := apply_ordered _ _ _ _ _ h.rosterOrdered
  have hx : State.Kept { s with sel := if own then s.sel.ownApplied f.body else s.sel } := by
    split
    · exact ownApplied_kept h _
    · exact h
  have ht := h.tableSlots
  unfold State.memberApplied
  dsimp only
  generalize (if own = true then s.sel.ownApplied f.body else s.sel) = x at hx
  generalize s.memberEffect f own = a at hsh hr hc hl ho
  obtain ⟨h1, h2, h3, h4, h5, h6, h7, h8, h9, h10, h11, h12, h13, h14, h15, h16, h17, h18, h19, h20⟩ := hx
  have h0 : (0 : Nat) < Config.objectionLimit := by simp [Config.objectionLimit]
  unfold State.memberParts
  split <;> (try split) <;>
    (try simp only [State.beatApplied, State.headSent, State.partSent]) <;>
    apply settleCandidates_kept <;> first | assumption | simp_all

theorem applyMember_kept {s : State} (h : s.Kept) (hm : s.ctl.state.isMember = true) (f : Frame) (own : Bool) :
    (s.applyMember f own).Kept := by
  unfold State.applyMember
  dsimp only
  split
  · exact exitOn_kept (memberApplied_kept h hm f own) _
  · exact memberApplied_kept h hm f own

/-! ### In JOINING -/

theorem setJoin_kept {s : State} (h : s.Kept) : s.setJoin.Kept :=
  { h with joinCountFits := Nat.zero_lt_succ _ }

theorem dropJoin_kept {s : State} (h : s.Kept) : s.dropJoin.Kept :=
  { h with
    joinCountFits := Nat.zero_lt_succ _
    brokenEndsBroken := settled_broken h.brokenEndsBroken _ }

theorem loadWindow_kept {s : State} (h : s.Kept) (hw : s.ctl.state = .joining ∨ s.ctl.state = .loading) :
    s.loadWindow.Kept :=
  { h with windowStops := fun a b => (hw.elim a b).elim }

theorem joinSeen_kept {s : State} (h : s.Kept) (hj : s.ctl.state = .joining) (j : Station) (own : Bool) :
    (s.joinSeen j own).Kept := by
  unfold State.joinSeen
  dsimp only
  split
  · have a : State.Kept (State.loadWindow (State.dropJoin s)) := loadWindow_kept (dropJoin_kept h) (.inl hj)
    split <;> exact a.congr rfl rfl rfl rfl rfl rfl
  · split
    · exact h
    · exact h.congr rfl rfl rfl rfl rfl rfl

theorem groupNoted_kept {s : State} (h : s.Kept) (hj : s.ctl.state = .joining) :
    s.groupNoted.Kept ∧ s.groupNoted.ctl.state = .joining := by
  have a : State.Kept { s with ctl := { s.ctl with groupSeen := true, preGroup := [] },
                               sel := { s.sel with found := false } } :=
    (h.withSel { s.sel with found := false } h.streakFits h.requestCountFits h.joinCountFits
      h.leaveCountFits h.partCountFits h.headCountFits h.brokenEndsBroken).congr rfl rfl rfl rfl rfl rfl
  unfold State.groupNoted
  dsimp only
  split
  · exact ⟨loadWindow_kept a (.inl hj), hj⟩
  · exact ⟨a, hj⟩

theorem queueRead_kept {s : State} (h : s.Kept) (q : List Station) : (s.queueRead q).Kept := by
  unfold State.queueRead
  split
  · exact (dropJoin_kept h).congr rfl rfl rfl rfl rfl rfl
  · split
    · exact h.congr rfl rfl rfl rfl rfl rfl
    · exact (setJoin_kept h).congr rfl rfl rfl rfl rfl rfl

@[simp] theorem queueRead_state (q : List Station) (s : State) : (s.queueRead q).ctl.state = s.ctl.state := by
  unfold State.queueRead
  split
  · rfl
  · split <;> rfl

theorem groupFrame_kept {s : State} (h : s.Kept) (hj : s.ctl.state = .joining) (q : Option (List Station)) :
    (s.groupFrame q).Kept ∧ (s.groupFrame q).ctl.state = .joining := by
  have a := groupNoted_kept h hj
  cases q with
  | none => exact a
  | some q => exact ⟨queueRead_kept a.1 q, (queueRead_state q _).trans a.2⟩

theorem foundGroup_kept {s : State} (h : s.Kept) (hj : s.ctl.state = .joining) (b : HeadBody) :
    (s.foundGroup b).Kept := by
  have hm : s.ctl.state.isMember = false := by simp [hj, StationState.isMember]
  have hs := h.sendingOnly (.inl hm)
  have hl := h.loadingOnly (by simp [hj])
  unfold State.foundGroup
  exact enterSynced_kept emptyTable_length (.inr ⟨hs.1, hs.2, hl.1, hl.2⟩) h.requestsFit h.claimsFit
    h.intervalLegal h.streakFits (List.pairwise_singleton _ _) h.brokenEndsBroken

theorem applyJoining_kept {s : State} (h : s.Kept) (hj : s.ctl.state = .joining) (f : Frame) (own : Bool) :
    (s.applyJoining f own).Kept := by
  unfold State.applyJoining
  split
  · exact joinSeen_kept h hj _ _
  · split
    · exact foundGroup_kept h hj _
    · exact (groupFrame_kept h hj _).1
  · dsimp only
    split
    · exact startLoad_kept (groupFrame_kept h hj _).1 (groupFrame_kept h hj _).2 _ _
    · exact (groupFrame_kept h hj _).1
  all_goals exact (groupFrame_kept h hj _).1

/-! ### In LOADING -/

/-- A change within the load: the table's length, the journal's and the sending side as they must be. -/
theorem State.Kept.withLoad {s : State} (h : s.Kept) (hl : s.ctl.state = .loading) (r : Replica) (x : TransferUnit)
    (h1 : r.table.length = Config.slots) (h5 : RosterOrdered r.roster) (h2 : x.image = s.xfer.image) (h3 : x.cursor = s.xfer.cursor)
    (h4 : x.journal.length ≤ Config.maxJournal) : State.Kept { s with replica := r, xfer := x } := by
  have hs := h.sendingOnly (.inl (by simp [hl, StationState.isMember]))
  exact { h with
    tableSlots := h1
    imageSlots := fun t ht => h.imageSlots t (by simpa [h2] using ht)
    nothingReplicated := fun _ hn => absurd hl hn
    journalFits := h4
    loadingOnly := fun hn => absurd hl hn
    sendingOnly := fun _ => ⟨h2.trans hs.1, h3.trans hs.2⟩
    rosterOrdered := h5 }

theorem record_kept {s : State} (h : s.Kept) (hl : s.ctl.state = .loading) (f : Frame) :
    (s.record f).Kept ∧ (s.record f).ctl.state = .loading := by
  unfold State.record
  split
  · split
    · rename_i hlt
      exact ⟨h.withLoad hl s.replica _ h.tableSlots h.rosterOrdered rfl rfl (by simp; omega), hl⟩
    · exact ⟨setJoin_kept (h.withLoad hl s.replica _ h.tableSlots h.rosterOrdered rfl rfl (Nat.zero_le _)), hl⟩
  · exact ⟨h, hl⟩

theorem partCounted_kept {s : State} (h : s.Kept) (hl : s.ctl.state = .loading) (t : Transfer) :
    (s.partCounted t).Kept :=
  h.withLoad hl _ _ h.tableSlots (setSilence_ordered h.rosterOrdered _ _) rfl rfl h.journalFits

theorem partTaken_kept {s : State} (h : s.Kept) (hl : s.ctl.state = .loading) (b : PartBody) (t : Transfer) :
    (s.partTaken b t).Kept := by
  have hc := partCounted_kept h hl t
  unfold State.partTaken
  dsimp only
  split
  · have hi : State.Kept { s.partCounted t with replica := { (s.partCounted t).replica with
        table := (s.partCounted t).replica.table.set b.slot.toNat (some (carriedSlot b)) } } :=
      hc.withLoad hl _ _ (by simp [hc.tableSlots]) hc.rosterOrdered rfl rfl hc.journalFits
    split
    · exact completeLoad_kept hi
    · exact hi
  · exact hc

theorem idleBeat_kept {s : State} (h : s.Kept) (hl : s.ctl.state = .loading) (t : Transfer) :
    (s.idleBeat t).Kept := by
  unfold State.idleBeat
  split
  · exact abandonLoad_kept h hl
  · exact h.withLoad hl _ _ h.tableSlots h.rosterOrdered rfl rfl h.journalFits

theorem beatTracked_kept {s : State} (h : s.Kept) (hl : s.ctl.state = .loading) (p : Station) (t : Transfer) :
    (s.beatTracked p t).Kept := by
  unfold State.beatTracked
  split
  · exact idleBeat_kept h hl t
  · split
    · exact abandonLoad_kept h hl
    · exact idleBeat_kept (h.withLoad hl s.replica { s.xfer with watch := s.xfer.watch + 1 } h.tableSlots h.rosterOrdered rfl rfl
        h.journalFits) hl t

theorem applyLoading_kept {s : State} (h : s.Kept) (hl : s.ctl.state = .loading) (f : Frame) (own : Bool) :
    (s.applyLoading f own).Kept := by
  have a : State.Kept (State.loadWindow { s with replica := { s.replica with seq := s.replica.seq + 1 } }) :=
    loadWindow_kept (h.withLoad hl { s.replica with seq := s.replica.seq + 1 } s.xfer h.tableSlots h.rosterOrdered rfl rfl
      h.journalFits) (.inr hl)
  unfold State.applyLoading
  dsimp only
  split
  · exact a
  · rename_i t _
    have b : ∀ u : State, u = (if f.sender == t.sender then
        { State.loadWindow { s with replica := { s.replica with seq := s.replica.seq + 1 } } with
          xfer := { (State.loadWindow { s with replica := { s.replica with seq := s.replica.seq + 1 } }).xfer with
            watch := 0 } }
        else State.loadWindow { s with replica := { s.replica with seq := s.replica.seq + 1 } }) →
        u.Kept ∧ u.ctl.state = .loading := by
      rintro u rfl
      split
      · exact ⟨a.withLoad hl _ _ a.tableSlots a.rosterOrdered rfl rfl a.journalFits, hl⟩
      · exact ⟨a, hl⟩
    generalize hu : (if (f.sender == t.sender) = true then _ else _) = u
    obtain ⟨hk, hs⟩ := b u hu.symm
    split
    · exact beatTracked_kept (record_kept hk hs f).1 (record_kept hk hs f).2 _ _
    · exact (record_kept hk hs f).1
    · exact hk
    · split
      · exact partTaken_kept hk hs _ _
      · exact hk
    · split
      · rename_i hj
        exact (groupFrame_kept (abandonLoad_kept hk hs) hj _).1
      · exact abandonLoad_kept hk hs
    · exact hk
    · split
      · exact abandonLoad_kept hk hs
      · exact (record_kept hk hs f).1
    · exact (record_kept hk hs f).1
    · exact (record_kept hk hs f).1
    · exact (record_kept hk hs f).1
    · split
      · exact abandonLoad_kept (hk.congr rfl rfl rfl rfl rfl rfl) hs
      · exact (record_kept hk hs f).1

/-- An applied frame keeps the invariant, in every state. -/
theorem applyFrame_kept {s : State} (h : s.Kept) (f : Frame) (own : Bool) : (s.applyFrame f own).Kept := by
  unfold State.applyFrame
  split
  · exact h
  · exact h
  · rename_i hs
    exact applyJoining_kept h hs f own
  · rename_i hs
    exact applyLoading_kept h hs f own
  · rename_i hs
    exact applyMember_kept h (by simp [hs, StationState.isMember]) f own
  · rename_i hs
    exact applyMember_kept h (by simp [hs, StationState.isMember]) f own
  · split
    · exact exitOn_kept h _
    · exact h
  · split
    · exact exitOn_kept h _
    · exact h
  · exact h

/-! ## Choices -/

theorem offer_kept {s : State} (h : s.Kept) (k : CandKind) (b : Body) : (s.offer k b).Kept :=
  (h.withSel { s.sel with onLine := some { kind := some k, frame := { sender := s.own, body := b } } }
    h.streakFits h.requestCountFits h.joinCountFits h.leaveCountFits h.partCountFits h.headCountFits
    h.brokenEndsBroken).congr rfl rfl rfl rfl rfl rfl

theorem preCheck_kept {s : State} (h : s.Kept) : s.preCheck.Kept := by
  unfold State.preCheck
  dsimp only
  have a := h.withDesk _ (Desk.preCheck_shrinks s.desk.requests.length s.desk)
  split
  · exact a
  · exact a.withSel _ a.streakFits (Nat.zero_lt_succ _) a.joinCountFits a.leaveCountFits a.partCountFits
      a.headCountFits (settled_broken a.brokenEndsBroken _)

theorem choice_kept {s : State} (h : s.Kept) : s.choice.Kept := by
  unfold State.choice
  split
  · exact h
  · split
    · exact offer_kept h _ _
    · split
      · dsimp only
        split
        · exact preCheck_kept h
        · exact offer_kept (preCheck_kept h) _ _
      · split
        · exact offer_kept h _ _
        · exact h

theorem gapChoice_kept {s : State} (h : s.Kept) : s.gapChoice.Kept := by
  unfold State.gapChoice
  split
  · exact choice_kept h
  · exact h

/-! ## The frame end -/

theorem abortHead_kept {s : State} (h : s.Kept) (t : Ticket) : (s.abortHead t).Kept := by
  unfold State.abortHead
  split
  · have a := h.withDesk _ (Desk.concludeHead_shrinks .aborted none none s.desk)
    exact a.withSel _ a.streakFits (Nat.zero_lt_succ _) a.joinCountFits a.leaveCountFits a.partCountFits
      a.headCountFits (settled_broken a.brokenEndsBroken _)
  · exact h

theorem countObjection_kept {s : State} (h : s.Kept) (k : CandKind) : (s.countObjection k).1.Kept := by
  have hr := h.requestCountFits
  have hj := h.joinCountFits
  have hl := h.leaveCountFits
  have hp := h.partCountFits
  have hh := h.headCountFits
  unfold State.countObjection
  split
  · split
    · exact abortHead_kept h _
    · split
      · split
        · have a := h.withDesk _ (Desk.concludeHead_shrinks .lineRefused none none s.desk)
          exact a.withSel _ a.streakFits (Nat.zero_lt_succ _) hj hl hp hh (settled_broken a.brokenEndsBroken _)
        · exact h.withSel _ h.streakFits (by dsimp only; omega) hj hl hp hh h.brokenEndsBroken
      · exact h
  · split
    · split
      · exact h
      · exact h.withSel _ h.streakFits hr (by dsimp only; omega) hl hp hh h.brokenEndsBroken
    · exact h
  · split
    · split
      · exact h
      · exact h.withSel _ h.streakFits hr hj (by dsimp only; omega) hp hh h.brokenEndsBroken
    · exact h
  · split
    · split
      · exact stopSending_kept h
      · exact h.withSel _ h.streakFits hr hj hl (by dsimp only; omega) hh h.brokenEndsBroken
    · exact h
  · split
    · split
      · exact h.withSel _ h.streakFits hr hj hl hp (Nat.zero_lt_succ _) (settled_broken h.brokenEndsBroken _)
      · exact h.withSel _ h.streakFits hr hj hl hp (by dsimp only; omega) h.brokenEndsBroken
    · exact h
  all_goals exact h

@[simp] theorem abortHead_ctl (t : Ticket) (s : State) : (s.abortHead t).ctl = s.ctl := by
  unfold State.abortHead
  split <;> rfl

@[simp] theorem abortHead_timer (t : Ticket) (s : State) : (s.abortHead t).timer = s.timer := by
  unfold State.abortHead
  split <;> rfl

/-- The broken ends of one selector are the other's, but for candidates that are gone. -/
def Selector.Settles (x y : Selector) : Prop := ∃ g, y.brokenEnds = x.brokenEnds.map (BrokenEnd.settle g)

theorem Selector.Settles.same {x y : Selector} (h : y.brokenEnds = x.brokenEnds) : x.Settles y :=
  ⟨fun _ => false, by simp [h]⟩

theorem Selector.Settles.broken {x y : Selector} (h : x.Settles y) (hb : ∀ b ∈ x.brokenEnds, b.frameEnd.sent = .broken) :
    ∀ b ∈ y.brokenEnds, b.frameEnd.sent = .broken := by
  obtain ⟨g, e⟩ := h
  rw [e]
  exact settled_broken hb g

theorem abortHead_settles (t : Ticket) (s : State) : s.sel.Settles (s.abortHead t).sel := by
  unfold State.abortHead
  split
  · exact ⟨_, rfl⟩
  · exact .same rfl

/-- Counting an objection touches neither the Station Controller nor the Beat Timer, and adds no broken end. -/
theorem countObjection_frame (k : CandKind) (s : State) :
    (s.countObjection k).1.ctl = s.ctl ∧ (s.countObjection k).1.timer = s.timer ∧
    s.sel.Settles (s.countObjection k).1.sel := by
  unfold State.countObjection
  split <;> (repeat' split) <;> first
    | exact ⟨rfl, rfl, .same rfl⟩
    | exact ⟨rfl, rfl, _, rfl⟩
    | exact ⟨abortHead_ctl _ _, abortHead_timer _ _, abortHead_settles _ _⟩

theorem ownEnd_frame (e : FrameEnd) (k : Option CandKind) (s : State) :
    (s.ownEnd e k).1.ctl = s.ctl ∧ (s.ownEnd e k).1.timer = s.timer ∧ s.sel.Settles (s.ownEnd e k).1.sel := by
  unfold State.ownEnd
  split
  · exact ⟨rfl, rfl, .same rfl⟩
  · split
    · exact ⟨rfl, rfl, .same rfl⟩
    · split
      · split
        · exact ⟨abortHead_ctl _ _, abortHead_timer _ _, abortHead_settles _ _⟩
        · exact ⟨rfl, rfl, .same rfl⟩
      · exact ⟨rfl, rfl, .same rfl⟩
    · exact countObjection_frame _ _
    · split
      · exact ⟨rfl, rfl, .same rfl⟩
      · exact countObjection_frame _ _

theorem ownEnd_kept {s : State} (h : s.Kept) (e : FrameEnd) (k : Option CandKind) : (s.ownEnd e k).1.Kept := by
  unfold State.ownEnd
  split
  · exact h
  · split
    · exact h
    · split
      · split
        · exact abortHead_kept h _
        · exact h
      · exact h
    · exact countObjection_kept h _
    · split
      · exact h
      · exact countObjection_kept h _

/-- An exit asked for at a kept state. -/
theorem takeExits_kept {s : State} (h : s.Kept) (first : FirstTrigger) (due : Bool) (c : Option ExitCause) :
    (s.takeExits first due c).Kept := by
  unfold State.takeExits
  split
  · exact h
  · exact exitOn_kept h _
  · exact exitOn_kept h _
  · split
    · exact exitOn_kept (exitOn_kept h _) _
    · exact exitOn_kept (exitOn_kept h _) _
    · have a : State.Kept { s with freeDraws := s.freeDraws + 1 } := h.congr rfl rfl rfl rfl rfl rfl
      dsimp only
      split <;> exact exitOn_kept (exitOn_kept a _) _

/-- An exit leaves a kept state whatever the counts were: it needs only the interval and the broken ends. -/
theorem exitOn_then_streak_kept {s : State} (hi : Config.minInterval ≤ s.timer.interval ∧
    s.timer.interval ≤ Config.maxInterval) (hb : ∀ b ∈ s.sel.brokenEnds, b.frameEnd.sent = .broken)
    (hp : s.ctl.state.participating = true) (c : ExitCause) :
    ((s.exitOn .streak).exitOn c).Kept ∧ ((s.exitOn c).exitOn .streak).Kept ∧ (s.exitOn .streak).Kept := by
  have a : (s.exitOn .streak).Kept := by
    simp only [State.exitOn, exitTaken, hp, if_true]
    exact exit_kept hi hb _ _ (.inl rfl)
  refine ⟨exitOn_kept a c, ?_, a⟩
  by_cases hc : exitTaken c s.ctl.state = true
  · have b : (s.exitOn c).Kept := by
      simp only [State.exitOn, hc, if_true]
      exact exit_kept hi hb _ _ (.inl rfl)
    exact exitOn_kept b _
  · have b : s.exitOn c = s := by simp [State.exitOn, hc]
    rw [b]
    exact a

/-- The streak's exit, when it is due at a participant. -/
theorem takeExits_due_kept {s : State} (hi : Config.minInterval ≤ s.timer.interval ∧
    s.timer.interval ≤ Config.maxInterval) (hb : ∀ b ∈ s.sel.brokenEnds, b.frameEnd.sent = .broken)
    (hp : s.ctl.state.participating = true) (first : FirstTrigger) (c : Option ExitCause) :
    (s.takeExits first true c).Kept := by
  unfold State.takeExits
  cases c with
  | none => exact (exitOn_then_streak_kept hi hb hp .streak).2.2
  | some c =>
    dsimp only
    split
    · exact (exitOn_then_streak_kept hi hb hp c).1
    · exact (exitOn_then_streak_kept hi hb hp c).2.1
    · split
      · exact (exitOn_then_streak_kept (s := { s with freeDraws := s.freeDraws + 1 }) hi hb hp c).1
      · exact (exitOn_then_streak_kept (s := { s with freeDraws := s.freeDraws + 1 }) hi hb hp c).2.1

theorem nextStreak_le (n : Nat) (e : FrameEnd) : nextStreak n e ≤ n + 1 := by
  unfold nextStreak
  split
  · omega
  · split <;> (try split) <;> omega

theorem nextStreak_grows {n : Nat} {e : FrameEnd} (h : n < nextStreak n e) :
    e.raised = .error ∧ e.sent ≠ .broken := by
  unfold nextStreak at h
  split at h
  · omega
  · rename_i hs
    refine ⟨?_, by simpa using hs⟩
    split at h <;> first
      | assumption
      | (exfalso; first | omega | (split at h <;> omega))

theorem frameEnd_kept {s : State} (h : s.Kept) (first : FirstTrigger) (e : FrameEnd) (k : Option CandKind)
    (he : e.raised = .error → e.sent ≠ .broken → s.ctl.state.participating = true) :
    (s.frameEnd first e k).Kept := by
  unfold State.frameEnd
  dsimp only
  by_cases hn : Config.streakLimit ≤ nextStreak s.sel.streak e
  · have hp : s.ctl.state.participating = true := by
      have := nextStreak_grows (n := s.sel.streak) (e := e) (by have := h.streakFits; omega)
      exact he this.1 this.2
    rw [decide_eq_true hn]
    have f := ownEnd_frame e k { s with sel := { s.sel with streak := nextStreak s.sel.streak e, lastEnd := some e } }
    apply takeExits_due_kept
    · dsimp only
      rw [f.2.1]
      exact h.intervalLegal
    · exact f.2.2.broken h.brokenEndsBroken
    · dsimp only
      rw [f.1]
      exact hp
  · have a : State.Kept { s with sel := { s.sel with streak := nextStreak s.sel.streak e, lastEnd := some e } } :=
      h.withSel _ (by simpa using hn) h.requestCountFits h.joinCountFits h.leaveCountFits h.partCountFits
        h.headCountFits h.brokenEndsBroken
    have b := ownEnd_kept a e k
    apply takeExits_kept
    exact b.withSel _ b.streakFits b.requestCountFits b.joinCountFits b.leaveCountFits b.partCountFits
      b.headCountFits b.brokenEndsBroken

theorem handBrokenEnds_kept {s : State} (h : s.Kept) : s.handBrokenEnds.Kept := by
  unfold State.handBrokenEnds
  have hb := h.brokenEndsBroken
  have a : State.Kept { s with sel := { s.sel with brokenEnds := [] } } :=
    h.withSel _ h.streakFits h.requestCountFits h.joinCountFits h.leaveCountFits h.partCountFits
      h.headCountFits (by simp)
  generalize ({ s with sel := { s.sel with brokenEnds := [] } } : State) = t at a
  generalize s.sel.brokenEnds = bs at hb
  induction bs generalizing t with
  | nil => exact a
  | cons b bs ih =>
    simp only [List.foldl_cons]
    refine ih _ ?_ fun x hx => hb x (List.mem_cons_of_mem _ hx)
    exact frameEnd_kept a _ _ _ fun _ hs => absurd (hb b (List.mem_cons_self ..)) hs

/-! ## Choices leave the Station Controller -/

@[simp] theorem preCheck_ctl (s : State) : s.preCheck.ctl = s.ctl := rfl

/-- A choice leaves the Station Controller as it stands. -/
@[simp] theorem choice_ctl (s : State) : s.choice.ctl = s.ctl := by
  unfold State.choice
  split
  · rfl
  · split
    · rfl
    · split
      · dsimp only
        split <;> rfl
      · split <;> rfl

@[simp] theorem gapChoice_ctl (s : State) : s.gapChoice.ctl = s.ctl := by
  unfold State.gapChoice
  split <;> simp

/-! ## The port -/

theorem setupCommand_kept {s : State} (h : s.Kept) (v : Byte) : (s.setupCommand v).1.Kept := by
  unfold State.setupCommand
  split
  · exact h
  · split
    · exact h
    · rename_i hv
      simp only [Bool.or_eq_true, decide_eq_true_eq, not_or, Nat.not_lt] at hv
      exact { h with intervalLegal := hv }

theorem started_kept {s : State} (h : s.Kept) (hs : s.ctl.state = .unconfigured ∨ s.ctl.state = .idle) :
    s.started.Kept := by
  have h0 : (0 : Nat) < Config.objectionLimit := by simp [Config.objectionLimit]
  have hm : s.ctl.state.isMember = false := by rcases hs with hs | hs <;> simp [hs, StationState.isMember]
  have hl : s.ctl.state ≠ .loading := by rcases hs with hs | hs <;> simp [hs]
  have hx := h.sendingOnly (.inl hm)
  exact {
    tableSlots := h.tableSlots
    imageSlots := h.imageSlots
    nothingReplicated := fun _ _ => h.nothingReplicated hm hl
    deskEmpty := fun _ => h.deskEmpty hm
    requestsFit := h.requestsFit
    claimsFit := h.claimsFit
    journalFits := h.journalFits
    loadingOnly := fun _ => h.loadingOnly hl
    sendingOnly := fun _ => hx
    intervalLegal := h.intervalLegal
    beatStops := fun _ => h.beatStops hm
    windowStops := fun _ _ => rfl
    streakFits := Nat.zero_lt_succ _
    requestCountFits := h0
    joinCountFits := h0
    leaveCountFits := h0
    partCountFits := h0
    headCountFits := h0
    brokenEndsBroken := cleared_broken h.brokenEndsBroken
    rosterOrdered := h.rosterOrdered }

theorem stopped_kept {s : State} (h : s.Kept) (hs : s.ctl.state = .synced) : s.stopped.Kept := by
  have hm : s.ctl.state.isMember = true := by simp [hs, StationState.isMember]
  have hd := Desk.abortQueue_shrinks s.sel.requestsOnLine s.desk
  exact { h with
    nothingReplicated := fun hn => by simp [State.stopped, State.enter, StationState.isMember] at hn
    deskEmpty := fun hn => by simp [State.stopped, State.enter, StationState.isMember] at hn
    requestsFit := Nat.le_trans hd.1 h.requestsFit
    claimsFit := Nat.le_trans hd.2 h.claimsFit
    loadingOnly := fun _ => h.loadingOnly (by simp [hs])
    sendingOnly := fun hn => h.sendingOnly (by
      rcases hn with hn | hn
      · simp [State.stopped, State.enter, StationState.isMember] at hn
      · exact .inr hn)
    beatStops := fun hn => by simp [State.stopped, State.enter, StationState.isMember] at hn
    windowStops := fun _ _ => rfl
    leaveCountFits := Nat.zero_lt_succ _ }

theorem admitted {s : State} {kind : RequestKind} {key : Key} {o t : Byte}
    (h : s.admission kind key o t = .ok) :
    s.ctl.state = .synced ∧ s.desk.requests.length < Config.maxRequests ∧
      (kind = .acquire → s.desk.claims.length < Config.maxClaims) := by
  unfold State.admission at h
  split at h
  · simp at h
  · rename_i h1
    split at h
    · simp at h
    · split at h
      · simp at h
      · rename_i h3
        split at h
        · simp at h
        · split at h
          · simp at h
          · rename_i h5
            refine ⟨by simpa using h1, by omega, ?_⟩
            rintro rfl
            simpa using h5

theorem accept_kept {s : State} (h : s.Kept) {kind : RequestKind} {key : Key} {o t : Byte}
    (ha : s.admission kind key o t = .ok) (q : Ticket) : (s.accept (requestRecord kind key o t q)).Kept := by
  obtain ⟨hs, hr, hc⟩ := admitted ha
  have hm : s.ctl.state.isMember = true := by simp [hs, StationState.isMember]
  have a : State.Kept { s with desk := s.desk.accept (requestRecord kind key o t q) } :=
    { h with
      deskEmpty := fun hn => by simp [hm] at hn
      requestsFit := by simp [Desk.accept]; omega
      claimsFit := by
        have := h.claimsFit
        cases kind <;> simp_all [Desk.accept, requestRecord, newClaims] }
  unfold State.accept
  dsimp only
  split
  · apply gapChoice_kept
    exact a.withSel _ a.streakFits (Nat.zero_lt_succ _) a.joinCountFits a.leaveCountFits a.partCountFits
      a.headCountFits a.brokenEndsBroken
  · exact a

theorem requestCommand_kept {s : State} (h : s.Kept) (kind : RequestKind) (key : Key) (o t : Byte) :
    (s.requestCommand kind key o t).1.Kept := by
  unfold State.requestCommand
  split
  · rename_i ha
    exact accept_kept h ha _
  all_goals exact h

theorem startCommand_kept {s : State} (h : s.Kept) : s.startCommand.1.Kept := by
  unfold State.startCommand
  split
  · rename_i hs
    exact gapChoice_kept (started_kept h (by simpa using hs))
  · exact h

theorem stopCommand_kept {s : State} (h : s.Kept) : s.stopCommand.1.Kept := by
  unfold State.stopCommand
  split
  · rename_i hs
    exact gapChoice_kept (stopped_kept h (by simpa using hs))
  · split
    · rename_i hs
      apply gapChoice_kept
      refine withdraw_kept .withdrawn (by simp) (h.deskEmpty ?_) h.intervalLegal h.streakFits h.brokenEndsBroken
      simp only [Bool.or_eq_true, beq_iff_eq] at hs
      rcases hs with hs | hs <;> simp [hs, StationState.isMember]
    · exact h

theorem takeCommand_kept {s : State} (h : s.Kept) : s.takeCommand.1.Kept := by
  unfold State.takeCommand
  split
  · exact h
  · exact h.congr rfl rfl rfl rfl rfl rfl

theorem takeEffect_kept {s : State} (h : s.Kept) (code : Byte) (args : List Byte) :
    (s.takeEffect code args).1.Kept := by
  unfold State.takeEffect
  split <;> (repeat' split) <;>
    first
    | exact h
    | exact startCommand_kept h
    | exact stopCommand_kept h
    | exact takeCommand_kept h
    | exact setupCommand_kept h _
    | exact requestCommand_kept h _ _ _ _
    | exact h.congr rfl rfl rfl rfl rfl rfl

theorem effectEvent_kept {s : State} (h : s.Kept) (code : Byte) (args : List Byte) :
    (s.effectEvent code args).Kept := by
  unfold State.effectEvent
  exact (takeEffect_kept h code args).congr rfl rfl rfl rfl rfl rfl

theorem portByte_kept {s : State} (h : s.Kept) (b : Byte) : (s.portByte b).Kept := by
  unfold State.portByte
  dsimp only
  repeat' split
  all_goals first
    | exact h
    | exact effectEvent_kept h _ _
    | exact h.congr rfl rfl rfl rfl rfl rfl

theorem portBytes_kept {s : State} (h : s.Kept) (bs : List Byte) : (s.portBytes bs).Kept := by
  unfold State.portBytes
  induction bs generalizing s with
  | nil => exact h
  | cons b bs ih => exact ih (portByte_kept h b)

theorem selFalls_kept {s : State} (h : s.Kept) : s.selFalls.Kept := by
  unfold State.selFalls
  dsimp only
  repeat' split
  all_goals first
    | exact h
    | exact h.congr rfl rfl rfl rfl rfl rfl

theorem selRises_kept {s : State} (h : s.Kept) : s.selRises.Kept := by
  have a : s.settleTake.Kept := by
    unfold State.settleTake
    dsimp only
    split
    · exact (h.withDesk { s.desk with notices := s.desk.notices.tail } ⟨Nat.le_refl _, Nat.le_refl _⟩).congr
        rfl rfl rfl rfl rfl rfl
    · exact h.congr rfl rfl rfl rfl rfl rfl
  unfold State.selRises
  dsimp only
  split
  · exact h.congr rfl rfl rfl rfl rfl rfl
  · exact a.congr rfl rfl rfl rfl rfl rfl

/-! ## The countdowns -/

theorem beatExpires_kept {s : State} (h : s.Kept) : s.beatExpires.Kept := by
  unfold State.beatExpires
  split
  · exact h
  · split
    · exact h
    · exact h
    · rename_i hc
      apply gapChoice_kept
      exact { h with
        beatStops := fun hm => by
          have := h.beatStops hm
          rw [this] at hc
          simp at hc }

theorem windowRanOut_kept {s : State} (h : s.Kept) : s.windowRanOut.Kept := by
  unfold State.windowRanOut
  split
  · exact h.withSel _ h.streakFits h.requestCountFits h.joinCountFits h.leaveCountFits h.partCountFits
      h.headCountFits h.brokenEndsBroken
  · exact setJoin_kept (h.congr rfl rfl rfl rfl rfl rfl)

theorem windowExpires_kept {s : State} (h : s.Kept) : s.windowExpires.Kept := by
  unfold State.windowExpires
  split
  · exact h
  · have a : State.Kept { s with timer := { s.timer with window := .stopped } } :=
      { h with windowStops := fun _ _ => rfl }
    dsimp only
    split
    · exact gapChoice_kept (windowRanOut_kept a)
    · rename_i hl
      exact gapChoice_kept (abandonLoad_kept a hl)
    all_goals exact a

/-! ## What falls within a frame -/

theorem event_kept {s : State} (h : s.Kept) (e : Event) : (s.event e).Kept := by
  cases e
  · exact selFalls_kept h
  · exact selRises_kept h
  · exact portByte_kept h _
  · exact beatExpires_kept h
  · exact windowExpires_kept h

theorem events_kept {s : State} (h : s.Kept) (es : List Event) : (s.events es).Kept := by
  unfold State.events
  induction es generalizing s with
  | nil => exact h
  | cons e es ih => exact ih (event_kept h e)

/-- A participant that takes a command stays one. -/
theorem takeEffect_participating {s : State} (h : s.ctl.state.participating = true) (code : Byte) (args : List Byte) :
    (s.takeEffect code args).1.ctl.state.participating = true := by
  have hr : ∀ k key o t, (s.requestCommand k key o t).1.ctl = s.ctl := by
    intro k key o t
    unfold State.requestCommand
    split <;> try rfl
    unfold State.accept
    dsimp only
    split
    · simp
    · rfl
  have hs : (s.startCommand.1).ctl.state.participating = true := by
    unfold State.startCommand
    split
    · simp only [gapChoice_ctl]
      rfl
    · exact h
  have ht : (s.stopCommand.1).ctl.state.participating = true := by
    unfold State.stopCommand
    split
    · simp only [gapChoice_ctl]
      rfl
    · split
      · simp only [gapChoice_ctl]
        rfl
      · exact h
  have hk : s.takeCommand.1.ctl = s.ctl := by
    unfold State.takeCommand
    split <;> rfl
  have hu : ∀ v, (s.setupCommand v).1.ctl.state = s.ctl.state := by
    intro v
    unfold State.setupCommand
    repeat' split
    all_goals rfl
  unfold State.takeEffect
  split <;> (repeat' split) <;> first
    | exact h
    | exact hs
    | exact ht
    | (rw [hk]; exact h)
    | (rw [hr]; exact h)
    | (simp only [bareReply, hu]; exact h)

theorem event_participating {s : State} (h : s.ctl.state.participating = true) (e : Event) :
    (s.event e).ctl.state.participating = true := by
  cases e with
  | selFall =>
    show s.selFalls.ctl.state.participating = true
    unfold State.selFalls
    split
    · exact h
    · dsimp only
      split <;> exact h
  | selRise =>
    show s.selRises.ctl.state.participating = true
    unfold State.selRises
    dsimp only
    split <;> exact h
  | byte b =>
    show (s.portByte b).ctl.state.participating = true
    unfold State.portByte
    dsimp only
    (repeat' split) <;> first
      | exact h
      | exact takeEffect_participating h _ _
  | beatExpiry =>
    show s.beatExpires.ctl.state.participating = true
    unfold State.beatExpires
    (repeat' split) <;> simpa using h
  | windowExpiry =>
    show s.windowExpires.ctl.state.participating = true
    unfold State.windowExpires
    dsimp only
    split
    · exact h
    · split
      · simp only [gapChoice_ctl, State.windowRanOut]
        split <;> exact h
      · simp only [gapChoice_ctl, State.abandonLoad]
        split <;> rfl
      all_goals exact h

theorem events_participating {s : State} (h : s.ctl.state.participating = true) (es : List Event) :
    (s.events es).ctl.state.participating = true := by
  unfold State.events
  induction es generalizing s with
  | nil => exact h
  | cons e es ih => exact ih (event_participating h e)

/-! ## Frames on LINE -/

theorem keepEnd_kept {s : State} (h : s.Kept) (e : FrameEnd) (k : Option CandKind) : (s.keepEnd e k).Kept := by
  refine h.withSel _ h.streakFits h.requestCountFits h.joinCountFits h.leaveCountFits h.partCountFits
    h.headCountFits ?_
  split
  · rename_i hs
    intro b hb
    rcases List.mem_append.mp hb with hb | hb
    · exact h.brokenEndsBroken b hb
    · rw [List.mem_singleton.mp hb]
      exact eq_of_beq hs
  · exact h.brokenEndsBroken

theorem handEnd_kept {s : State} (h : s.Kept) (first : FirstTrigger) (e : FrameEnd) (k : Option CandKind)
    (he : e.raised = .error → e.sent ≠ .broken → s.ctl.state.participating = true) :
    (s.handEnd first e k).Kept := by
  unfold State.handEnd
  split
  · exact h
  · exact frameEnd_kept h _ _ _ he

theorem breakEnd_kept {s : State} (h : s.Kept) (first : FirstTrigger) (r : Reception) (seen : Bool) (sent : Sent)
    (part : Bool) (k : Option CandKind) (hp : part = true → s.ctl.state.participating = true) :
    (s.breakEnd first r seen sent part k).Kept := by
  unfold State.breakEnd
  dsimp only
  refine handEnd_kept (keepEnd_kept (h.congr (t := { s with liu := s.liu.frameOver r (!seen) part (part || r.endDriven) })
    rfl rfl rfl rfl rfl rfl) _ _) _ _ _ ?_
  intro hr _
  rw [State.keepEnd_ctl]
  cases part with
  | true => exact hp rfl
  | false => simp at hr

theorem verdictRaised_released {part error refusal : Bool} (h : verdictRaised part error refusal = .error) :
    part = true := by
  cases part
  · simp [verdictRaised] at h
  · rfl

theorem verdictEnd_kept {s : State} (h : s.Kept) (first : FirstTrigger) (r : Reception) (g : Findings)
    (sent : Sent) (part : Bool) (k : Option CandKind)
    (hp : g.raised = .error → s.ctl.state.participating = true) :
    (s.verdictEnd first r g sent part k).Kept := by
  unfold State.verdictEnd
  dsimp only
  have a : ∀ l : Liu, State.Kept { s with liu := l } := fun l => h.congr rfl rfl rfl rfl rfl rfl
  have fin : ∀ t : State, t.Kept → (if g.duplicate = true then t.duplicateReport else t).Kept := by
    intro t ht
    split
    · exact duplicateReport_kept ht
    · exact ht
  apply fin
  apply handEnd_kept
  · split
    · exact applyFrame_kept (keepEnd_kept (a _) _ _) _ _
    · exact keepEnd_kept (a _) _ _
  · intro hr _
    dsimp only at hr
    simp only [hr]
    simpa using hp hr

theorem gapFound_kept {s : State} (h : s.Kept) (run : Nat) : (s.gapFound run).Kept := by
  have a : State.Kept { s with liu := { s.liu with linePhase := .gap, releasedRun := run, blind := false } } :=
    h.congr rfl rfl rfl rfl rfl rfl
  have b := handBrokenEnds_kept a
  unfold State.gapFound
  dsimp only
  apply choice_kept
  split
  · exact b.withSel _ b.streakFits b.requestCountFits b.joinCountFits b.leaveCountFits b.partCountFits
      b.headCountFits b.brokenEndsBroken
  · exact b

theorem yieldReleased_kept {s : State} (h : s.Kept) : s.yieldReleased.Kept := by
  unfold State.yieldReleased
  dsimp only
  split
  · apply gapChoice_kept
    exact (h.congr (t := { s with liu := { s.liu with releasedRun := Config.longRun } }) rfl rfl rfl rfl rfl
      rfl).withSel _ h.streakFits h.requestCountFits h.joinCountFits h.leaveCountFits h.partCountFits
      h.headCountFits h.brokenEndsBroken
  · exact h.congr rfl rfl rfl rfl rfl rfl

theorem runReached_kept {s : State} (h : s.Kept) (run : Nat) : (s.runReached run).Kept := by
  unfold State.runReached
  have a : (if s.liu.linePhase == .hunt && decide (s.liu.gapAt ≤ run) then s.gapFound s.liu.gapAt else s).Kept := by
    split
    · exact gapFound_kept h _
    · exact h
  dsimp only
  generalize (if s.liu.linePhase == .hunt && decide (s.liu.gapAt ≤ run) then s.gapFound s.liu.gapAt else s) = u at a ⊢
  split
  · exact yieldReleased_kept a
  · exact a

theorem startBit_kept {s t : State} (h : s.Kept) {run : Nat} (ht : s.startBit run = some t) : t.Kept := by
  unfold State.startBit at ht
  split at ht
  · injection ht with ht
    exact ht ▸ h
  · split at ht
    · simp at ht
    · injection ht with ht
      subst ht
      have a : State.Kept { s with liu := { s.liu.frameStart with linePhase := .receive } } :=
        h.congr rfl rfl rfl rfl rfl rfl
      split
      · exact choice_kept a
      · exact a

theorem frameStart_kept {s t : State} (h : s.Kept) {run : Nat} (ht : s.frameStart run = some t) : t.Kept :=
  startBit_kept (runReached_kept h run) ht

theorem countReleased_kept {s : State} (h : s.Kept) : s.countReleased.Kept := by
  unfold State.countReleased
  dsimp only
  split
  · split
    · exact gapFound_kept h _
    · exact h.congr rfl rfl rfl rfl rfl rfl
  · split
    · exact h
    · split
      · exact yieldReleased_kept h
      · exact h.congr rfl rfl rfl rfl rfl rfl
  all_goals exact h

theorem huntCell_kept {s : State} (h : s.Kept) (c : ClosedCell) : (s.huntCell c).Kept := by
  unfold State.huntCell
  split
  · exact h
  · split
    · exact h.congr rfl rfl rfl rfl rfl rfl
    · exact countReleased_kept h

theorem lookAt_kept {s : State} (h : s.Kept) (l : Bool) : (s.lookAt l).Kept := by
  unfold State.lookAt
  have a : State.Kept { s with liu := { s.liu with sampler := (look s.liu.sampler l).1 } } :=
    h.congr rfl rfl rfl rfl rfl rfl
  dsimp only
  split
  · exact a
  · exact huntCell_kept a _

/-- Listening keeps the invariant, whether a frame begins or not. -/
theorem listen_kept (ls : List Bool) {s : State} (h : s.Kept) : (s.listen ls).1.Kept := by
  induction ls generalizing s with
  | nil => exact h
  | cons l ls ih =>
    have b := lookAt_kept h l
    unfold State.listen
    split
    · exact h
    · dsimp only
      split
      · split
        · rename_i u hu
          exact startBit_kept b hu
        · exact ih (b.congr rfl rfl rfl rfl rfl rfl)
      · exact ih b

theorem offLine_kept {s : State} (h : s.Kept) : s.offLine.Kept :=
  h.withSel _ h.streakFits h.requestCountFits h.joinCountFits h.leaveCountFits h.partCountFits h.headCountFits
    h.brokenEndsBroken

/-- A frame from its start to its end keeps the invariant. -/
theorem carry_kept {s : State} (h : s.Kept) (first : FirstTrigger) (r : Reception) (w : Within) :
    (s.carry first r w).Kept := by
  have k := offLine_kept (events_kept (events_kept (events_kept h w.toHeader) w.toCheck) w.toEnd)
  have hp : ∀ (x : Sent) (q : Bool), (x != .broken && s.ctl.state.participating && q) = true →
      (((s.events w.toHeader).events w.toCheck).events w.toEnd).offLine.ctl.state.participating = true := by
    intro x q hq
    have : s.ctl.state.participating = true := by
      cases hs : s.ctl.state.participating
      · simp [hs] at hq
      · rfl
    exact events_participating (events_participating (events_participating this _) _) _
  unfold State.carry
  dsimp only
  split
  · exact breakEnd_kept k _ _ _ _ _ _ (hp _ _)
  · exact verdictEnd_kept k _ _ _ _ _ _ (fun hr => hp _ _ (verdictRaised_released hr))

theorem carryBegun_kept {a : State × Option (List Bool)} (h : a.1.Kept) (first : FirstTrigger) (w : Within) :
    (carryBegun first w a).Kept := by
  unfold carryBegun
  split
  · exact carry_kept h _ _ _
  · exact events_kept h _

theorem frameBegins_kept {s : State} (h : s.Kept) (ls : List Bool) : (s.frameBegins ls).1.Kept := by
  unfold State.frameBegins
  split
  · exact listen_kept _ h
  · exact h.congr rfl rfl rfl rfl rfl rfl

theorem frameAfter_kept {s : State} (h : s.Kept) (first : FirstTrigger) (run : Nat) (f : Frame) (noisy : Nat)
    (window : List Bool) (w : Within) : (s.frameAfter first run f noisy window w).Kept := by
  unfold State.frameAfter
  split
  · exact events_kept h _
  · split
    · rename_i t ht
      exact carry_kept (frameStart_kept h ht) _ _ _
    · apply carryBegun_kept
      apply listen_kept
      exact h.congr rfl rfl rfl rfl rfl rfl

theorem frameHeard_kept {s : State} (h : s.Kept) (p : Station) (b : Body) (g : Hearing) :
    (s.frameHeard p b g).Kept := frameAfter_kept h _ _ _ _ _ _

theorem frameRaw_kept {s : State} (h : s.Kept) (first : FirstTrigger) (raw : RawFrame) :
    (s.frameRaw first raw).Kept := by
  unfold State.frameRaw
  split
  · exact events_kept h _
  · exact carryBegun_kept (frameBegins_kept h _) _ _

theorem ownFrameEnds_kept {s : State} (h : s.Kept) (first : FirstTrigger) (o : OwnObjection) :
    (s.ownFrameEnds first o).Kept := by
  unfold State.ownFrameEnds
  split
  · exact h
  · exact frameAfter_kept h _ _ _ _ _ _

/-! ## The released run and the countdowns -/

theorem atBoundary_kept {s : State} (h : s.Kept) (seen : Bool) : (s.atBoundary seen).Kept :=
  h.congr rfl rfl rfl rfl rfl rfl

theorem idleGapReached_kept {s : State} (h : s.Kept) : s.idleGapReached.Kept := by
  unfold State.idleGapReached
  split
  · exact h
  · split
    · exact gapFound_kept (atBoundary_kept h _) _
    · exact h

theorem yieldRunReached_kept {s : State} (h : s.Kept) : s.yieldRunReached.Kept := by
  unfold State.yieldRunReached
  split
  · exact h
  · split
    · exact runReached_kept (atBoundary_kept h _) _
    · exact h

theorem startBitRejected_kept {s : State} (h : s.Kept) (run : Nat) : (s.startBitRejected run).Kept := by
  unfold State.startBitRejected
  split
  · exact h
  · split
    · exact h.congr rfl rfl rfl rfl rfl rfl
    · exact h

theorem tickBeat_kept {s : State} (h : s.Kept) : s.tickBeat.Kept := by
  unfold State.tickBeat
  split
  · exact h
  · rename_i hc
    split
    · exact beatExpires_kept h
    · exact { h with
        beatStops := fun hm => by
          have := h.beatStops hm
          rw [this] at hc
          simp at hc }

theorem tickWindow_kept {s : State} (h : s.Kept) : s.tickWindow.Kept := by
  unfold State.tickWindow
  split
  · exact h
  · rename_i hc
    split
    · exact windowExpires_kept h
    · exact { h with
        windowStops := fun h1 h2 => by
          have := h.windowStops h1 h2
          rw [this] at hc
          simp at hc }

theorem tickRun_kept {s : State} (h : s.Kept) : s.tickRun.Kept := by
  unfold State.tickRun
  split
  · exact h
  · exact listen_kept _ h

theorem tick_kept {s : State} (h : s.Kept) : s.tick.Kept := by
  unfold State.tick
  split
  · exact h
  · exact tickRun_kept (tickWindow_kept (tickBeat_kept h))

theorem hardwareReset_kept (stn : BitVec 5) (rate : BitVec 2) (changed : Bool) (s : State) :
    (s.hardwareReset stn rate changed).Kept where
  tableSlots := emptyTable_length
  imageSlots := fun t ht => by simp [State.hardwareReset, State.reset, TransferUnit.reset] at ht
  nothingReplicated := fun _ _ => rfl
  deskEmpty := fun _ => ⟨rfl, rfl⟩
  requestsFit := Nat.zero_le _
  claimsFit := Nat.zero_le _
  journalFits := Nat.zero_le _
  loadingOnly := fun _ => ⟨rfl, rfl⟩
  sendingOnly := fun _ => ⟨rfl, rfl⟩
  intervalLegal := by simp [State.hardwareReset, State.reset, BeatTimer.reset, Config.minInterval,
    Config.maxInterval, Config.defaultInterval]
  beatStops := fun _ => rfl
  windowStops := fun _ _ => rfl
  streakFits := Nat.zero_lt_succ _
  requestCountFits := Nat.zero_lt_succ _
  joinCountFits := Nat.zero_lt_succ _
  leaveCountFits := Nat.zero_lt_succ _
  partCountFits := Nat.zero_lt_succ _
  headCountFits := Nat.zero_lt_succ _
  brokenEndsBroken := fun b hb => by simp [State.hardwareReset, State.reset, Selector.reset] at hb
  rosterOrdered := List.Pairwise.nil

end Sys2Proof.Machine
end

