-- ==== Sys2Proof/Laws/Layout.lean ====
section
/-! SUPPORT. The layouts character by character: numbers of several characters, lists of four positions, the roster
set and the silence counts as composed and as carried, the next occupied slot, and the own frame's cells against LINE. -/

namespace Sys2Proof.Machine

/-! ## Numbers of several characters -/

theorem leBytes_from {w : Nat} (v : BitVec w) (n k : Nat) :
    leBytes n (v.toNat / 256 ^ k) = (List.range n).map fun i => v.extractLsb' (8 * (k + i)) 8 := by
  induction n generalizing k with
  | zero => rfl
  | succ n ih =>
    rw [leBytes, List.range_succ_eq_map, List.map_cons, List.map_map, Nat.div_div_eq_div_mul, ← Nat.pow_succ, ih (k + 1)]
    congr 1
    · apply BitVec.eq_of_toNat_eq
      rw [BitVec.extractLsb'_toNat, BitVec.toNat_ofNat, Nat.shiftRight_eq_div_pow, Nat.add_zero, Nat.pow_mul]
    · apply List.map_congr_left
      intro i _
      simp only [Function.comp, Nat.succ_eq_add_one]
      congr 2
      omega

/-- The characters of a number are its bytes, low-order first. -/
theorem leBytes_chars {w : Nat} (n : Nat) (v : BitVec w) :
    leBytes n v.toNat = (List.range n).map fun i => v.extractLsb' (8 * i) 8 := by
  simpa using leBytes_from v n 0

/-! ## Lists of four positions -/

theorem take_four_flatten {α : Type} (f : α → List Byte) (d : List Byte) (l : List α) :
    ((l.map f ++ List.replicate 4 d).take 4).flatten =
      (List.range 4).flatMap fun k => ((l[k]?).map f).getD d := by
  rcases l with _ | ⟨a, _ | ⟨b, _ | ⟨c, _ | ⟨e, l⟩⟩⟩⟩ <;> simp [List.range_succ, List.replicate]

theorem queueEntries_eq (q : List Station) : queueEntries q =
    (List.range 4).map fun k => ((q[k]?).map fun p => BitVec.ofNat 8 p.val).getD 0xFF := by
  unfold queueEntries
  rcases q with _ | ⟨a, _ | ⟨b, _ | ⟨c, _ | ⟨e, l⟩⟩⟩⟩ <;> simp [List.range_succ, List.replicate]

/-! ## The roster set and the silence counts -/

theorem testBit_foldr {α : Type} (f : α → Bool) (l : List α) (k : Nat) :
    (l.foldr (fun p acc => (if f p then 1 else 0) + 2 * acc) 0).testBit k = ((l[k]?).map f).getD false := by
  induction l generalizing k with
  | nil => simp
  | cons a l ih =>
    rw [List.foldr_cons]
    cases k with
    | zero => cases h : f a <;> simp [Nat.testBit_zero, h]
    | succ k =>
      rw [Nat.testBit_succ, List.getElem?_cons_succ, ← ih k]
      congr 1
      split <;> omega

theorem nibble_foldr {α : Type} (f : α → Nat) (l : List α) (k : Nat) :
    (l.foldr (fun p acc => f p % 16 + 16 * acc) 0) / 16 ^ k % 16 = ((l[k]?).map fun p => f p % 16).getD 0 := by
  induction l generalizing k with
  | nil => simp
  | cons a l ih =>
    rw [List.foldr_cons]
    cases k with
    | zero => simp
    | succ k =>
      rw [List.getElem?_cons_succ, ← ih k, Nat.pow_succ', ← Nat.div_div_eq_div_mul]
      congr 2
      omega

theorem stations_getElem? (p : Station) : stations[p.val]? = some p := by revert p; decide

/-- The roster set marks the members. -/
theorem rosterSetOf_bit (l : List Member) (p : Station) : (rosterSetOf l).getLsbD p.val = inRoster p l := by
  unfold rosterSetOf
  rw [BitVec.getLsbD_ofNat, testBit_foldr, stations_getElem?]
  simp [p.isLt]

/-- A station's four bits are its silence count, 0 for one that is no member. -/
theorem silencesOf_nibble (l : List Member) (p : Station) :
    ((silencesOf l).extractLsb' (4 * p.val) 4).toNat = (silenceOf p l).getD 0 % 16 := by
  have h := nibble_foldr (fun p => (silenceOf p l).getD 0) stations p.val
  rw [stations_getElem?] at h
  unfold silencesOf
  rw [BitVec.extractLsb'_toNat, BitVec.toNat_ofNat, Nat.shiftRight_eq_div_pow, Nat.pow_mul]
  show _ / 16 ^ p.val % 16 = _
  have e : (2 : Nat) ^ 128 = 16 ^ p.val * (16 * 16 ^ (31 - p.val)) := by
    rw [← Nat.pow_succ', ← Nat.pow_add, show p.val + (31 - p.val + 1) = 32 by have := p.isLt; omega]
    norm_num
  rw [e, Nat.mod_mul_right_div_self, Nat.mod_mod_of_dvd _ (Dvd.intro _ rfl)]
  exact h

/-- The roster a HEAD carries has the stations marked, each with its own count. -/
theorem mem_carriedRoster (b : HeadBody) (m : Member) : m ∈ carriedRoster b ↔
    b.rosterSet.getLsbD m.station.val = true ∧
      m.silence = (b.silences.extractLsb' (4 * m.station.val) 4).toNat := by
  simp only [carriedRoster, List.mem_map, List.mem_filter, carriedSilence]
  constructor
  · rintro ⟨p, ⟨-, h⟩, rfl⟩
    exact ⟨h, rfl⟩
  · rintro ⟨h, e⟩
    exact ⟨m.station, ⟨mem_stations _, h⟩, by cases m; simp_all⟩

/-- The queue a HEAD carries is that of its counted entries. -/
theorem carriedQueue_entries (b : HeadBody) (h : ∀ e ∈ b.entries.take b.queueCount.toNat, e.toNat ≤ 31) :
    (carriedQueue b).map (fun p => BitVec.ofNat 8 p.val) = b.entries.take b.queueCount.toNat := by
  simp only [carriedQueue, List.map_map]
  conv => rhs; rw [← List.map_id (b.entries.take b.queueCount.toNat)]
  apply List.map_congr_left
  intro e he
  have := h e he
  apply BitVec.eq_of_toNat_eq
  simp
  omega

/-! ## The next occupied slot (R79, R81) -/

theorem le_of_nextOccupiedFrom {low n k : Nat} {t : Table} (h : nextOccupiedFrom low n t = some k) : n ≤ k := by
  induction t generalizing n with
  | nil => simp [nextOccupiedFrom] at h
  | cons o t ih =>
    unfold nextOccupiedFrom at h
    split at h
    · simp only [Option.some.injEq] at h
      omega
    · have := ih h
      omega

theorem nextOccupiedFrom_some (low : Nat) (t : Table) (n i : Nat) : nextOccupiedFrom low n t = some (n + i) ↔
    low ≤ n + i ∧ (∃ x, t[i]? = some (some x)) ∧ ∀ j < i, low ≤ n + j → t[j]? = some none := by
  induction t generalizing n i with
  | nil => simp [nextOccupiedFrom]
  | cons o t ih =>
    unfold nextOccupiedFrom
    cases i with
    | zero =>
      split
      · rename_i h
        simp only [Bool.and_eq_true, decide_eq_true_eq] at h
        obtain ⟨a, ha⟩ := Option.isSome_iff_exists.mp h.1
        simp [ha, h.2]
      · rename_i h
        constructor
        · intro e
          have := le_of_nextOccupiedFrom e
          omega
        · rintro ⟨h1, ⟨x, hx⟩, -⟩
          simp only [List.getElem?_cons_zero, Option.some.injEq] at hx
          subst hx
          simp at h
          omega
    | succ i =>
      split
      · rename_i h
        simp only [Bool.and_eq_true, decide_eq_true_eq] at h
        constructor
        · intro e
          simp at e
        · rintro ⟨-, -, h3⟩
          have := h3 0 (by omega) (by omega)
          simp only [List.getElem?_cons_zero, Option.some.injEq] at this
          simp [this] at h
      · rename_i h
        have := ih (n + 1) i
        rw [show n + 1 + i = n + (i + 1) by omega] at this
        rw [this, List.getElem?_cons_succ]
        refine and_congr_right fun _ => and_congr_right fun _ => ⟨fun hj j hji hlj => ?_, fun hj j hji hlj => ?_⟩
        · cases j with
          | zero =>
            cases o with
            | none => rfl
            | some a =>
              simp at h
              omega
          | succ j => simpa using hj j (by omega) (by omega)
        · simpa using hj (j + 1) (by omega) (by omega)

/-! ## The own frame's cells against LINE (R147, R148) -/

theorem contest_same {n : Nat} {sent ls : List Bool}
    (h : ∀ k < sent.length, sent[k]? = some ((ls[k]?).getD false)) : contest n sent ls = .carried := by
  induction sent generalizing n ls with
  | nil => rfl
  | cons a sent ih =>
    unfold contest
    have h0 := h 0 (by simp)
    have : (a == ls.headD false) = true := by cases ls <;> simpa using h0
    simp only [this, if_true]
    refine ih fun k hk => ?_
    have := h (k + 1) (by simpa using hk)
    cases ls <;> simpa using this

theorem contest_differs {n i : Nat} {l : Bool} {sent ls : List Bool} (hi : sent[i]? = some l)
    (hd : sent[i]? ≠ some ((ls[i]?).getD false)) (h : ∀ k < i, sent[k]? = some ((ls[k]?).getD false)) :
    contest n sent ls = if l = false ∧ 1 ≤ n + i ∧ n + i ≤ 8 then .lost else .broken := by
  induction sent generalizing n i ls with
  | nil => simp at hi
  | cons a sent ih =>
    unfold contest
    cases i with
    | zero =>
      simp only [List.getElem?_cons_zero, Option.some.injEq] at hi
      subst hi
      have hne : ¬ a = ls.headD false := by cases ls <;> simpa using hd
      have : (a == ls.headD false) = false := by simpa using hne
      cases hl : ls.headD false <;> cases a <;> simp_all
    | succ i =>
      have h0 := h 0 (by omega)
      have : (a == ls.headD false) = true := by cases ls <;> simpa using h0
      simp only [this, if_true]
      rw [ih (n := n + 1) (ls := ls.tail) (by simpa using hi) (by cases ls <;> simpa using hd) (fun k hk => by
        have := h (k + 1) (by omega)
        cases ls <;> simpa using this)]
      rw [show n + 1 + i = n + (i + 1) by omega]

end Sys2Proof.Machine
end

