-- ==== Sys2Proof/Laws/Line.lean ====
section
/-! SUPPORT. What a frame on LINE comes to: a clean frame of another station is applied by its state, and
nothing else moves but the LIU and the frame end. -/

namespace Sys2Proof.Machine

/-- The LIU after a clean, applied frame of another station (R145, R150, R152). -/
def Liu.afterFrame (f : Frame) (noisy : Nat) (part : Bool) : Liu :=
  { linePhase := .hunt, sampler := Sampler.boundary false, releasedRun := 0, blind := false, quiet := true
    buffer := encodeFrame f, noisy := noisy, errorSeen := false, transmitting := false, takingPart := part
    lastRecord := some { frame := f, matched := true, own := false, duplicate := false, applied := true } }

/-- The frame end of an applied frame of another station (R125). -/
def appliedEnd (f : Frame) : FrameEnd :=
  { sent := .none, ending := .applied, raised := .nothing, clean := true, applied := some f }

/-- The Offer Selector after it (R130, R137). -/
def Selector.afterApplied (f : Frame) (x : Selector) : Selector :=
  { x with streak := 0, lastEnd := some (appliedEnd f), yielding := false }

/-- The frame's application with the LIU already past it. -/
def State.heardApplied (f : Frame) (h : Hearing) (s : State) : State :=
  State.applyFrame f false { s with
    liu := Liu.afterFrame f h.noisy (s.ctl.state.participating && takesPart s.ctl.state (some f.body.cls)) }

theorem headerCls_hear (f : Frame) (n : Nat) (w : List Bool) : (hear f n w).headerCls = some f.body.cls := by
  simp [Reception.headerCls, hear, encodeFrame, uncheckedChars, (header_read f).1]

/-- A window that no other station drives is wholly released. -/
theorem window_released (f : Frame) (n : Nat) :
    (hear f n []).window.all (fun c => !cellLevel c) = true ∧ (hear f n []).window.getLast?.any cellLevel = false := by
  have h : tenCells (cellsOf (Sampler.boundary false) []) = List.replicate 10 releasedCell := by decide
  show (tenCells (cellsOf (Sampler.boundary false) [])).all _ = true ∧ Option.any _ (tenCells _).getLast? = _
  rw [h]
  decide

/-- With nothing within it, a frame is carried from the state at its start (R117). -/
theorem carry_nothing (first : FirstTrigger) (r : Reception) (s : State) :
    s.carry first r Within.nothing =
      (let sent := sentOf s.sel.onLine r.levels
       let part := sent != .broken && s.ctl.state.participating && takesPart s.ctl.state r.headerCls
       match r.taken with
       | .framing b => s.offLine.breakEnd first r b sent part (s.sel.onLine.bind (·.kind))
       | .complete => s.offLine.verdictEnd first r (findings s r sent part) sent part (s.sel.onLine.bind (·.kind))) :=
  rfl

/-- A station awake and not HALTED hears the line. -/
theorem deaf_false {s : State} (h1 : s.pins.resetLow = false) (h2 : s.ctl.state ≠ .halted) : s.deaf = false := by
  have h2' : (s.ctl.state == .halted) = false := by simpa using h2
  simp [State.deaf, h1, h2']

/-- A stretch of LINE in which the hunt finds a start bit and nothing else is carried from there (R117, R145). -/
theorem frameRaw_hears {s : State} {raw : RawFrame} {r : Reception} (h : s.Hears raw r) (first : FirstTrigger) :
    ∃ l, s.frameRaw first raw = State.carry first r Within.nothing { s with liu := l } := by
  obtain ⟨h1, h2, h3, h4, l, ls, h5, h6⟩ := h
  refine ⟨l, ?_⟩
  unfold State.frameRaw
  simp [deaf_false h1 h2, h5, h6, h3, carryBegun]

/-- An idle gap found in HUNT, no own broken frame's end waiting: the choice, in GAP and in step (R132, R143, R144). -/
theorem idleGapReached_hunt {s : State} (h1 : s.pins.resetLow = false) (h2 : s.ctl.state ≠ .halted)
    (h3 : s.liu.linePhase = .hunt) (h4 : s.sel.brokenEnds = []) :
    s.idleGapReached = State.choice { s with
      liu := { s.liu with linePhase := .gap, releasedRun := if s.liu.blind then 24 else 12, blind := false
                          sampler := Sampler.boundary false }
      sel := { s.sel with yielding := s.sel.yielding && !s.liu.blind } } := by
  have hsel : ({ s.sel with brokenEnds := [] } : Selector) = s.sel := by rw [← h4]
  unfold State.idleGapReached
  simp only [deaf_false h1 h2, Bool.false_eq_true, if_false, h3, State.gapFound, State.handBrokenEnds, State.atBoundary,
    h4, List.foldl_nil, hsel]
  cases hb : s.liu.blind
  · simp [Liu.gapAt, hb, Config.longRun, Config.gapRun]
    rw [← h4]
  · simp [Liu.gapAt, hb, Config.longRun]

/-- Twelve looks at released LINE from a cell boundary close one released cell (R141, R143). -/
theorem listen_released_cell {s : State} {seen : Bool} (hm : s.liu.sampler = Sampler.boundary seen)
    (hh : s.liu.hunting = true) :
    s.listen (List.replicate 12 false) = ((s.atBoundary false).countReleased, none) := by
  have e : ∀ (p : Nat) (b g : Bool) (l : List Bool) (t : State), p < 11 → t.liu.sampler = ⟨p, b, g, l⟩ →
      t.lookAt false = { t with liu := { t.liu with
        sampler := ⟨p + 1, false, g, if 5 ≤ p ∧ p ≤ 7 then l ++ [false] else l⟩ } } := by
    intro p b g l t hp ht
    simp [State.lookAt, look, ht, show ¬ 11 ≤ p by omega]
  have step : ∀ (t : State) (n : Nat), t.liu.hunting = true →
      t.listen (List.replicate (n + 1) false) = (t.lookAt false).listen (List.replicate n false) := by
    intro t n ht
    rw [List.replicate_succ, State.listen]
    simp [ht]
  have last : ∀ (t : State) (b g : Bool), t.liu.sampler = ⟨11, b, g, [false, false, false]⟩ →
      t.lookAt false = (t.atBoundary false).countReleased := by
    intro t b g ht
    simp [State.lookAt, look, ht, State.huntCell, Sampler.close, closeCell, cellLevel, State.atBoundary]
  have hm' : s.liu.sampler = ⟨0, seen, false, []⟩ := hm
  rw [step s 11 hh, e 0 _ _ _ s (by omega) hm']
  rw [step _ 10 (by exact hh), e 1 _ _ _ _ (by omega) rfl]
  rw [step _ 9 (by exact hh), e 2 _ _ _ _ (by omega) rfl]
  rw [step _ 8 (by exact hh), e 3 _ _ _ _ (by omega) rfl]
  rw [step _ 7 (by exact hh), e 4 _ _ _ _ (by omega) rfl]
  rw [step _ 6 (by exact hh), e 5 _ _ _ _ (by omega) rfl]
  rw [step _ 5 (by exact hh), e 6 _ _ _ _ (by omega) rfl]
  rw [step _ 4 (by exact hh), e 7 _ _ _ _ (by omega) rfl]
  rw [step _ 3 (by exact hh), e 8 _ _ _ _ (by omega) rfl]
  rw [step _ 2 (by exact hh), e 9 _ _ _ _ (by omega) rfl]
  rw [step _ 1 (by exact hh), e 10 _ _ _ _ (by omega) rfl]
  rw [step _ 0 (by exact hh), last _ _ _ rfl]
  rfl

/-- In a gap, or hunting blind before one, a start bit begins another station's frame and no choice is made. -/
theorem frameStart_listening {s : State} {h : Hearing} (hl : s.Listening h) :
    ∃ r, s.frameStart h.startRun =
      some { s with liu := { s.liu.frameStart with linePhase := .receive, releasedRun := r } } := by
  obtain ⟨_, _, h3, h4, _, _, _⟩ := hl
  have a : ¬ h.startRun < Config.startRun := by simp [Config.startRun, Config.gapRun] at *; omega
  have b : ¬ h.startRun < Config.gapRun := by omega
  rcases h3 with ⟨hg, hr⟩ | ⟨hg, hr⟩
  · by_cases hy : Config.longRun ≤ h.startRun
    · have : s.sel.yielding = false := hr.resolve_left (by omega)
      exact ⟨Config.longRun, by
        simp [State.frameStart, State.startBit, Liu.hunting, a, b, State.runReached, State.yieldReleased, hg, hy, this,
          Liu.frameStart]⟩
    · exact ⟨s.liu.releasedRun, by
        simp [State.frameStart, State.startBit, Liu.hunting, a, b, State.runReached, hg, hy, Liu.frameStart]⟩
  · have c : ¬ s.liu.gapAt ≤ h.startRun := by omega
    exact ⟨s.liu.releasedRun, by
      simp [State.frameStart, State.startBit, Liu.hunting, State.runReached, hg, a, b, c, Liu.frameStart]⟩

/-- The findings on a clean frame that is neither malformed nor refused, and not a duplicate (R118, R121, R154). -/
theorem findings_clean {s : State} {f : Frame} {n : Nat} {w : List Bool} {sent : Sent} {part : Bool}
    (hn : n ≤ Config.maxNoisy) (hm : malformed s f = false) (hr : refuses s f = false)
    (hd : f.sender = s.own → sent = .carried) :
    findings s (hear f n w) sent part = { error := false, raised := .nothing, duplicate := false } := by
  have e : ¬ Config.maxNoisy < n := by omega
  have d : isDuplicate s (hear f n w) (sent == .carried) = false := by
    by_cases h : f.sender = s.own
    · simp [isDuplicate, hd h]
    · simp [isDuplicate, hear, h]
  unfold findings
  rw [d]
  simp only [hear] at *
  simp [hm, hr, e, verdictRaised]

theorem clean_hear {f : Frame} {n : Nat} (w : List Bool) (hn : n ≤ Config.maxNoisy) : (hear f n w).clean = true := by
  simp [Reception.clean, hear, hn]

/-- The verdict of a clean frame whose window stays released and against which the station raises nothing: it is
applied, and its end handed (R123, R125, R152). -/
theorem verdictEnd_applied {s : State} {f : Frame} {n : Nat} (first : FirstTrigger) (sent : Sent) (part : Bool)
    (kind : Option CandKind) (hs : sent ≠ .broken) (hn : n ≤ Config.maxNoisy) :
    s.verdictEnd first (hear f n []) { error := false, raised := .nothing, duplicate := false } sent part kind =
      (State.applyFrame f (sent == .carried) { s with liu := { s.liu with
        linePhase := .hunt, releasedRun := 0, quiet := true, transmitting := false, sampler := Sampler.boundary false
        buffer := encodeFrame f, noisy := n, errorSeen := false, takingPart := part
        lastRecord := some { frame := f, matched := true, own := sent == .carried, duplicate := false,
                             applied := true } } }).handEnd first
        { sent := sent, ending := .applied, raised := .nothing, clean := true, applied := some f } kind := by
  have hw := window_released f n
  have e : (Raised.nothing == Raised.nothing) = true := rfl
  have e' : (Raised.nothing != Raised.nothing) = false := rfl
  unfold State.verdictEnd
  simp only [clean_hear [] hn, hw.1, hw.2, e, e', Bool.and_true, Bool.or_false, if_true, Bool.not_false,
    Bool.false_eq_true, if_false]
  rw [State.keepEnd_handed hs]
  rfl

/-- A clean frame of another station, neither malformed nor refused, is applied (R123, R125, R152). -/
theorem frameHeard_applied {s : State} {h : Hearing} (f : Frame) (hl : s.Listening h) (hs : f.sender ≠ s.own)
    (hm : malformed s f = false) (hr : refuses s f = false) :
    s.frameHeard f.sender f.body h =
      { s.heardApplied f h with sel := (s.heardApplied f h).sel.afterApplied f } := by
  obtain ⟨l, hb, hf⟩ : ∃ l : Liu, l.blind = false ∧ s.frameStart h.startRun = some { s with liu := l } :=
    have ⟨r, hf⟩ := frameStart_listening hl
    ⟨_, rfl, hf⟩
  obtain ⟨h1, h2, -, -, h5, h6, h7⟩ := hl
  have hsel : ({ s.sel with onLine := none } : Selector) = s.sel := by rw [← h7]
  unfold State.frameHeard State.frameAfter
  simp only [deaf_false h1 h2, Bool.false_eq_true, if_false, hf, h6]
  rw [carry_nothing]
  simp only [h7, sentOf, Option.bind_none]
  have e1 : (Sent.none != Sent.broken) = true := rfl
  have e2 : (Sent.none == Sent.carried) = false := rfl
  have hc : (hear f h.noisy []).taken = .complete := rfl
  have hfd : ∀ part, findings { s with liu := l } (hear f h.noisy []) .none part = _ := fun part =>
    findings_clean (s := { s with liu := l }) (w := []) h5 hm hr (fun h => absurd h hs)
  simp only [hc, hfd, headerCls_hear, e1, Bool.true_and]
  rw [verdictEnd_applied _ _ _ _ (by decide) h5]
  simp only [e2, State.offLine, hsel, hb]
  have ho : (s.heardApplied f h).own = s.own := (applyFrame_beside f false _).station
  have hd' : (f.sender == (s.heardApplied f h).own) = false := by rw [ho]; simpa using hs
  change State.handEnd _ _ _ (s.heardApplied f h) = _
  generalize s.heardApplied f h = t at hd'
  simp only [State.handEnd, State.frameEnd, State.ownEnd, nextYield, hd', e2, Bool.false_eq_true, if_false]
  rfl

/-! ## Taking part -/

/-- What R117 says of taking part is what the LIU decides at the header's stop bit. -/
theorem takesPart_iff {s : State} {cls : Option Nat} :
    s.TakesPart cls ↔ (s.ctl.state.participating && takesPart s.ctl.state cls) = true := by
  unfold State.TakesPart takesPart
  cases s.ctl.state <;> simp [StationState.participating]

/-! ## The commands of a frame -/

/-- Every command that stands for a frame is the hearing of that frame (log entry 4). -/
theorem exec_frameCommands {c : Instr} {p : Station} {h : Hearing} {b : Body} (hc : c ∈ frameCommands p h b) (s : State) :
    exec c s = .next (s.frameHeard p b h) := by
  rcases List.mem_cons.mp hc with rfl | hc
  · rfl
  · cases b <;> simp only [List.mem_cons, List.not_mem_nil, or_false] at hc
    case beat => rcases hc with rfl | rfl | rfl | rfl | rfl <;> rfl
    all_goals subst hc; rfl

/-- A frame that its state does nothing with moves the LIU and the frame end alone (R55, R117). -/
theorem frameHeard_unmoved {s : State} {h : Hearing} {f : Frame} (hl : s.Listening h) (ho : f.sender ≠ s.own)
    (hm : malformed s f = false) (hr : refuses s f = false) (ha : ∀ l, State.applyFrame f false { s with liu := l } =
      { s with liu := l }) : s.Unmoved false (s.frameHeard f.sender f.body h) := by
  have hsel : ({ s.sel with onLine := none } : Selector) = s.sel := by rw [← hl.silent]
  rw [frameHeard_applied f hl ho hm hr]
  simp only [State.heardApplied, ha]
  refine ⟨?_, ⟨rfl, rfl, rfl⟩, rfl⟩
  simp only [Selector.afterApplied, hl.silent]

/-! ## The own header, lost -/

/-- The frame end of an own frame that lost to one that was applied (R125, R147). -/
def lostEnd (f : Frame) : FrameEnd :=
  { sent := .lost, ending := .applied, raised := .nothing, clean := true, applied := some f }

/-- A station whose own header loses to a clean frame of another station, neither malformed nor refused, applies it as
a receiver, and its frame end comes after (R123, R125, R147). -/
theorem frameHeard_lost {s : State} {h : Hearing} {f : Frame} {k : Option CandKind} (hl : s.Loses h f k)
    (h2 : s.ctl.state ≠ .halted) (hm : malformed s f = false) (hr : refuses s f = false) :
    s.frameHeard f.sender f.body h =
      (State.applyFrame f false { s with
        sel := { s.sel with onLine := none }
        liu := { Liu.afterFrame f h.noisy (s.ctl.state.participating && takesPart s.ctl.state (some f.body.cls)) with
          blind := s.liu.blind } }).frameEnd .free (lostEnd f) k := by
  obtain ⟨h1, h3, h4, h5, h6, b, h7, h8⟩ := hl
  have hf : s.frameStart h.startRun = some s := by
    simp [State.frameStart, State.startBit, Liu.hunting, State.runReached, h3]
  have hs := sentOf_lower (o := { kind := k, frame := { sender := s.own, body := b } }) h.noisy [] h8
  have hc : (hear f h.noisy []).taken = .complete := rfl
  have e1 : (Sent.lost != Sent.broken) = true := rfl
  unfold State.frameHeard State.frameAfter
  simp only [deaf_false h1 h2, Bool.false_eq_true, if_false, hf, h5]
  rw [carry_nothing]
  simp only [h7, Option.bind_some, hs, hc, headerCls_hear, e1, Bool.true_and]
  rw [findings_clean h4 hm hr (fun h => absurd h h6), verdictEnd_applied _ _ _ _ (by decide) h4]
  rfl

/-! ## The own frame, carried to its verdict -/

/-- The frame end of an own frame that was applied (R125). -/
def carriedEnd (f : Frame) : FrameEnd :=
  { sent := .carried, ending := .applied, raised := .nothing, clean := true, applied := some f }

/-- The Offer Selector after it (R130, R137). -/
def Selector.afterCarried (f : Frame) (x : Selector) : Selector :=
  { x with
    streak := 0, lastEnd := some (carriedEnd f)
    yielding := x.yielding || (decide (4 ≤ f.body.cls) && decide (f.body.cls ≤ 6)) }

/-- The own frame's application with the LIU already past it and nothing on the line. -/
def State.carriedApplied (f : Frame) (h : Hearing) (s : State) : State :=
  State.applyFrame f true { s with
    sel := { s.sel with onLine := none }
    liu := { linePhase := .hunt, sampler := Sampler.boundary false, releasedRun := 0, blind := s.liu.blind, quiet := true
             buffer := encodeFrame f, noisy := h.noisy, errorSeen := false, transmitting := false
             takingPart := s.ctl.state.participating && takesPart s.ctl.state (some f.body.cls)
             lastRecord := some { frame := f, matched := true, own := true, duplicate := false, applied := true } } }

/-- The own frame on the line, carried to the end of its check character, neither malformed nor refused and
with its window released, is applied (R123, R125, R152). -/
theorem frameHeard_own {s : State} {h : Hearing} (o : Offer) (h1 : s.pins.resetLow = false)
    (h2 : s.ctl.state ≠ .halted) (h3 : s.liu.linePhase = .contend) (h4 : h.noisy ≤ Config.maxNoisy)
    (h5 : h.within = Within.nothing) (h6 : s.sel.onLine = some o)
    (hm : malformed s o.frame = false) (hr : refuses s o.frame = false) :
    s.frameHeard o.frame.sender o.frame.body h =
      { s.carriedApplied o.frame h with
        sel := (s.carriedApplied o.frame h).sel.afterCarried o.frame } := by
  have hf : s.frameStart h.startRun = some s := by
    simp [State.frameStart, State.startBit, Liu.hunting, State.runReached, h3]
  have hs : sentOf (some o) (hear o.frame h.noisy []).levels = .carried := sentOf_own o h.noisy []
  have hc : (hear o.frame h.noisy []).taken = .complete := rfl
  have e1 : (Sent.carried != Sent.broken) = true := rfl
  have e2 : (Sent.carried == Sent.carried) = true := rfl
  unfold State.frameHeard State.frameAfter
  simp only [deaf_false h1 h2, Bool.false_eq_true, if_false, hf, h5]
  show State.carry _ (hear o.frame h.noisy []) _ _ = _
  rw [carry_nothing]
  simp only [h6, Option.bind_some, hs, hc, headerCls_hear]
  rw [findings_clean h4 hm hr (fun _ => rfl), verdictEnd_applied _ _ _ _ (by decide) h4]
  simp only [e1, e2, Bool.true_and, State.carriedApplied, State.offLine]
  generalize State.applyFrame o.frame true _ = t
  cases o.kind <;> rfl

end Sys2Proof.Machine
end

