-- ==== Sys2Proof/Laws/Member.lean ====
section
/-! SUPPORT. What a frame of another station comes to at a member: the application's effect on the replicated
state and the desk, and everything else as it was. -/

namespace Sys2Proof.Machine

theorem isMember_cases {st : StationState} (h : st.isMember = true) : st = .synced ∨ st = .leaving .member := by
  revert h
  cases st <;> simp [StationState.isMember]
  rename_i k
  cases k <;> simp

theorem isMember_participating {st : StationState} (h : st.isMember = true) : st.participating = true := by
  rcases isMember_cases h with h | h <;> rw [h] <;> rfl

theorem isMember_live {st : StationState} (h : st.isMember = true) : (st == .halted) = false := by
  rcases isMember_cases h with h | h <;> rw [h] <;> rfl

/-- A member's application (R117). -/
theorem applyFrame_member {s : State} (f : Frame) (own : Bool) (h : s.ctl.state.isMember = true) :
    s.applyFrame f own = s.applyMember f own := by
  unfold State.applyFrame
  rcases isMember_cases h with h | h <;> rw [h]

/-- A member makes every content test (R117). -/
theorem malformed_member {s : State} {f : Frame} (h : s.ctl.state.isMember = true) :
    malformed s f = (requestMalformed f.body || transferMalformed f || driftFound s f) := by
  unfold malformed
  rcases isMember_cases h with h | h <;> rw [h]

/-- The application's effect does not look at the LIU. -/
theorem memberEffect_withLiu (f : Frame) (own : Bool) (s : State) (l : Liu) :
    State.memberEffect f own { s with liu := l } = s.memberEffect f own := rfl

/-- Settling the candidates withdraws the PART where nothing is being sent and the HEAD where it does not stand, each
with its count and what waits against it (R83, R95, R127, R135). -/
theorem settleCandidates_eq (s : State) : s.settleCandidates = { s with
    xfer := if s.replica.transfer.isNone then { s.xfer with image := none, cursor := none } else s.xfer
    sel := { s.sel with
      partCount := if s.replica.transfer.isNone then 0 else s.sel.partCount
      headCount := if s.headStands then s.sel.headCount else 0
      onLine := s.sel.onLine.map
        (Offer.settle fun k => (k.isPart && s.replica.transfer.isNone) || (k == .head && !s.headStands))
      brokenEnds := s.sel.brokenEnds.map
        (BrokenEnd.settle fun k => (k.isPart && s.replica.transfer.isNone) || (k == .head && !s.headStands)) } } := by
  have e : (if s.replica.transfer.isNone then s.stopSending else s).headStands = s.headStands := by split <;> rfl
  unfold State.settleCandidates
  dsimp only
  rw [e]
  cases s.replica.transfer.isNone <;> cases s.headStands <;>
    simp [State.stopSending, Selector.dropPart, Selector.dropHead, Selector.forget, Function.comp_def,
      Offer.settle_settle, BrokenEnd.settle_settle]

/-- A frame of another station that is no BEAT, applied by a member that stays one: the replicated state and
the desk as the effect has them, and nothing else but what `State.ReplicaOnly` leaves out. -/
theorem memberHears_applied {s : State} {f : Frame} {h : Hearing} (hm : s.MemberHears h f.sender)
    (hmal : malformed s f = false) (hr : refuses s f = false) (hg : (s.memberEffect f false).ownGone = false)
    (hb : f.body ≠ .beat) :
    (s.frameHeard f.sender f.body h).replica = (s.memberEffect f false).replica ∧
    (s.frameHeard f.sender f.body h).desk = s.desk.takeReports (s.memberEffect f false).reports ∧
    (s.frameHeard f.sender f.body h).sel.streak = 0 ∧
    (s.frameHeard f.sender f.body h).sel.yielding = false ∧
    s.ReplicaOnly f.body (s.frameHeard f.sender f.body h) := by
  obtain ⟨hl, hme, ho⟩ := hm
  rw [frameHeard_applied f hl ho hmal hr]
  generalize he : s.memberEffect f false = e
  have e2 : s.heardApplied f h = (State.memberApplied f false { s with
      liu := Liu.afterFrame f h.noisy (s.ctl.state.participating && takesPart s.ctl.state (some f.body.cls)) }).settleCandidates := by
    unfold State.heardApplied
    rw [applyFrame_member f false (by exact hme)]
    unfold State.applyMember
    dsimp only
    rw [memberEffect_withLiu, hg]
    rfl
  rw [e2]
  generalize Liu.afterFrame _ _ _ = l
  have e3 : State.memberApplied f false { s with liu := l } =
      { s with liu := l, replica := e.replica, desk := s.desk.takeReports e.reports
               sel := if isHead f.body then s.sel.dropHead else s.sel } := by
    unfold State.memberApplied State.memberParts
    dsimp only
    rw [memberEffect_withLiu, he]
    revert hb
    cases f.body <;> intro hb <;> first
      | exact absurd rfl hb
      | rfl
  rw [e3]
  obtain ⟨u, hu⟩ : ∃ u : State, u = { s with
    liu := l, replica := e.replica, desk := s.desk.takeReports e.reports
    sel := if isHead f.body then s.sel.dropHead else s.sel } := ⟨_, rfl⟩
  have hb : u.sel.brokenEnds = s.sel.brokenEnds.map (BrokenEnd.settle fun k => k == .head && isHead f.body) := by
    rw [hu]
    cases isHead f.body <;> simp
  rw [← hu, settleCandidates_eq]
  refine ⟨by rw [hu], by rw [hu], rfl, rfl, ?_⟩
  constructor
  case brokenEnds =>
    show List.map _ u.sel.brokenEnds = _
    rw [hb, List.map_map]
    refine List.map_congr_left fun b _ => ?_
    rw [Function.comp_apply, BrokenEnd.settle_settle]
    congr 1
    funext k
    show _ = ((k.isPart && u.replica.transfer.isNone) || (k == .head && (isHead f.body || !u.headStands)))
    cases k.isPart <;> cases (k == CandKind.head) <;> cases isHead f.body <;> cases u.headStands <;> simp
  case onLine =>
    show Option.map _ u.sel.onLine = _
    have hs := hl.silent
    rw [hu]
    cases isHead f.body <;> simp [hs]
  all_goals first
    | (rw [hu]; done)
    | (rw [hu]; cases isHead f.body <;> rfl)

/-- A BEAT of another station at a member (R32, R33, R43, R128). -/
theorem memberHears_beat {s : State} {p : Station} {h : Hearing} (hm : s.MemberHears h p) :
    s.frameHeard p .beat h =
      { s.heardApplied { sender := p, body := .beat } h with
        sel := (s.heardApplied { sender := p, body := .beat } h).sel.afterApplied { sender := p, body := .beat } } ∧
    s.heardApplied { sender := p, body := .beat } h =
      (let e := s.memberEffect { sender := p, body := .beat } false
       let t := State.settleCandidates <| State.beatApplied { s with
         liu := Liu.afterFrame { sender := p, body := .beat } h.noisy true
         replica := e.replica
         desk := s.desk.takeReports e.reports }
       if e.ownGone then t.exitOn .lapsed else t) := by
  obtain ⟨hl, hme, ho⟩ := hm
  constructor
  · exact frameHeard_applied { sender := p, body := .beat } hl ho
      (by rw [malformed_member hme]; simp [requestMalformed, transferMalformed, driftFound]) rfl
  · unfold State.heardApplied
    rw [applyFrame_member _ false (by exact hme)]
    have tp : (s.ctl.state.participating && takesPart s.ctl.state (some Body.beat.cls)) = true := by
      rcases isMember_cases hme with h | h <;> rw [h] <;> rfl
    rw [tp]
    rfl

/-! ## The own frame at a member -/

/-- The own frame carried and applied at a member that stays one: the effect's replicated state and reports, the
blocks' parts, and the frame end, with nothing on the line. -/
theorem carries_applied {s : State} {h : Hearing} {b : Body} (hc : s.Carries h b)
    (hm : s.ctl.state.isMember = true) (hmal : malformed s { sender := s.own, body := b } = false)
    (hr : refuses s { sender := s.own, body := b } = false)
    (hg : (s.memberEffect { sender := s.own, body := b } true).ownGone = false) :
    ∃ l, s.frameHeard s.own b h =
      (let t := (State.memberApplied { sender := s.own, body := b } true
        { s with liu := l, sel := { s.sel with onLine := none } }).settleCandidates
       { t with sel := t.sel.afterCarried { sender := s.own, body := b } }) := by
  obtain ⟨h1, h3, h4, h5, h6⟩ := hc
  have hl : s.ctl.state ≠ .halted := by
    intro h
    rw [h] at hm
    exact absurd hm (by decide)
  obtain ⟨o, ho, hf⟩ := Option.map_eq_some_iff.mp h6
  have own := frameHeard_own o h1 hl h3 h4 h5 ho (by rw [hf]; exact hmal) (by rw [hf]; exact hr)
  rw [hf] at own
  rw [own]
  unfold State.carriedApplied
  rw [applyFrame_member _ true (by exact hm)]
  unfold State.applyMember
  have e : ∀ l x, State.memberEffect { sender := s.own, body := b } true { s with liu := l, sel := x } =
      s.memberEffect { sender := s.own, body := b } true := fun _ _ => rfl
  simp only [e, hg, Bool.false_eq_true, if_false]
  exact ⟨_, rfl⟩

end Sys2Proof.Machine
end

