-- ==== Sys2Proof/Laws/Offer.lean ====
section
/-! SUPPORT. What a choice can change: the desk by its pre-check, the LIU where a header begins, and of the
Offer Selector the frame on the line, the request's count and what waits against a request; and what it comes to, case
by case. -/

namespace Sys2Proof.Machine

/-- A choice leaves every other block alone. -/
theorem choice_eq (s : State) :
    s.choice = { s with desk := s.choice.desk, sel := s.choice.sel, liu := s.choice.liu } := by
  unfold State.choice
  split
  · rfl
  · split
    · rfl
    · split
      · dsimp only
        split <;> rfl
      · split <;> rfl

/-- Of the Offer Selector a choice changes the frame on the line, the request's count, and what the broken ends of a
request that its pre-check completes count against. -/
theorem choice_sel (s : State) : s.choice.sel =
    { s.sel with onLine := s.choice.sel.onLine, requestCount := s.choice.sel.requestCount
                 brokenEnds := s.choice.sel.brokenEnds } := by
  have p : s.preCheck.sel =
      { s.sel with onLine := s.preCheck.sel.onLine, requestCount := s.preCheck.sel.requestCount
                   brokenEnds := s.preCheck.sel.brokenEnds } := by
    unfold State.preCheck
    dsimp only
    split <;> rfl
  unfold State.choice
  split
  · rfl
  · split
    · rfl
    · split
      · dsimp only
        split
        · exact p
        · unfold State.offer
          dsimp only
          rw [p]
      · split <;> rfl

/-- The choice at an event that sets a candidate: as `choice_eq`. -/
theorem gapChoice_eq (s : State) :
    s.gapChoice = { s with desk := s.gapChoice.desk, sel := s.gapChoice.sel, liu := s.gapChoice.liu } := by
  unfold State.gapChoice
  split
  · exact choice_eq s
  · rfl

theorem gapChoice_sel (s : State) : s.gapChoice.sel =
    { s.sel with onLine := s.gapChoice.sel.onLine, requestCount := s.gapChoice.sel.requestCount
                 brokenEnds := s.gapChoice.sel.brokenEnds } := by
  unfold State.gapChoice
  split
  · exact choice_sel s
  · rfl

/-- With the line not standing released, or a frame offered, no choice follows (R132). -/
theorem gapChoice_closed {s : State} (h : ¬ s.OpenGap) : s.gapChoice = s := by
  unfold State.gapChoice
  split
  · rename_i a
    exact absurd (by simpa [State.OpenGap] using a) h
  · rfl

/-- On a line that stays released with nothing offered, it is a choice (R132). -/
theorem gapChoice_open {s : State} (h : s.OpenGap) : s.gapChoice = s.choice := by
  unfold State.gapChoice
  simp [h.1, h.2]

/-- The pre-check leaves a head that fits, with everything behind it (R136, R165). -/
theorem preCheck_fits {n : Nat} {d : Desk} {r : Request} {rs : List Request} (h : d.requests = r :: rs)
    (f : d.fits r = true) : Desk.preCheck n d = d := by
  cases n with
  | zero => rfl
  | succ n => simp [Desk.preCheck, h, f]

/-- An ACQUIRE at the head passes the pre-check at a choice: the desk stands (R136). -/
theorem choice_desk_of_acquire {s : State} {r : Request} {rs : List Request} (h : s.desk.requests = r :: rs)
    (k : r.kind = .acquire) : s.choice.desk = s.desk := by
  have f : Desk.preCheck s.desk.requests.length s.desk = s.desk :=
    preCheck_fits h (by simp [Desk.fits, k])
  have p : s.preCheck = s := by
    unfold State.preCheck
    dsimp only
    rw [f]
    simp
  unfold State.choice
  split
  · rfl
  · split
    · rfl
    · split
      · dsimp only
        rw [p]
        split <;> rfl
      · split <;> rfl

/-! ## What a choice comes to, case by case (R132, R133, R136) -/

theorem choice_outside {s : State} (h : s.ctl.state.participating = false) : s.choice = s := by
  simp [State.choice, h]

/-- The lowest of the classes 0..3 that stands is offered. -/
theorem choice_first {s : State} {k : CandKind} {b : Body} (h : s.ctl.state.participating = true)
    (hf : firstClasses s = some (k, b)) : s.choice = s.offer k b := by
  simp [State.choice, h, hf]

/-- A head request that its claim lets through is offered. -/
theorem choice_request {s : State} {r : Request} {rs : List Request} (h : s.ctl.state = .synced)
    (hf : firstClasses s = none) (hy : s.sel.yielding = false) (hr : s.desk.requests = r :: rs)
    (ht : s.desk.fits r = true) : s.choice = s.offer (.request r.ticket) (requestBody r) := by
  have p : s.preCheck = s := by
    unfold State.preCheck
    dsimp only
    rw [preCheck_fits hr ht]
    simp
  simp [State.choice, h, StationState.participating, hf, hy, hr, p]

/-- A head request that its claim does not let through completes with a local NOT_HELD, and the choice goes on with
the next (R165). -/
theorem choice_notHeld {s : State} {r : Request} {rs : List Request} (h : s.ctl.state = .synced)
    (hf : firstClasses s = none) (hy : s.sel.yielding = false) (hr : s.desk.requests = r :: rs)
    (ht : s.desk.fits r = false) :
    s.choice = State.choice { s with desk := { s.desk with requests := rs }.conclude r .notHeld none none
                                     sel := s.sel.nextRequest } := by
  have hq : (Desk.conclude r .notHeld none none { s.desk with requests := rs }).requests = rs :=
    Desk.conclude_requests ..
  have hd : Desk.preCheck s.desk.requests.length s.desk =
      Desk.preCheck rs.length (Desk.conclude r .notHeld none none { s.desk with requests := rs }) := by
    rw [hr, List.length_cons, Desk.preCheck, hr]
    simp [ht, Desk.concludeHead, hr]
  have hl : (Desk.preCheck rs.length (Desk.conclude r .notHeld none none { s.desk with requests := rs })).requests.length
      ≠ s.desk.requests.length := by
    have := (Desk.preCheck_shrinks rs.length (Desk.conclude r .notHeld none none { s.desk with requests := rs })).1
    rw [hq] at this
    rw [hr, List.length_cons]
    omega
  have e : s.preCheck = State.preCheck { s with desk := { s.desk with requests := rs }.conclude r .notHeld none none
                                                sel := s.sel.nextRequest } := by
    unfold State.preCheck
    dsimp only
    rw [hd, if_neg hl, hq, Selector.nextRequest_nextRequest]
    split <;> rfl
  have f : firstClasses { s with desk := { s.desk with requests := rs }.conclude r .notHeld none none
                                 sel := s.sel.nextRequest } = none := hf
  generalize ht' : ({ s with desk := { s.desk with requests := rs }.conclude r .notHeld none none
                             sel := s.sel.nextRequest } : State) = t at e f ⊢
  have t1 : t.ctl.state = .synced := by rw [← ht']; exact h
  have t2 : t.sel.yielding = false := by rw [← ht']; exact hy
  have t3 : t.desk.requests = rs := by rw [← ht']; exact hq
  have left : s.choice = match t.preCheck.desk.requests with
      | [] => t.preCheck
      | q :: _ => t.preCheck.offer (.request q.ticket) (requestBody q) := by
    simp only [State.choice, h, StationState.participating, hf, hy, hr, e]
    cases t.preCheck.desk.requests <;> rfl
  cases rs with
  | nil =>
    have : t.preCheck = t := by
      unfold State.preCheck
      simp [t3, Desk.preCheck]
    rw [left, this, t3, State.choice]
    simp [t1, StationState.participating, f, t3, State.joinStands]
  | cons q qs =>
    rw [left, State.choice]
    simp only [t1, StationState.participating, f, t2, t3]
    cases t.preCheck.desk.requests <;> rfl

/-- A request turned away leaves the claims, and so what fits, as they were. -/
theorem turnedAway_cons {d : Desk} {r : Request} {gone rest : List Request} (h : d.fits r = false) :
    ({ d with requests := gone ++ rest }.conclude r .notHeld none none).turnedAway gone rest =
      d.turnedAway (r :: gone) rest ∧
    ∀ q, ({ d with requests := gone ++ rest }.conclude r .notHeld none none).fits q = d.fits q := by
  have hk : r.kind = .release ∨ r.kind = .renew := by
    cases hr : r.kind <;> simp [Desk.fits, hr] at h ⊢
  rcases hk with hk | hk <;>
    simp [Desk.conclude, hk, Desk.turnedAway, Desk.append, Nat.sub_sub, Nat.add_comm, Desk.fits, Desk.claimFor]

/-- A choice at a request turns away the heads that their claims do not let through, and goes on with the rest (R136,
R165). -/
theorem choice_turnedAway {s : State} {gone rest : List Request} (h : s.ctl.state = .synced)
    (hf : firstClasses s = none) (hy : s.sel.yielding = false) (hr : s.desk.requests = gone ++ rest)
    (hg : ∀ r ∈ gone, s.desk.fits r = false) :
    s.choice = State.choice { s with
      desk := s.desk.turnedAway gone rest
      sel := if gone = [] then s.sel else s.sel.nextRequest } := by
  induction gone generalizing s with
  | nil =>
    have : s.desk.turnedAway [] rest = s.desk := by
      simp only [List.nil_append] at hr
      simp [Desk.turnedAway, ← hr]
    rw [this]
    rfl
  | cons r gone ih =>
    have hd := turnedAway_cons (rest := rest) (gone := gone) (hg r List.mem_cons_self)
    rw [choice_notHeld (rs := gone ++ rest) h hf hy hr (hg r List.mem_cons_self)]
    rw [ih (by exact h) (by exact hf) (by exact hy) (by exact Desk.conclude_requests ..)
      (fun q hq => (hd.2 q).trans (hg q (List.mem_cons_of_mem _ hq)))]
    dsimp only
    rw [hd.1, Selector.nextRequest_nextRequest]
    simp

/-- With no candidate there is no offer. -/
theorem choice_nothing {s : State} (hf : firstClasses s = none) (hj : s.joinStands = false)
    (hr : s.ctl.state = .synced → s.sel.yielding = true ∨ s.desk.requests = []) : s.choice = s := by
  have : (s.ctl.state == .synced && !s.sel.yielding && !s.desk.requests.isEmpty) = false := by
    by_cases h : s.ctl.state = .synced
    · rcases hr h with h | h <;> simp [h]
    · simp [h]
  unfold State.choice
  split
  · rfl
  · simp only [hf, this, hj, Bool.false_eq_true, if_false]

/-- The JOIN is offered where no lower class stands. -/
theorem choice_join {s : State} (hf : firstClasses s = none) (hj : s.joinStands = true) :
    s.choice = s.offer .join .join := by
  have hs : s.ctl.state = .joining ∨ s.ctl.state = .loading := by
    simp [State.joinStands] at hj
    exact hj.2
  have a : (s.ctl.state == .synced) = false := by rcases hs with h | h <;> rw [h] <;> rfl
  have b : s.ctl.state.participating = true := by rcases hs with h | h <;> rw [h] <;> rfl
  simp [State.choice, hf, hj, a, b]

end Sys2Proof.Machine
end

