-- ==== Sys2Proof/Laws/Port.lean ====
section
/-! SUPPORT. What a port command comes to in a select period that waits for its command byte: the owning
block's act, the reply held, and the port in TURNAROUND. -/

namespace Sys2Proof.Machine

/-- The two port bytes of a key are the key. -/
theorem portWord_bytes (k : Key) : portWord (hiByte k) (loByte k) = k := by
  unfold portWord hiByte loByte
  ext i hi
  rw [← BitVec.getLsbD_eq_getElem, BitVec.getLsbD_append]
  simp only [BitVec.getLsbD_extractLsb']
  by_cases h : i < 8
  · simp [h, hi]
  · have h2 : i - 8 < 8 := by omega
    simp [h, h2, show 8 + (i - 8) = i by omega, hi]

/-- The key of two port bytes has those bytes (R192). -/
theorem keyBytes_append (a b : Byte) : hiByte (a ++ b : Key) = a ∧ loByte (a ++ b : Key) = b := by
  unfold hiByte loByte
  constructor <;> ext i hi <;>
    rw [← BitVec.getLsbD_eq_getElem, ← BitVec.getLsbD_eq_getElem, BitVec.getLsbD_extractLsb', BitVec.getLsbD_append] <;>
    simp [hi]

/-! ## The port stands beside every choice and act -/

theorem choice_withPort (s : State) (p : Port) :
    State.choice { s with port := p } = { s.choice with port := p } := by
  have e : firstClasses { s with port := p } = firstClasses s := rfl
  have j : State.joinStands { s with port := p } = s.joinStands := rfl
  unfold State.choice
  dsimp only
  rw [e, j]
  split
  · rfl
  · split
    · rfl
    · split
      · have d : (State.preCheck { s with port := p }) = { s.preCheck with port := p } := rfl
        rw [d]
        dsimp only
        split <;> rfl
      · split <;> rfl

theorem gapChoice_withPort (s : State) (p : Port) :
    State.gapChoice { s with port := p } = { s.gapChoice with port := p } := by
  unfold State.gapChoice
  dsimp only
  split
  · exact choice_withPort s p
  · rfl

theorem accept_withPort (r : Request) (s : State) (p : Port) :
    State.accept r { s with port := p } = { s.accept r with port := p } := by
  unfold State.accept
  dsimp only
  split
  · exact gapChoice_withPort { s with desk := s.desk.accept r, sel := { s.sel with requestCount := 0 } } p
  · rfl

theorem requestCommand_withPort (k : RequestKind) (key : Key) (o t : Byte) (s : State) (p : Port) :
    State.requestCommand k key o t { s with port := p } =
      ({ (s.requestCommand k key o t).1 with port := p }, (s.requestCommand k key o t).2) := by
  have a : State.admission k key o t { s with port := p } = s.admission k key o t := rfl
  unfold State.requestCommand
  dsimp only
  rw [a]
  split <;> first | rfl | rw [accept_withPort]

theorem setupCommand_withPort (v : Byte) (s : State) (p : Port) :
    State.setupCommand v { s with port := p } = ({ (s.setupCommand v).1 with port := p }, (s.setupCommand v).2) := by
  unfold State.setupCommand
  dsimp only
  split
  · rfl
  · split <;> rfl

theorem queryBytes_withPort (key : Key) (s : State) (p : Port) :
    State.queryBytes key { s with port := p } = s.queryBytes key := rfl

/-! ## One lemma for each command -/

theorem setup_answers {s : State} (h : s.Selected) (v : Byte) : exec (.setup v) s = .next
    { (s.setupCommand v).1 with port := Port.answering 0x1A [v] [statusCode (s.setupCommand v).2] } := by
  obtain ⟨h1, h2⟩ := h
  simp [exec, execSetup, State.portBytes, State.portByte, h1, h2, argumentCount, State.effectEvent,
    State.takeEffect, bareReply, setupCommand_withPort, Port.answering, statusReply]

theorem start_answers {s : State} (h : s.Selected) : exec .start s = .next
    { s.startCommand.1 with port := Port.answering 0x2B [] [statusCode s.startCommand.2] } := by
  obtain ⟨h1, h2⟩ := h
  simp [exec, execStart, State.portBytes, State.portByte, h1, h2, argumentCount, State.effectEvent,
    State.takeEffect, bareReply, Port.answering, statusReply]

theorem stop_answers {s : State} (h : s.Selected) : exec .stop s = .next
    { s.stopCommand.1 with port := Port.answering 0x2C [] [statusCode s.stopCommand.2] } := by
  obtain ⟨h1, h2⟩ := h
  simp [exec, execStop, State.portBytes, State.portByte, h1, h2, argumentCount, State.effectEvent,
    State.takeEffect, bareReply, Port.answering, statusReply]

theorem acquire_answers {s : State} (h : s.Selected) (key : Key) (o t : Byte) :
    exec (.acquire key o t) s = .next { (s.requestCommand .acquire key o t).1 with
      port := Port.answering 0x41 [hiByte key, loByte key, o, t] (s.requestCommand .acquire key o t).2 } := by
  obtain ⟨h1, h2⟩ := h
  simp [exec, execAcquire, State.portBytes, State.portByte, h1, h2, argumentCount, State.effectEvent,
    State.takeEffect, portWord_bytes, Port.answering, requestCommand_withPort]

theorem release_answers {s : State} (h : s.Selected) (key : Key) :
    exec (.release key) s = .next { (s.requestCommand .release key 0 0).1 with
      port := Port.answering 0x42 [hiByte key, loByte key] (s.requestCommand .release key 0 0).2 } := by
  obtain ⟨h1, h2⟩ := h
  simp [exec, execRelease, State.portBytes, State.portByte, h1, h2, argumentCount, State.effectEvent,
    State.takeEffect, portWord_bytes, Port.answering, requestCommand_withPort]

theorem renew_answers {s : State} (h : s.Selected) (key : Key) (t : Byte) :
    exec (.renew key t) s = .next { (s.requestCommand .renew key 0 t).1 with
      port := Port.answering 0x43 [hiByte key, loByte key, t] (s.requestCommand .renew key 0 t).2 } := by
  obtain ⟨h1, h2⟩ := h
  simp [exec, execRenew, State.portBytes, State.portByte, h1, h2, argumentCount, State.effectEvent,
    State.takeEffect, portWord_bytes, Port.answering, requestCommand_withPort]

theorem take_answers {s : State} (h : s.Selected) : exec .take s = .next
    { s.takeCommand.1 with port := Port.answering 0x51 [] s.takeCommand.2 } := by
  obtain ⟨h1, h2⟩ := h
  simp [exec, execTake, State.portBytes, State.portByte, h1, h2, argumentCount, State.effectEvent,
    State.takeEffect, Port.answering]

theorem status_answers {s : State} (h : s.Selected) : exec .status s = .next
    { s.statusCommand.1 with port := Port.answering 0x52 [] s.statusCommand.2 } := by
  obtain ⟨h1, h2⟩ := h
  simp [exec, execStatus, State.portBytes, State.portByte, h1, h2, argumentCount, State.effectEvent,
    State.takeEffect, Port.answering]

theorem query_answers {s : State} (h : s.Selected) (key : Key) : exec (.query key) s = .next
    { s with port := Port.answering 0x53 [hiByte key, loByte key] (s.queryBytes key) } := by
  obtain ⟨h1, h2⟩ := h
  simp [exec, execQuery, State.portBytes, State.portByte, h1, h2, argumentCount, State.effectEvent,
    State.takeEffect, portWord_bytes, Port.answering, queryBytes_withPort]

theorem roster_answers {s : State} (h : s.Selected) : exec .roster s = .next
    { s with port := Port.answering 0x54 [] s.rosterBytes } := by
  obtain ⟨h1, h2⟩ := h
  simp [exec, execRoster, State.portBytes, State.portByte, h1, h2, argumentCount, State.effectEvent,
    State.takeEffect, Port.answering]

end Sys2Proof.Machine
end

