-- ==== Sys2Proof/Tests/Slice0.lean ====
section
/-! SUPPORT. The model's own tests: ill-formed commands refused by the well-formedness check, the figures the
spec works out in its examples, and for each statement a state and operands that meet its hypotheses. -/

namespace Sys2Proof.Tests

open Sys2Proof.Machine

/-! ## Small states -/

/-- Heard at the edge of what counts: a run of 12, two noisy cells. -/
def edge : Hearing := { startRun := 12, noisy := 2, within := Within.nothing }

/-- Station 3 in a state, hunting, with nothing else about it. -/
def station (st : StationState) : State := { State.reset with ctl := { Controller.reset 3 0 with state := st } }

/-- The same with SEL low, waiting for a command byte. -/
def selected (st : StationState) : State :=
  { station st with
    pins := { resetLow := false, selLow := true }
    port := { Port.reset with phase := .command } }

/-- A claim for key 9 in a state. -/
def claim (st : ClaimState) : Claim := { key := 9, ticket := 1, state := st, mode := .exclusive }

/-- An ACQUIRE of key 9 in the queue. -/
def request : Request := { ticket := 1, kind := .acquire, key := 9, mode := .exclusive, wait := true, term := 5 }

/-- A replicated state with a roster of station 3 and station 7. -/
def pair (silence : Nat) : Replica :=
  { Replica.empty with roster := [{ station := 3, silence := silence }, { station := 7, silence := 0 }] }

/-- A SHARED slot of key 9 with so many holders and waiters. -/
def slot (h w : Nat) : Slot :=
  { key := 9, mode := .shared
    holders := (stations.take h).map fun p => { station := p, remaining := 1 }
    waiters := ((stations.drop 10).take w).map fun p => { station := p, wanted := .exclusive, term := 1 } }

/-- A verdict window driven for its ten cells. -/
def driven : List Bool := List.replicate 120 true

/-- LINE: twelve released cells, then levels each held for its twelve phases, then a window. -/
def raw (levels window : List Bool) : RawFrame :=
  { looks := (List.replicate 12 false ++ levels).flatMap (List.replicate 12) ++ window, within := Within.nothing }

/-- An own frame's window as another station drives it. -/
def objection (noisy : Nat) (window : List Bool) : OwnObjection :=
  { noisy := noisy, window := window, within := Within.nothing }

/-- The outcome is a next state with a property. -/
def After (o : Host.Outcome State Fault Refusal) (p : State → Bool) : Bool :=
  match o with
  | .next t => p t
  | .fault _ => false
  | .refused _ => false

/-! ## Well-formedness: one ill-formed command for each check -/

def head (entries : List Byte) : HeadBody :=
  { joiner := 9, seq := 1, partCount := 3, rosterSet := 0x88, silences := 0, queueCount := 1, entries := entries }

def part (h w : Nat) : PartBody :=
  { index := 1, slot := 63, key := 1, mode := 0
    holders := List.replicate h { station := 7, unused := 0, remaining := 1 }
    waiters := List.replicate w { station := 8, wanted := 0, unused := 0, term := 1 } }

theorem test_wf_head_entries : (Instr.head 7 (head [9, 0xFF, 0xFF]) edge).wf = false := by decide

theorem test_wf_found_entries : (Instr.found 7 (head [9, 1, 2, 3, 4]) edge).wf = false := by decide

theorem test_wf_part_holders : (Instr.part 7 (part 8 0) edge).wf = false := by decide

theorem test_wf_part_waiters : (Instr.part 7 (part 1 8) edge).wf = false := by decide

theorem test_wf_part_length : (Instr.part 7 (part 6 7) edge).wf = false := by decide

theorem test_wf_misshapen : (Instr.spoil { sender := 7, body := .misshapen } edge).wf = false := by decide

theorem test_wf_hearing_run : (Instr.beat 7 { edge with startRun := 25 }).wf = false := by decide

theorem test_wf_hearing_noisy : (Instr.beat 7 { edge with noisy := 331 }).wf = false := by decide

theorem test_wf_raw_looks : (Instr.frameObjected { looks := [], within := Within.nothing }).wf = false := by decide

theorem test_wf_objection_window : (Instr.lineRefused (objection 0 (true :: driven))).wf = false := by decide +kernel

theorem test_wf_objection_noisy : (Instr.headBarred (objection 331 driven)).wf = false := by decide

theorem test_wf_duplicate_window : (Instr.duplicate { sender := 3, body := .present } (true :: driven) edge).wf = false := by
  decide +kernel

theorem test_wf_known_code : (Instr.unknownCommand 0x41).wf = false := by decide

theorem test_wf_start_bit :
    (Instr.startBitNotAccepted 0).wf = false ∧ (Instr.startBitNotAccepted 10).wf = false := by decide

theorem test_wf_good :
    (Instr.head 7 (head [9, 0xFF, 0xFF, 0xFF]) edge).wf = true ∧ (Instr.part 7 (part 4 4) edge).wf = true ∧
    (Instr.streak (raw [true] driven)).wf = true ∧ (Instr.lineRefused (objection 330 driven)).wf = true ∧
    (Instr.startBitNotAccepted 9).wf = true ∧ (Instr.unknownCommand 0x00).wf = true := by decide +kernel

/-! ## Figures of the spec's examples -/

/-- 05_frames.md, headers at one gap. -/
theorem test_headers :
    [headerByte { sender := 2, body := .acquire 1 0 1 }, headerByte { sender := 5, body := .join },
     headerByte { sender := 9, body := .present }, headerByte { sender := 11, body := .release 1 },
     headerByte { sender := 20, body := .present }] = [194, 229, 41, 139, 52] := by decide

/-- 05_frames.md, the extent of a PART: slot 12, key 4001, SHARED, holders 3 and 8, waiter 21; the length
character is 12 and the frame has 15 characters. -/
theorem test_part_extent :
    let b : PartBody := {
      index := 3, slot := 12, key := 4001, mode := 1
      holders := [{ station := 3, unused := 0, remaining := 17 }, { station := 8, unused := 0, remaining := 4 }]
      waiters := [{ station := 21, wanted := 0, unused := 0, term := 60 }] }
    (bodyChars (.part b)).head? = some 12 ∧ (bodyChars (.part b)).length + 2 = 15 ∧ partMalformed b = false ∧
    (bodyChars (.part b)).drop 6 = [0x51, 3, 17, 8, 4, 21, 60] := by decide

/-- Slot 2 of the purge of 01_the_lease_table.md: 5 and 8 are promoted, 2 stays, and station 5's report is
the only one. -/
theorem test_purge_promotes :
    purge 5 6 11 [some { key := 40, mode := .exclusive, holders := [{ station := 11, remaining := 12 }]
                         waiters := [{ station := 5, wanted := .shared, term := 30 },
                                     { station := 8, wanted := .shared, term := 25 },
                                     { station := 2, wanted := .exclusive, term := 10 }] },
                  none,
                  some { key := 90, mode := .shared, holders := [{ station := 3, remaining := 6 }]
                         waiters := [{ station := 11, wanted := .exclusive, term := 20 }] }] =
      ([some { key := 40, mode := .shared
               holders := [{ station := 5, remaining := 30 }, { station := 8, remaining := 25 }]
               waiters := [{ station := 2, wanted := .exclusive, term := 10 }] },
        none,
        some { key := 90, mode := .shared, holders := [{ station := 3, remaining := 6 }], waiters := [] }],
       [{ origin := .table, outcome := .granted, key := 40, mode := some .shared, seq := 6 }]) := by decide

/-- Three samples make a cell's level by majority, and a cell of mixed samples is noisy (R140). -/
theorem test_cell_majority :
    cellLevel { s5 := true, s6 := false, s7 := true } = true ∧
    cellLevel { s5 := true, s6 := false, s7 := false } = false ∧
    cellNoisy { s5 := true, s6 := false, s7 := true } = true ∧
    cellNoisy { s5 := true, s6 := true, s7 := true } = false := by decide

/-- A noisy start cell sampled released ends the taking, and is counted (R118, R140, R142). -/
theorem test_noisy_start_cell :
    (takeChars 33 [{ s5 := true, s6 := false, s7 := false }] [] 0).2 = (1, .framing false) := by decide

/-- An edge restarts the cell: a spike at phase 2 of a released cell in HUNT is a start bit that is tested against
the run (R141, R145), and one at phase 9 comes after the cell has been sampled. -/
theorem test_edge_in_hunt :
    let s := station .synced
    let spike (k : Nat) : List Bool :=
      (List.replicate 9 false).flatMap (List.replicate 12) ++ List.replicate k false ++ [true]
    (s.listen (spike 2)).2 = none ∧ (s.listen (spike 2)).1.liu.releasedRun = 0 ∧ (s.listen (spike 9)).2 = some [] := by
  decide +kernel

/-- What falls within a frame (R56, R117, R191): a START within the header of a JOIN of a higher number leaves the
station out of that frame, which its class would have it take part in; a START before the check character of a frame
bearing the own number makes it a participant, which the frame halts. -/
theorem test_start_within_a_frame :
    (After (exec (.join 7 { edge with within := { Within.nothing with toHeader := [.byte 0x2B] } }) (selected .idle))
      (fun t => t.sel.joinCount == 0 && t.sel.join && t.sel.onLine.isNone && !t.liu.takingPart &&
        t.ctl.preGroup == [7]) &&
     After (exec (.duplicate { sender := 3, body := .join } []
        { edge with within := { Within.nothing with toCheck := [.byte 0x2B] } }) (selected .idle))
      (fun t => t.ctl.state == .halted && t.ctl.cause == .duplicate && t.sel.lastEnd.isSome)) = true := by decide +kernel

/-- An own header begun while a released cell is in progress drives its start bit in the next cell (R146): the frame
is carried through the rest of that cell. -/
theorem test_own_start_bit_in_the_next_cell :
    let f : Frame := { sender := 3, body := .present }
    let s : State := { station .synced with
      liu := { Liu.reset with
        linePhase := .contend, sampler := { phase := 4, seen := false, edge := false, samples := [] } }
      sel := { Selector.reset with present := true, onLine := some { kind := some .present, frame := f } } }
    After (exec (.frameObjected { looks := List.replicate 8 false ++ (frameLevels f).flatMap (List.replicate 12)
                                  within := Within.nothing }) s)
      (fun t => (t.sel.lastEnd.map (·.sent)) == some .carried && !t.sel.present && t.replica.seq == 1) = true := by
  decide +kernel

/-- An edge late in the gap's last cell, as the last look of a stretch: the own header begins with the cell that the
edge began, and the next stretch carries the frame from there (R141, R146). -/
theorem test_own_start_bit_at_an_edge :
    let f : Frame := { sender := 3, body := .present }
    let s : State := { station .synced with
      liu := { Liu.reset with
        blind := false, releasedRun := 11
        sampler := { phase := 9, seen := false, edge := false, samples := [false, false, false] } }
      sel := { Selector.reset with present := true } }
    After (exec (.frameObjected { looks := [true], within := Within.nothing }) s)
      (fun t => t.liu.linePhase == .contend && t.sel.onLine == some { kind := some .present, frame := f } &&
        After (exec (.frameObjected {
            looks := ((frameLevels f).flatMap (List.replicate 12)).drop 1, within := Within.nothing }) t)
          (fun u => (u.sel.lastEnd.map (·.sent)) == some .carried && u.replica.seq == 1)) = true := by decide +kernel

/-- A frame whose start bit is not accepted, with a window driven after its end: the LIU hunts through all of it, and
the frame it takes the window's drive for ends too (R145). -/
theorem test_start_bit_in_a_window :
    After (exec (.duplicate { sender := 3, body := .present } (List.replicate 108 false ++ List.replicate 12 true)
        { edge with startRun := 5 }) (station .synced))
      (fun t => t.liu.linePhase == .hunt && t.sel.lastEnd.isSome && t.ctl.state == .synced) = true := by decide +kernel

/-- STOP with two broken ends waiting keeps the head's request, whose frame is on the line to its end (R129, R170). -/
theorem test_stop_keeps_a_broken_request :
    let e : FrameEnd :=
      { sent := .broken, ending := .earlyBreak, raised := .nothing, clean := false, applied := none }
    After (exec .stop { selected .synced with
        sel := { Selector.reset with brokenEnds :=
          [{ kind := none, frameEnd := e }, { kind := some (.request 1), frameEnd := e }] }
        desk := { Desk.reset with
          requests := [request, { request with ticket := 2, key := 8 }], reservation := 6
          claims := [claim .pending, { claim .pending with key := 8, ticket := 2 }] } })
      (fun t => t.desk.requests == [request] && t.desk.claims == [claim .pending] && t.desk.reservation == 3) = true := by
  decide +kernel

/-- Another member's HEAD with no part withdraws the own HEAD candidate with its count, also where the queue goes on,
and an earlier broken HEAD draws no objection on the later candidate (R76, R127, R135). -/
theorem test_head_count_withdrawn :
    let e : FrameEnd :=
      { sent := .broken, ending := .earlyBreak, raised := .nothing, clean := false, applied := none }
    After (exec (.head 7 { head [9, 8, 0xFF, 0xFF] with
        partCount := 0, queueCount := 2, silences := 0 } edge) { station .synced with
      replica := { pair 0 with joinQueue := [9, 8] }
      sel := { Selector.reset with headCount := 5, brokenEnds := [{ kind := some .head, frameEnd := e }] } })
      (fun t => t.sel.headCount == 0 && t.replica.joinQueue == [8] && t.headStands &&
        After (exec .idleGap t) (fun u => u.sel.headCount == 0 && u.sel.brokenEnds == [] && u.sel.lastEnd == some e))
      = true := by decide +kernel

/-- A copy in which station 7 stands in the roster and, as the active joiner, in the join queue (log entry 30). -/
def bothPlaces : Replica := { pair 0 with
  joinQueue := [7, 9], transfer := some { joiner := 7, sender := 3, total := 2, applied := 0, idle := 0 } }

/-- A LEAVE takes the sender out wherever it stands, the order of the others kept, and abandons the transfer to it
(R58, R68, R94); in a replay the record stands (R92). -/
theorem test_leave_from_both_places :
    After (exec (.leave 7 edge) { station .synced with replica := bothPlaces })
      (fun t => t.replica == { bothPlaces with
        roster := [{ station := 3, silence := 0 }], joinQueue := [9], transfer := none, seq := 1 }) = true ∧
    (applyLeave 3 false 1 7 bothPlaces).replica =
      { bothPlaces with roster := [{ station := 3, silence := 0 }], joinQueue := [9] } := by decide +kernel

/-- An own HEAD broken in its header (R148), where LINE goes on with another station's HEAD that announces no part: the
application withdraws the HEAD candidate, and the frame's end draws no objection on the one that stands after it (R135). -/
theorem test_broken_head_forgotten :
    let f : Frame := {
      sender := 7, body := .head { head [9, 8, 0xFF, 0xFF] with partCount := 0, queueCount := 2, silences := 0 } }
    let s : State := { station .synced with replica := { pair 0 with joinQueue := [9, 8] } }
    After (exec (.frameObjected { looks := (frameLevels f).flatMap (List.replicate 12), within := Within.nothing })
        { s with
          liu := { Liu.reset with linePhase := .contend, transmitting := true }
          sel := { Selector.reset with onLine := some {
            kind := some .head, frame := { sender := 3, body := .head (composeHead s) } } } })
      (fun t => t.replica.joinQueue == [8] && t.headStands && t.sel.brokenEnds.map (·.kind) == [none] &&
        After (exec .idleGap t) (fun u => u.sel.headCount == 0 && u.sel.brokenEnds == [] &&
          (u.sel.lastEnd.map (·.sent)) == some .broken)) = true := by decide +kernel

/-- A broken end that waits at an exit waits on without its candidate, and is handed at the first idle gap (R125, R138;
log entry 10). -/
theorem test_broken_end_outlives_an_exit :
    let e : FrameEnd :=
      { sent := .broken, ending := .earlyBreak, raised := .nothing, clean := false, applied := none }
    let s : State := { station .synced with
      sel := { Selector.reset with brokenEnds := [{ kind := some .head, frameEnd := e }] } }
    (s.exit .streak .idle).sel.brokenEnds = [{ kind := none, frameEnd := e }] ∧
    After (exec .idleGap (s.exit .streak .idle)) (fun t => t.sel.brokenEnds == [] && t.sel.lastEnd == some e) = true := by
  decide +kernel

/-- A request that completes takes its broken ends' claim on it along: none waits for the one that gets its ticket
again (R135, R159, R170). -/
theorem test_completed_request_forgotten :
    let e : FrameEnd :=
      { sent := .broken, ending := .earlyBreak, raised := .nothing, clean := false, applied := none }
    let b : Body := .acquire 9 0x80 5
    After (exec (.acquireFrame 3 9 0x80 5 edge) { station .synced with
        replica := pair 0
        liu := { Liu.reset with linePhase := .contend }
        sel := { Selector.reset with
          onLine := some { kind := some (.request 1), frame := { sender := 3, body := b } }
          brokenEnds := [{ kind := some (.request 1), frameEnd := e }] }
        desk := { Desk.reset with requests := [request], claims := [claim .pending], reservation := 3 } })
      (fun t => t.sel.brokenEnds == [{ kind := none, frameEnd := e }] && t.sel.requestsOnLine == [] &&
        t.desk.requests == []) = true := by decide +kernel

/-- SETUP at the ends of its range (R52). -/
theorem test_setup_range :
    (After (exec (.setup 4) (selected .unconfigured)) (fun t => t.port.reply == [0x08] && t.timer.interval == 20) &&
     After (exec (.setup 5) (selected .unconfigured)) (fun t => t.port.reply == [0x00] && t.timer.interval == 5) &&
     After (exec (.setup 250) (selected .unconfigured)) (fun t => t.port.reply == [0x00] && t.timer.interval == 250) &&
     After (exec (.setup 251) (selected .unconfigured)) (fun t => t.port.reply == [0x08]) &&
     After (exec (.setup 5) (selected .idle)) (fun t => t.port.reply == [0x01])) = true := by decide

/-- The wait flag and the mode of the port ACQUIRE's options byte (section 10.7). -/
theorem test_acquire_options :
    ((After (exec (.acquire 9 0x81 5) (selected .synced)) fun t =>
       t.desk.requests == [{ request with ticket := 0, mode := .shared }] && t.desk.reservation == 3) &&
     (After (exec (.acquire 9 0x02 5) (selected .synced)) fun t => t.port.reply == [0x08, 0x00]) &&
     (After (exec (.acquire 9 0x04 5) (selected .synced)) fun t => t.port.reply == [0x08, 0x00])) = true := by decide

/-! ## Hypotheses of the statements, met: step, frames, port -/

theorem test_hyp_EmptyQueuePassesOneCell :
    let s : State := { station .synced with
      liu := { Liu.reset with releasedRun := 22 }
      timer := { BeatTimer.reset with countdown := .running 129 } }
    s.pending = [] ∧ s.pins.resetLow = false ∧ s.ctl.state ≠ .halted ∧ s.liu.linePhase = .hunt ∧
    s.liu.releasedRun + 1 < s.liu.gapAt ∧ s.timer.window = .stopped ∧ s.timer.countdown = .running 129 ∧
    Config.clkPerCell s.ctl.rate < 129 := by decide

theorem test_hyp_EveryStepKeepsKept : ∃ s t : State, s.Kept ∧ step s = .next t :=
  ⟨_, _, hardwareReset_kept 3 1 true State.reset, rfl⟩

theorem test_hyp_frames_wf :
    [Body.beat, .present, .head (head [9, 1, 2, 3]), .part (part 4 4), .part (part 6 6), .found (head [9, 1, 2, 3]),
     .leave, .release 0, .renew 65535 0, .acquire 1 0xFF 255, .join].all Body.wf = true := by decide

/-- A select period that waits for its command byte, in any station state. -/
theorem test_hyp_selected (st : StationState) : (selected st).Selected := ⟨rfl, rfl⟩

/-- The clauses of START and STOP: each state, and a line that stays released. -/
theorem test_hyp_membership_commands :
    (selected .unconfigured).ctl.state = .unconfigured ∧ (selected .idle).ctl.state = .idle ∧
    (selected .synced).ctl.state = .synced ∧ (selected .joining).ctl.state = .joining ∧
    (selected .loading).ctl.state = .loading ∧
    ({ selected .idle with liu := { Liu.reset with linePhase := .gap } } : State).Selected ∧
    (selected .idle).Listening edge ∧ (7 : Station) ≠ (selected .idle).own := by
  exact ⟨rfl, rfl, rfl, rfl, rfl, ⟨rfl, rfl⟩,
    ⟨rfl, nofun, .inr ⟨rfl, show (12 : Nat) < 24 by decide⟩, by decide, by decide, rfl, rfl⟩, by decide⟩

/-- A member in a select period with a desk. -/
def desked (d : Desk) : State := { selected .synced with desk := d }

theorem test_hyp_AdmissionDecides :
    ((selected .idle).admission .acquire 9 0 1 = .notMember) ∧
    ((selected .synced).admission .acquire 0 0 1 = .badArg) ∧
    ((selected .synced).admission .renew 9 0 0 = .badArg) ∧
    ((desked { Desk.reset with requests := List.replicate 8 request }).admission .release 9 0 0 = .reqFull) ∧
    ((desked { Desk.reset with requests := List.replicate 7 request }).admission .acquire 9 0 1 = .ok) ∧
    ((desked { Desk.reset with claims := [claim .held] }).admission .acquire 9 0 1 = .dupClaim) ∧
    ((desked { Desk.reset with claims := List.replicate 16 (claim .held) }).admission .acquire 8 0 1 =
      .claimsFull) ∧
    ((selected .synced).admission .release 9 0 0 = .noClaim) ∧ ((selected .synced).admission .renew 9 0 1 = .noClaim) ∧
    ((desked { Desk.reset with reservation := 38 }).admission .acquire 9 0 1 = .noRoom) ∧
    ((desked { Desk.reset with reservation := 37 }).admission .acquire 9 0 1 = .ok) ∧
    ((desked { Desk.reset with claims := [claim .held], reservation := 40 }).admission .renew 9 0 1 = .noRoom) ∧
    ((desked { Desk.reset with claims := [claim .held], reservation := 39 }).admission .renew 9 0 1 = .ok) := by
  decide

theorem test_hyp_acceptance :
    (selected .synced).Selected ∧ (selected .synced).admission .acquire 0xFFFF 0x81 255 = .ok ∧
    (selected .synced).desk.requests = [] ∧ ¬ (selected .synced).OpenGap ∧
    (desked { Desk.reset with claims := [claim .pending] }).admission .release 9 0 0 = .ok ∧
    (desked { Desk.reset with claims := [claim .waiting] }).admission .renew 9 0 1 = .ok ∧
    ¬ (desked { Desk.reset with claims := [claim .waiting] }).OpenGap := by
  exact ⟨⟨rfl, rfl⟩, rfl, rfl, (nomatch ·.1), rfl, rfl, (nomatch ·.1)⟩

/-- An acceptance on a line that stands released: a candidate of a lower class, none with the yield flag set, and
none with it clear, where the claim lets the request and where it does not. -/
theorem test_hyp_acceptance_in_gap :
    let g (beat yields : Bool) (c : ClaimState) : State := { desked { Desk.reset with claims := [claim c] } with
      liu := { Liu.reset with linePhase := .gap }, sel := { Selector.reset with beat := beat, yielding := yields } }
    let r := requestRecord .release 9 0 0 0
    (g false false .held).OpenGap ∧ (g true true .pending).OpenGap ∧
    (g true false .held).desk.requests = [] ∧ firstClasses (g true false .held) = some (.beat, .beat) ∧
    firstClasses (g false true .held) = none ∧ (g false true .held).sel.yielding = true ∧
    (g false false .held).admission .acquire 8 0 1 = .ok ∧ (g false false .pending).admission .release 9 0 0 = .ok ∧
    ((g false false .held).desk.accept r).fits r = true ∧ ((g false false .pending).desk.accept r).fits r = false := by
  exact ⟨⟨rfl, rfl⟩, ⟨rfl, rfl⟩, by decide +kernel⟩

theorem test_hyp_TakeOffersTheOldest :
    (selected .halted).desk.notices = [] ∧
    (desked { Desk.reset with notices := [{ kind := .expired, ticket := 1, key := 9, mode := none, seq := some 2 }] }).desk.notices
      = [{ kind := .expired, ticket := 1, key := 9, mode := none, seq := some 2 }] := by decide

theorem test_hyp_QueryAndRosterRead :
    (selected .loading).ctl.state.isMember = false ∧ (selected .synced).ctl.state.isMember = true ∧
    findKey 1 (selected .synced).replica.table = none ∧
    findKey 9 [none, some { key := 9, mode := .shared, holders := [{ station := 3, remaining := 4 }], waiters := [] }] =
      some (1, { key := 9, mode := .shared, holders := [{ station := 3, remaining := 4 }], waiters := [] }) := by
  decide

theorem test_hyp_UnknownCommandIsAnswered :
    (selected .halted).Selected ∧ knownCodes.contains 0x00 = false ∧ knownCodes.contains 0x55 = false :=
  ⟨⟨rfl, rfl⟩, by decide, by decide⟩

/-- A command byte with arguments, without and unknown; an argument byte with one and with none to come. -/
theorem test_hyp_bytes_of_a_command :
    let p (n : Nat) : Port := { Port.reset with phase := .arguments, command := some 0x41, arguments := List.replicate n 0 }
    (selected .synced).pins.resetLow = false ∧ (selected .synced).port.phase = .command ∧
    (p 2).phase = .arguments ∧ (p 2).command = some 0x41 ∧ (p 0).arguments.length + 1 < 4 ∧
    (p 2).arguments.length + 1 < 4 ∧ ¬ (p 3).arguments.length + 1 < 4 ∧ knownCodes.contains 0x40 = false := by decide

/-- An ACQUIRE and a QUERY, one byte after another, end as their rows do (R186, R187). -/
theorem test_bytes_make_a_command :
    let s := selected .synced
    let after (b : Byte) (t : State) : State := t.portByte b
    exec (.byteReceived 5) (after 0x80 (after 9 (after 0 (after 0x41 s)))) = exec (.acquire 9 0x80 5) s ∧
    exec (.byteReceived 9) (after 1 (after 0x53 s)) = exec (.query 0x0109) s := ⟨rfl, rfl⟩

/-- The reply's first, last and no byte, and every phase in which a byte is read out or ignored. -/
theorem test_hyp_BytesDeliverTheReply :
    let p := Port.answering 0x41 [0, 9, 0, 1] [0x00, 0x07]
    p.phase = .turnaround ∧ Port.reset.phase = .deselected ∧
    ({ p with phase := .reply } : Port).reply[0]? = some 0x00 ∧
    ({ p with phase := .reply, clocked := 1 } : Port).reply[1]? = some 0x07 ∧
    ({ p with phase := .drain } : Port).phase = .drain ∧ ({ p with phase := .reply } : Port).sdo = some 0x00 ∧
    ({ p with phase := .reply, clocked := 1 } : Port).sdoBits =
      some [false, false, false, false, false, true, true, true] := by decide

theorem test_hyp_SelectPeriodBeginsAndEnds :
    (station .idle).pins = { resetLow := false, selLow := false } ∧
    (selected .idle).pins = { resetLow := false, selLow := true } ∧ (selected .idle).pins.selLow = true ∧
    (selected .idle).port.phase ≠ .drain := by decide

/-- A complete TAKE and a complete STATUS settled, and a TAKE cut short (R180, R182, R183). -/
theorem test_settle :
    let n : Notice := { kind := .expired, ticket := 1, key := 9, mode := none, seq := some 2 }
    let s := desked { Desk.reset with notices := [n] }
    let p := Port.answering 0x51 [] [0x00]
    ((After (exec .selRise { s with
        attention := { changed := false, readMark := false, offered := true }, port := { p with phase := .drain } })
        fun t => t.desk.notices == [] && !t.attnDriven) &&
     (After (exec .selRise { s with
        attention := { changed := false, readMark := false, offered := true }, port := { p with phase := .reply } })
        fun t => t.desk.notices == [n] && t.attnDriven && !t.attention.offered) &&
     (After (exec .selRise { s with
        attention := { changed := true, readMark := true, offered := false }
        port := { p with phase := .drain, command := some 0x52 } })
        fun t => t.desk.notices == [n] && !t.attention.changed)) = true := by decide

/-! ## Hypotheses met: countdowns and the released run -/

theorem test_hyp_BeatExpirySetsTheBeat :
    let s : State := { station .synced with timer := { BeatTimer.reset with countdown := .running 1 } }
    let g : State := { s with liu := { Liu.reset with linePhase := .gap } }
    s.pins.resetLow = false ∧ s.timer.countdown = .running (0 + 1) ∧ ¬ s.OpenGap ∧ g.OpenGap ∧
    g.timer.countdown = .running (0 + 1) ∧ g.ctl.state.isMember = true := by
  exact ⟨rfl, rfl, (nomatch ·.1), ⟨rfl, rfl⟩, rfl, rfl⟩

theorem test_hyp_FoundWindowExpires :
    let w : BeatTimer := { BeatTimer.reset with window := .running 1 }
    let j : State := { station .joining with timer := w }
    let k : State := { j with ctl := { j.ctl with preGroup := [3] } }
    let l : State := { station .loading with timer := w, xfer := { TransferUnit.reset with attempts := 2 } }
    let m : State := { l with xfer := { TransferUnit.reset with attempts := 3 } }
    j.timer.window = .running 1 ∧ j.ctl.state = .joining ∧ ¬ j.OpenGap ∧ j.own ∉ j.ctl.preGroup ∧
    k.own ∈ k.ctl.preGroup ∧ ¬ k.OpenGap ∧ l.ctl.state = .loading ∧ l.xfer.attempts < 3 ∧ 3 ≤ m.xfer.attempts ∧
    let g (t : State) : State := { t with liu := { Liu.reset with linePhase := .gap } }
    (g j).OpenGap ∧ (g j).own ∉ (g j).ctl.preGroup ∧ (g k).OpenGap ∧ (g k).own ∈ (g k).ctl.preGroup := by
  exact ⟨rfl, rfl, (nomatch ·.1), by decide, by decide, (nomatch ·.1), rfl, by decide, by decide, ⟨rfl, rfl⟩,
    by decide, ⟨rfl, rfl⟩, by decide⟩

/-- A member that is sending, and its PART. -/
def sender : State := { station .synced with
  replica := { pair 0 with joinQueue := [9], transfer := some { joiner := 9, sender := 3, total := 2, applied := 0, idle := 0 } }
  xfer := { TransferUnit.reset with
    image := some [some { key := 1, mode := .exclusive, holders := [{ station := 7, remaining := 1 }], waiters := [] }]
    cursor := some 0 } }

/-- The choice at a gap, a state for each class (R132, R133), and both ends of the rejected run. -/
theorem test_hyp_GapOrEarlyStartBit :
    let b (x y : Bool) : State := { sender with sel := { Selector.reset with beat := x, present := y } }
    let h : State := { station .synced with replica := { pair 0 with joinQueue := [9] } }
    let f : State := { station .joining with sel := { Selector.reset with found := true, join := true } }
    let l (k : LeaveKind) : State := { station (.leaving k) with sel := { Selector.reset with leave := true, beat := true } }
    let q (yields : Bool) (rs : List Request) : State := { station .synced with
      desk := { Desk.reset with requests := rs, claims := [claim .pending] }
      sel := { Selector.reset with yielding := yields } }
    let release : Request := { request with kind := .release, ticket := 2 }
    (station .unconfigured).liu.linePhase = .hunt ∧ (station .idle).sel.brokenEnds = [] ∧
    (b true false).ctl.state.isMember = true ∧ (b true false).sel.beat = true ∧ (b false true).sel.present = true ∧
    (partOffer sender).map (·.index) = some 1 ∧ partOffer h = none ∧ h.headStands = true ∧
    f.ctl.state = .joining ∧ f.sel.found = true ∧ (l .member).ctl.state.isLeaving = true ∧
    ¬ ((l .failed).ctl.state.isMember = true ∧ ((l .failed).sel.beat = true ∨ (l .failed).sel.present = true)) ∧
    partOffer (l .failed) = none ∧ partOffer (q true [request]) = none ∧ (q true [request]).headStands = false ∧
    { (q true [request]).liu with blind := false }.blind = false ∧ (q true [request]).liu.blind = true ∧
    (q false [request]).desk.fits request = true ∧ (q false [release]).desk.fits release = false ∧
    (q false []).desk.requests = [] ∧ (q false [release, { release with ticket := 3 }, request]).desk.requests =
      [release, { release with ticket := 3 }] ++ [request] ∧
    (∀ r ∈ [release, { release with ticket := 3 }], (q false []).desk.fits r = false) ∧
    (q false [release, request]).desk.fits request = true ∧ f.sel.join = true ∧ (station .loading).sel.join = false ∧
    ({ h with liu := { Liu.reset with linePhase := .gap } } : State).liu.linePhase = .gap ∧
    h.ctl.state ≠ .halted ∧ ((1 : Nat) ≤ 1 ∧ 9 ≤ (9 : Nat)) := by decide +kernel

/-- A stretch of LINE that is one look, LINE driven. -/
def oneEdge : RawFrame := { looks := [true], within := Within.nothing }

/-- A LIU that is not blind, at a cell boundary in HUNT or GAP, the run and what the hunt began after as given. -/
def hunting (p : LinePhase) (run : Nat) (quiet : Bool) : State :=
  { station .synced with liu := { Liu.reset with
      linePhase := p, releasedRun := run, blind := false, quiet := quiet, sampler := Sampler.boundary false } }

/-- An edge in a stretch of LINE: a run of 1 and of 9, and a run of 0 after a released cell and with none before it. -/
theorem test_hyp_GapOrEarlyStartBit_edge :
    (∀ p ∈ [LinePhase.hunt, .gap], ∀ x ∈ [(1, false), (9, true), (0, true), (0, false)],
      let s := hunting p x.1 x.2
      s.pins.resetLow = false ∧ s.ctl.state ≠ .halted ∧ (s.liu.linePhase = .hunt ∨ s.liu.linePhase = .gap) ∧
      s.liu.sampler = Sampler.boundary false ∧ s.liu.releasedRun < 10) ∧
    (0 < (hunting .hunt 1 false).liu.releasedRun ∧ (hunting .gap 0 true).liu.quiet = true) ∧
    (hunting .hunt 0 false).liu.releasedRun = 0 ∧ (hunting .hunt 0 false).liu.quiet = false := by decide +kernel

/-- In the first cell after a passed window an edge is a start bit, not accepted, and the LIU hunts blind (R144, R145),
as a stretch of LINE and as a frame. With no released cell before it the blind flag stands. -/
theorem test_edge_after_passed_window :
    (After (exec (.present 7 edge) (station .synced)) fun t =>
      t.liu.releasedRun == 0 && !t.liu.blind &&
      After (exec (.frameObjected oneEdge) t) (fun u => u.liu.blind && u.liu.linePhase == .hunt) &&
      After (exec (.present 7 { edge with startRun := 0 }) t) (fun u => u.liu.blind && u.replica.seq == 1) &&
      After (exec (.frameObjected oneEdge) { t with liu := { t.liu with quiet := false } }) (fun u => !u.liu.blind))
      = true := by decide +kernel

/-- At a station that takes no part, the hunt goes on behind the cell in which the framing error was found (R149): after a
start cell sampled released the next edge is a start bit, after a stop cell driven it is not. A participant drives its
break in between. -/
theorem test_hunt_after_framing_error :
    let ends (ls : List Bool) : RawFrame := { looks := List.replicate 120 false ++ ls, within := Within.nothing }
    (After (exec (.earlyBreak (ends [true])) (station .joining)) (fun t => t.liu.quiet && !t.liu.blind &&
       After (exec (.frameObjected oneEdge) t) (·.liu.blind)) &&
     After (exec (.earlyBreak (ends (List.replicate 120 true))) (station .joining)) (fun t => !t.liu.quiet &&
       After (exec (.frameObjected oneEdge) t) (fun u => !u.liu.blind)) &&
     After (exec (.earlyBreak (ends [true])) (station .synced)) (fun t => !t.liu.quiet && !t.liu.blind)) = true := by
  decide +kernel

/-- At 9 the start bit is not accepted, at 10 it is (R145). -/
theorem test_start_bit_ends :
    ((After (exec (.present 7 { edge with startRun := 9 }) (station .synced)) fun t => t.liu.blind && t.replica.seq == 0) &&
     (After (exec (.present 7 { edge with startRun := 10 }) (station .synced)) fun t => !t.liu.blind && t.replica.seq == 1))
      = true := by decide +kernel

/-- A member in GAP that yields, with this queue and a claim for key 9. -/
def yielding (beat : Bool) (c : ClaimState) (rs : List Request) : State := { station .synced with
  liu := { Liu.reset with linePhase := .gap }
  sel := { Selector.reset with beat := beat, yielding := true }
  desk := { Desk.reset with requests := rs, claims := [claim c] } }

/-- A BEAT; an ACQUIRE; a RELEASE behind a RENEW that is turned away; a RENEW alone, which fits and which does not. -/
theorem test_hyp_YieldRunOffersTheRequest :
    let renew : Request := { request with kind := .renew, ticket := 2 }
    let release : Request := { request with kind := .release, ticket := 3 }
    (∀ b c rs, (yielding b c rs).OpenGap ∧ (yielding b c rs).ctl.state = .synced ∧
      (yielding b c rs).sel.yielding = true) ∧
    firstClasses (yielding true .pending [request]) = some (.beat, .beat) ∧
    firstClasses (yielding false .pending [request]) = none ∧ (yielding false .pending []).desk.fits request = true ∧
    firstClasses (yielding false .waiting [renew, release]) = none ∧
    (yielding false .waiting []).desk.fits renew = false ∧ (yielding false .waiting []).desk.fits release = true ∧
    (yielding false .held []).desk.fits renew = true ∧ (yielding false .held []).desk.requests = [] :=
  ⟨fun _ _ _ => ⟨⟨rfl, rfl⟩, rfl, rfl⟩, by decide +kernel⟩

/-- A RENEW at the head whose claim still waits is turned away, and the RELEASE behind it goes out (R136, R165). -/
theorem test_yield_run_turns_away :
    let renew : Request := { request with kind := .renew, ticket := 2 }
    let release : Request := { request with kind := .release, ticket := 3 }
    After (exec .yieldRun (yielding false .waiting [renew, release])) (fun t =>
      t.desk.requests == [release] && t.desk.notices.map (·.kind) == [.done .notHeld] && !t.sel.yielding &&
      t.sel.onLine == some { kind := some (.request 3), frame := { sender := 3, body := .release 9 } }) = true := by
  decide +kernel

/-! ## Hypotheses met: frames at a member -/

/-- Station 3 hears station 7, in any state but HALTED and with any replicated state and load. -/
theorem test_hyp_listening (st : StationState) (h : st ≠ .halted) (r : Replica) (x : TransferUnit) :
    State.Listening { station st with replica := r, xfer := x } edge :=
  ⟨rfl, h, .inr ⟨rfl, show (12 : Nat) < 24 by decide⟩, by decide, by decide, rfl, rfl⟩

/-- The same in GAP, at both ends of the run: 24 with the yield flag clear, 23 with it set. -/
theorem test_hyp_listening_in_gap (st : StationState) (h : st ≠ .halted) :
    State.Listening { station st with liu := { Liu.reset with linePhase := .gap } } { edge with startRun := 24 } ∧
    State.Listening { station st with liu := { Liu.reset with linePhase := .gap }
                                      sel := { Selector.reset with yielding := true } }
      { edge with startRun := 23 } :=
  ⟨⟨rfl, h, .inl ⟨rfl, .inr rfl⟩, by decide, by decide, rfl, rfl⟩,
   ⟨rfl, h, .inl ⟨rfl, .inl (show (23 : Nat) < 24 by decide)⟩, by decide, by decide, rfl, rfl⟩⟩

/-- In step with the line, a start bit after 12 cells comes with the own header: the JOIN is offered at the
gap and lost to the BEAT; after 11 cells it is offered in step (R143, R145, R147). -/
theorem test_contend_at_gap :
    let s : State := { station .joining with
      liu := { Liu.reset with blind := false }, sel := { Selector.reset with join := true } }
    (After (exec (.beat 7 edge) s) fun t => (t.sel.lastEnd.map (·.sent)) == some .lost && t.ctl.groupSeen) = true ∧
    (After (exec (.beat 7 { edge with startRun := 11 }) s) fun t => (t.sel.lastEnd.map (·.sent)) == some .lost) = true ∧
    (After (exec (.beat 7 { edge with startRun := 23 }) (station .joining)) fun t =>
      (t.sel.lastEnd.map (·.sent)) == some .none) = true := by decide

/-- A member hears station `p`. -/
theorem test_hyp_memberHears (p : Station) (h : p ≠ 3) (r : Replica) (d : Desk) :
    State.MemberHears { station .synced with replica := r, desk := d } edge p :=
  ⟨⟨rfl, nofun, .inr ⟨rfl, show (12 : Nat) < 24 by decide⟩, by decide, by decide, rfl, rfl⟩, rfl, h⟩

/-- ACQUIRE, RELEASE and RENEW frames, and a PRESENT. -/
theorem test_hyp_requests_at_a_member :
    State.MemberHears { station .synced with replica := pair 0, desk := Desk.reset } edge 7 ∧ (65535 : Key) ≠ 0 ∧ (1 : Byte) ≠ 0 ∧ modeOf (modeBits 0x81) = some .shared ∧ unusedClear 0x81 = true ∧
    modeOf (modeBits 0x00) = some .exclusive ∧ unusedClear 0x00 = true :=
  ⟨test_hyp_memberHears 7 (by decide) _ _, by decide, by decide, by decide, by decide, by decide, by decide⟩

theorem test_hyp_JoinAtAMember :
    let s (q : List Station) : State := { station .synced with replica := { pair 0 with joinQueue := q }, desk := Desk.reset }
    (s [1, 2, 4]).MemberHears edge 9 ∧ (s [1, 2, 4, 9]).MemberHears edge 9 ∧
    inRoster 9 (s [1, 2, 4]).replica.roster = false ∧ (9 : Station) ∈ (s [1, 2, 4, 9]).replica.joinQueue ∧
    (s [1, 2, 4]).replica.joinQueue.length < 4 :=
  ⟨test_hyp_memberHears 9 (by decide) _ _, test_hyp_memberHears 9 (by decide) _ _, by decide, by decide, by decide⟩

/-- A roster member, one that is queued as well and the active joiner (log entry 30), and a station in neither. -/
theorem test_hyp_LeaveAtAMember :
    let s : State := { station .synced with replica := pair 0, desk := Desk.reset }
    let u : State := { station .synced with replica := bothPlaces, desk := Desk.reset }
    s.MemberHears edge 7 ∧ inRoster 7 s.replica.roster = true ∧ u.MemberHears edge 7 ∧
    inRoster 7 u.replica.roster = true ∧ 7 ∈ u.replica.joinQueue ∧ u.replica.transfer.map (·.joiner) = some 7 ∧
    s.MemberHears edge 9 ∧ inRoster 9 s.replica.roster = false :=
  ⟨test_hyp_memberHears 7 (by decide) _ _, by decide, test_hyp_memberHears 7 (by decide) _ _, by decide, by decide,
    by decide, test_hyp_memberHears 9 (by decide) _ _, by decide⟩

/-- A HEAD with no part, and one with 64; the own HEAD. -/
theorem test_hyp_HeadAtAMember :
    let s : State := { station .synced with replica := { pair 0 with joinQueue := [9] }, desk := Desk.reset }
    let o : State := { s with
      liu := { Liu.reset with linePhase := .contend }
      sel := { Selector.reset with onLine := some { kind := some .head, frame := { sender := 3, body := .head (composeHead s) } } } }
    s.MemberHears edge 7 ∧
    malformed s { sender := 7, body := .head { head [9, 0xFF, 0xFF, 0xFF] with partCount := 0 } } = false ∧
    malformed s { sender := 7, body := .head { head [9, 0xFF, 0xFF, 0xFF] with partCount := 64 } } = false ∧
    malformed o { sender := o.own, body := .head (composeHead s) } = false ∧
    o.Carries edge (.head (composeHead s)) :=
  ⟨test_hyp_memberHears 7 (by decide) _ _, by decide, by decide, by decide +kernel, rfl, rfl, by decide, rfl, rfl⟩

/-- A first of one and a first of two parts; the own first of two. -/
theorem test_hyp_PartAtAMember :
    let x : Transfer := { joiner := 9, sender := 7, total := 1, applied := 0, idle := 3 }
    let s (x : Transfer) : State := { station .synced with
      replica := { pair 0 with joinQueue := [9], transfer := some x }, desk := Desk.reset }
    let b := composePart 1 0 { key := 1, mode := .exclusive, holders := [{ station := 7, remaining := 1 }], waiters := [] }
    let o : State := { sender with
      liu := { Liu.reset with linePhase := .contend }
      sel := { Selector.reset with onLine := some { kind := some (.part 1), frame := { sender := 3, body := .part b } } } }
    (s x).MemberHears edge 7 ∧ (s { x with total := 2 }).MemberHears edge 7 ∧
    malformed (s x) { sender := 7, body := .part (part 1 1) } = false ∧ x.applied + 1 = x.total ∧
    malformed (s { x with total := 2 }) { sender := 7, body := .part (part 1 1) } = false ∧
    malformed o { sender := o.own, body := .part b } = false ∧ o.Carries edge (.part b) ∧
    o.xfer.image.isSome = true ∧ o.xfer.cursor = some 0 :=
  ⟨test_hyp_memberHears 7 (by decide) _ _, test_hyp_memberHears 7 (by decide) _ _, by decide, rfl, by decide,
    by decide +kernel, ⟨rfl, rfl, by decide, rfl, rfl⟩, rfl, rfl⟩

/-- The own count at 6 does not lapse, at 7 it does. -/
theorem test_hyp_beats :
    let s (n : Nat) : State := { station .synced with replica := pair n, desk := Desk.reset }
    (s 6).MemberHears edge 7 ∧ (s 7).MemberHears edge 7 ∧
    let q := (s 6).replica.seq + 1
    let r := { (s 6).replica with seq := q, roster := setSilence 7 0 (s 6).replica.roster }
    (presenceStage (s 6).own true q 7 r.roster { r with table := (countDown (s 6).own q r.table).1 }).ownGone = false ∧
    ∃ m ∈ (s 7).replica.roster, m.station = (s 7).own ∧ 7 ≤ m.silence := by
  exact ⟨test_hyp_memberHears 7 (by decide) _ _, test_hyp_memberHears 7 (by decide) _ _, by decide,
    ⟨_, List.mem_cons_self, rfl, by decide⟩⟩

/-- A holder with one beat left beside one with two; one with two alone; a roster with the sender at 7, one at 7 and
one at 6. -/
theorem test_hyp_stages :
    let one : Holder := { station := 5, remaining := 1 }
    let two : Holder := { station := 6, remaining := 2 }
    let lapsed (l : List Holder) : List Holder :=
      (l.map fun h => { h with remaining := h.remaining - 1 }).filter fun h => decide (h.remaining = 0)
    lapsed [one, two] ≠ [] ∧ lapsed [two] = [] ∧
    RosterOrdered [{ station := 1, silence := 7 }, { station := 3, silence := 7 }, { station := 7, silence := 6 }] := by
  decide

theorem test_hyp_OwnLeaseExpires :
    let s : State := { station .synced with
      replica := { pair 0 with
        roster := [{ station := 1, silence := 0 }, { station := 3, silence := 0 }]
        table := some { key := 9, mode := .exclusive, holders := [{ station := 3, remaining := 1 }], waiters := [] } ::
          List.replicate 63 none }
      desk := { Desk.reset with claims := [claim .held], reservation := 1 } }
    s.MemberHears edge 1 ∧
    s.replica.roster = [{ station := 1, silence := 0 }, { station := s.own, silence := 0 }] ∧
    s.replica.table = some { key := 9, mode := .exclusive, holders := [{ station := s.own, remaining := 1 }],
                             waiters := [] } :: List.replicate 63 none ∧
    s.desk.claims = [{ key := 9, ticket := 1, state := .held, mode := .exclusive }] :=
  ⟨test_hyp_memberHears 1 (by decide) _ _, rfl, rfl, rfl⟩

/-- The own waiter of either mode behind a lease that ends in this BEAT. -/
theorem test_hyp_OwnWaiterIsGranted (mode : Mode) :
    let w : Waiter := { station := 3, wanted := mode, term := 255 }
    let s : State := { station .synced with
      replica := { pair 0 with
        roster := [{ station := 1, silence := 0 }, { station := 3, silence := 0 }]
        table := some { key := 9, mode := .exclusive, holders := [{ station := 1, remaining := 1 }], waiters := [w] } ::
          List.replicate 63 none }
      desk := { Desk.reset with claims := [{ claim .waiting with mode := mode }], reservation := 2 } }
    s.MemberHears edge 1 ∧
    s.replica.roster = [{ station := 1, silence := 0 }, { station := s.own, silence := 0 }] ∧
    s.replica.table = some { key := 9, mode := .exclusive, holders := [{ station := 1, remaining := 1 }],
                             waiters := [{ station := s.own, wanted := mode, term := 255 }] } :: List.replicate 63 none ∧
    s.desk.claims = [{ key := 9, ticket := 1, state := .waiting, mode := mode }] :=
  ⟨test_hyp_memberHears 1 (by decide) _ _, rfl, rfl, rfl⟩

theorem test_hyp_FourthIdleBeatAbandons :
    let x : Transfer := { joiner := 9, sender := 7, total := 2, applied := 1, idle := 3 }
    let r := { pair 6 with transfer := some x }
    State.MemberHears { station .synced with replica := r, desk := Desk.reset } edge 7 ∧
    r.transfer = some x ∧ x.idle = 3 ∧ ∀ m ∈ r.roster, m.silence < 7 :=
  ⟨test_hyp_memberHears 7 (by decide) _ _, rfl, rfl, by decide⟩

/-! ## Hypotheses met: own frames, joining and loading -/

/-- Station 3 with a frame of its own on the line. -/
def sending (st : StationState) (k : CandKind) (b : Body) : State :=
  { station st with
    liu := { Liu.reset with linePhase := .contend, transmitting := true }
    sel := { Selector.reset with onLine := some { kind := some k, frame := { sender := 3, body := b } } }
    replica := pair 0 }

/-- The own frame is carried, with two noisy cells. -/
theorem test_hyp_carries (st : StationState) (k : CandKind) (b : Body) : (sending st k b).Carries edge b :=
  ⟨rfl, rfl, by decide, rfl, rfl⟩

/-- The own ACQUIRE, RELEASE and RENEW; an outcome of each kind that keeps the claim and one that does not. -/
theorem test_hyp_OwnRequestCompletes :
    let s (b : Body) : State := { sending .synced (.request 1) b with
      desk := { Desk.reset with requests := [request], claims := [claim .pending], reservation := 3 } }
    (∀ b, (s b).Carries edge b ∧ (s b).desk.requests = [request]) ∧
    (9 : Key) ≠ 0 ∧ (5 : Byte) ≠ 0 ∧ modeOf (modeBits 0x80) = some .exclusive ∧ unusedClear 0x80 = true ∧
    (completes .acquire .granted && completes .acquire .queued && completes .acquire .aborted &&
      completes .release .released && completes .release .notHeld && completes .renew .lineRefused) = true ∧
    ({ Desk.reset with claims := [claim .waiting] } : Desk).claimFor request.key = some (claim .waiting) ∧
    (sending .synced (.request 1) .beat).ctl.state.isMember = true ∧
    (sending (.leaving .member) (.request 1) .beat).ctl.state.isMember = true :=
  ⟨fun _ => ⟨⟨rfl, rfl, by decide, rfl, rfl⟩, rfl⟩, by decide, by decide, by decide, by decide, by decide, rfl, rfl, rfl⟩

/-- The own PRESENT, and the own BEAT with the other member's count at 7. -/
theorem test_hyp_own_present_and_beat :
    let s := sending .synced .beat .beat
    let q := s.replica.seq + 1
    let r := { s.replica with seq := q, roster := setSilence 3 0 s.replica.roster }
    (sending .synced .present .present).Carries edge .present ∧
    (sending .synced .present .present).ctl.state.isMember = true ∧ s.Carries edge .beat ∧
    (presenceStage s.own true q 3 r.roster { r with table := (countDown s.own q r.table).1 }).ownGone = false :=
  ⟨test_hyp_carries .., rfl, test_hyp_carries .., by decide⟩

/-- A PRESENT of a lower header, just below an own PRESENT's and far below a request's, in SYNCED and where a STOP has met
the request. -/
theorem test_hyp_lost_header :
    let s (st : StationState) : State := { sending st (.request 1) (.acquire 9 0x80 5) with
      desk := { Desk.reset with requests := [request] } }
    (sending .synced .present .present).Loses edge { sender := 2, body := .present } (some .present) ∧
    (∀ st, (s st).Loses edge { sender := 7, body := .present } (some (.request request.ticket)) ∧
      (s st).desk.requests = [request]) ∧
    (s (.leaving .member)).ctl.state = .leaving .member ∧ (s (.leaving .member)).ctl.state.isMember = true :=
  ⟨⟨rfl, rfl, by decide, rfl, by decide, _, rfl, by decide⟩,
   fun _ => ⟨⟨rfl, rfl, by decide, rfl, show (7 : Station) ≠ 3 by decide, _, rfl,
     show headerByte { sender := 7, body := .present } < headerByte { sender := 3, body := .acquire 9 0x80 5 } by decide⟩,
     rfl⟩, rfl, rfl⟩

/-- The own LEAVE of each kind. -/
theorem test_hyp_OwnLeaveExits :
    let s (k : LeaveKind) := sending (.leaving k) .leave .leave
    (∀ k, (s k).ctl.state = .leaving k ∧ (s k).Carries edge .leave) ∧
    inRoster (s .member).own (s .member).replica.roster = true :=
  ⟨fun _ => ⟨rfl, test_hyp_carries ..⟩, by decide⟩

/-- In LEAVING of kind WITHDRAWN and FAILED: another station's PART and BEAT, and the own JOIN still on the line. -/
theorem test_hyp_frames_while_withdrawn :
    (∀ k, (station (.leaving k)).Listening edge) ∧ (7 : Station) ≠ (station (.leaving .failed)).own ∧
    (Instr.part 7 (part 1 1) edge) ∈ frameCommands 7 edge (.part (part 1 1)) ∧
    (Instr.lapse 7 edge) ∈ frameCommands 7 edge .beat ∧
    malformed (station (.leaving .withdrawn)) { sender := 7, body := .part (part 1 1) } = false ∧
    malformed (station (.leaving .failed)) { sender := 7, body := .beat } = false ∧
    (sending (.leaving .withdrawn) .join .join).Carries edge .join ∧
    malformed (sending (.leaving .withdrawn) .join .join) { sender := 3, body := .join } = false ∧
    Body.join ≠ .leave ∧ (Instr.join 3 edge) ∈ frameCommands 3 edge .join :=
  ⟨fun k => test_hyp_listening (.leaving k) nofun Replica.empty TransferUnit.reset, by decide, by decide, by decide, by decide,
    by decide, test_hyp_carries .., by decide, by decide, by decide⟩

/-- An ordered roster, a member that is there and one that is not, and a transfer whose sender lapses. -/
theorem test_hyp_roster :
    let x : Transfer := { joiner := 9, sender := 3, total := 1, applied := 0, idle := 0 }
    let r : Replica := { pair 7 with transfer := some x }
    RosterOrdered r.roster ∧ (∃ m ∈ r.roster, m.station = 7) ∧ inRoster 8 r.roster = false ∧
    (presenceStage 3 true 1 7 r.roster r).replica.transfer = none ∧
    (presenceStage 3 false 1 7 r.roster r).replica.transfer = some x := by decide

/-- A FOUND of station `p`, listing station 9. -/
def foundBy (p : Byte) (set : BitVec 32) : HeadBody :=
  { joiner := p, seq := 0, partCount := 0, rosterSet := set, silences := 0, queueCount := 1
    entries := [9, 0xFF, 0xFF, 0xFF] }

/-- The own FOUND; another station's, and a HEAD that names station 9, where station 3's queue entry is and is not
among them. -/
theorem test_hyp_FoundInJoining :
    (sending .joining .found (.found (foundBy 3 0x08))).Carries edge (.found (foundBy 3 0x08)) ∧
    foundMalformed 3 (foundBy 3 0x08) = false ∧ foundMalformed 7 (foundBy 7 0x80) = false ∧
    (station .joining).Listening edge ∧ (7 : Station) ≠ (station .joining).own ∧
    headMalformed 7 (head [9, 0xFF, 0xFF, 0xFF]) = false ∧
    (head [9, 0xFF, 0xFF, 0xFF]).joiner.toNat ≠ (station .joining).own.val ∧
    (carriedQueue (head [9, 0xFF, 0xFF, 0xFF])).contains 3 = false ∧
    (carriedQueue { head [9, 3, 0xFF, 0xFF] with queueCount := 2 }).contains 3 = true :=
  ⟨test_hyp_carries .., by decide, by decide, test_hyp_listening .joining (by decide) Replica.empty TransferUnit.reset,
    by decide, by decide, by decide, by decide, by decide⟩

/-- A group frame, a PART among them; a JOIN with room for one more, with its sender in the list, and after a group was
seen; the own. -/
theorem test_hyp_GroupFrameInJoining :
    let j (seen : Bool) (l : List Station) : State :=
      { station .joining with ctl := { (station .joining).ctl with groupSeen := seen, preGroup := l } }
    (station .joining).Listening edge ∧ (station .joining).ctl.state = .joining ∧ (7 : Station) ≠ (station .joining).own ∧
    (j false [1, 2, 4]).ctl.preGroup.length < 4 ∧ (7 : Station) ∈ (j false [1, 2, 4, 7]).ctl.preGroup ∧
    (j true []).ctl.groupSeen = true ∧ (sending .joining .join .join).Carries edge .join ∧
    (Instr.part 7 (part 1 1) edge) ∈ frameCommands 7 edge (.part (part 1 1)) ∧ partMalformed (part 1 1) = false ∧
    (Instr.expired 7 edge) ∈ frameCommands 7 edge .beat ∧
    (Instr.renewFrame 7 9 1 edge) ∈ frameCommands 7 edge (.renew 9 1) :=
  ⟨test_hyp_listening .joining (by decide) Replica.empty TransferUnit.reset, rfl, by decide, by decide, by decide, rfl,
    test_hyp_carries .., by decide, by decide, by decide, by decide⟩

theorem test_hyp_HeadBeginsTheLoad :
    let b (n : Byte) := { head [3, 0xFF, 0xFF, 0xFF] with joiner := 3, rosterSet := 0x80, partCount := n }
    (station .joining).Listening edge ∧ (7 : Station) ≠ (station .joining).own ∧ headMalformed 7 (b 0) = false ∧
    headMalformed 7 (b 1) = false ∧ (b 0).joiner.toNat = (station .joining).own.val ∧ (b 1).partCount ≠ 0 :=
  ⟨test_hyp_listening .joining (by decide) Replica.empty TransferUnit.reset, by decide, by decide, by decide, by decide,
    by decide⟩

/-- A transfer from station 7 to station 3 with two parts to come. -/
def toOwn : Transfer := { joiner := 3, sender := 7, total := 2, applied := 0, idle := 0 }

/-- Station 3 loading. -/
def loading (journal : List JournalRecord) (watch attempts : Nat) : State :=
  { station .loading with
    replica := { pair 0 with transfer := some toOwn }
    xfer := { TransferUnit.reset with
      journal := journal, phase := some .recording, watch := watch, attempts := attempts } }

/-- A record of a PRESENT. -/
def present (n : Nat) : List JournalRecord :=
  List.replicate n { frame := { sender := 8, body := .present }, seq := 5 }

theorem test_hyp_PartIsInstalled :
    let s := loading [] 0 1
    s.Listening edge ∧ s.ctl.state = .loading ∧ toOwn.sender ≠ s.own ∧ s.xfer.phase = some .recording ∧
    s.replica.transfer = some toOwn ∧ malformed s { sender := toOwn.sender, body := .part (part 1 1) } = false ∧
    toOwn.applied + 1 ≠ toOwn.total ∧
    let x := { toOwn with total := 1 }
    let u : State := { s with replica := { s.replica with transfer := some x } }
    u.Listening edge ∧ malformed u { sender := x.sender, body := .part (part 1 1) } = false ∧ x.applied + 1 = x.total :=
  ⟨test_hyp_listening .loading (by decide) _ _, rfl, by decide, rfl, rfl, by decide, by decide,
    test_hyp_listening .loading (by decide) _ _, by decide, rfl⟩

/-- A journal with a record of each body that is recorded, of a member and of a stranger; after it, with one number
missing and with none, over the wrap from 65535. -/
theorem test_hyp_replay :
    let r (p : Station) (b : Body) : JournalRecord := { frame := { sender := p, body := b }, seq := 5 }
    let held (last : Seq) : Option Nat :=
      silenceOf 7 (replay 3 7 last (present 1) { pair 0 with roster := [{ station := 7, silence := 4 }] }).1.roster
    (r 7 .beat).frame.body = .beat ∧ (∃ m ∈ (pair 0).roster, m.station = (r 7 .leave).frame.sender) ∧
    (∀ m ∈ (pair 0).roster, m.station ≠ (r 8 .leave).frame.sender) ∧
    (r 7 (.acquire 9 0x81 1)).frame.body = .acquire 9 0x81 1 ∧ modeOf (modeBits 0x81) = some .shared ∧
    (0 : Seq) = 65535 + 1 ∧ held 5 = some 4 ∧ held 4 = some 4 ∧ held 3 = some 0 ∧ held 6 = some 0 := by decide +kernel

/-- The 32nd record is taken, of the sender and of another station; a BEAT at the last watch and idle count short of
an abandonment. -/
theorem test_hyp_LiveFrameIsRecorded :
    let s := loading (present 31) 6 1
    let x : Transfer := { toOwn with idle := 2 }
    let u : State := { s with replica := { pair 0 with transfer := some x } }
    s.Listening edge ∧ s.xfer.journal.length < 32 ∧ malformed s { sender := 7, body := .join } = false ∧
    malformed s { sender := 8, body := .leave } = false ∧ (8 : Station) ≠ toOwn.sender ∧
    malformed s { sender := 7, body := .acquire 9 0x81 1 } = false ∧
    u.Listening edge ∧ u.replica.transfer = some x ∧ x.idle < 3 ∧ u.xfer.watch < 7 ∧ (8 : Station) ≠ u.own :=
  ⟨test_hyp_listening .loading (by decide) _ _, by decide, by decide, by decide, by decide, by decide,
    test_hyp_listening .loading (by decide) _ _, rfl, by decide, by decide, by decide⟩

/-- The load abandoned from each side: the watch at 7, with a full journal and without; the idle beats at 3; the
sender's LEAVE; a FOUND that lists the station and one that does not; the own restart JOIN; on the second and on the
third attempt. -/
theorem test_hyp_LoadIsAbandoned :
    let s (n : Nat) := loading (present 32) 7 n
    let x : Transfer := { toOwn with idle := 3 }
    let u : State := { loading [] 0 3 with replica := { pair 0 with transfer := some x } }
    let o : State := { loading [] 0 2 with
      liu := { Liu.reset with linePhase := .contend }
      sel := { Selector.reset with onLine := some { kind := some .join, frame := { sender := 3, body := .join } } } }
    (s 2).Listening edge ∧ (s 2).ctl.state = .loading ∧ (s 2).replica.transfer = some toOwn ∧ (8 : Station) ≠ (s 2).own ∧
    (8 : Station) ≠ toOwn.sender ∧ 7 ≤ (s 2).xfer.watch ∧ (s 2).xfer.attempts < 3 ∧ 3 ≤ (s 3).xfer.attempts ∧
    32 ≤ (s 2).xfer.journal.length ∧ u.Listening edge ∧ u.replica.transfer = some x ∧ 3 ≤ x.idle ∧
    toOwn.sender ≠ (s 2).own ∧ foundMalformed 7 (foundBy 7 0x80) = false ∧
    (carriedQueue (foundBy 7 0x80)).contains 3 = false ∧
    foundMalformed 7 { foundBy 7 0x80 with entries := [3, 0xFF, 0xFF, 0xFF] } = false ∧
    (carriedQueue { foundBy 7 0x80 with entries := [3, 0xFF, 0xFF, 0xFF] }).contains 3 = true ∧
    o.Carries edge .join ∧ o.ctl.state = .loading ∧ o.replica.transfer = some toOwn :=
  ⟨test_hyp_listening .loading (by decide) _ _, rfl, rfl, by decide, by decide, by decide, by decide, by decide,
    by decide, test_hyp_listening .loading (by decide) _ _, rfl, by decide, by decide, by decide, by decide, by decide,
    by decide, ⟨rfl, rfl, by decide, rfl, rfl⟩, rfl, rfl⟩

/-- A frame of each class that is recorded, from the sender and from another station. -/
theorem test_hyp_SpoilDiscardsTheJournal :
    let s := loading (present 32) 6 1
    s.Listening edge ∧ (7 : Station) ≠ s.own ∧ (8 : Station) ≠ toOwn.sender ∧ s.replica.transfer = some toOwn ∧
    s.xfer.journal.length = 32 ∧ toOwn.idle < 3 ∧ s.xfer.watch < 7 ∧
    [Body.beat, .present, .join, .leave, .release 9, .renew 9 1, .acquire 9 0x81 1].all
      (fun b => !malformed s { sender := 8, body := b }) = true :=
  ⟨test_hyp_listening .loading (by decide) _ _, by decide, by decide, rfl, by decide, by decide, by decide, by decide⟩

/-- The next occupied slot at the index given, above it, and none; entries of a queue in their range. -/
theorem test_hyp_nextOccupied :
    nextOccupied 1 [none, some (slot 1 0), none] = some 1 ∧ nextOccupied 0 [none, some (slot 1 0)] = some 1 ∧
    nextOccupied 2 [none, some (slot 1 0), none] = none ∧
    ∀ e ∈ (foundBy 7 0x80).entries.take (foundBy 7 0x80).queueCount.toNat, e.toNat ≤ 31 := by decide

/-- A look that is an edge at a boundary, within a cell and at its last phase; looks that are none, before the samples,
in them and at phase 11. -/
theorem test_hyp_looks :
    let m (phase : Nat) (seen : Bool) : Sampler := { phase := phase, seen := seen, edge := false, samples := [] }
    ((look (m 0 false) true).2 = none ∧ (look (m 6 false) true).2.isSome = true ∧
      (look (m 11 false) true).2.isSome = true) ∧
    (look (m 4 true) true).1.samples = [] ∧ (look (m 5 true) true).1.samples = [true] ∧
    (look (m 7 false) false).1.samples = [false] ∧ (look (m 8 true) false).1.samples = [] ∧
    (look (m 10 true) true).2 = none ∧ (look (m 11 true) true).2.isSome = true := by decide

/-- The own PRESENT carried; its header lost at the last data cell, and broken at its start bit and its stop bit. -/
theorem test_hyp_contest :
    let o : Offer := { kind := some .present, frame := { sender := 3, body := .present } }
    let sent := frameLevels o.frame
    sentOf (some o) sent = .carried ∧ sent[8]? = some false ∧ sentOf (some o) (sent.set 8 true) = .lost ∧
    sentOf (some o) (sent.set 0 false) = .broken ∧ sentOf (some o) (sent.set 9 true) = .broken ∧
    sent[1]? = some true ∧ sentOf (some o) (sent.set 1 false) = .broken := by decide +kernel

/-- A join queue to compose from, an image slot at the cursor, a request of each kind, and claims that let it
through or not. -/
theorem test_hyp_composed :
    let s : State := { station .synced with replica := { pair 0 with joinQueue := [9] } }
    s.replica.joinQueue = [9] ∧ s.headStands = true ∧ (partOffer sender).isSome = true ∧
    (firstClasses sender).isSome = true ∧ firstClasses (station .synced) = none ∧
    let d (st : ClaimState) : Desk := { Desk.reset with claims := [claim st] }
    let r (k : RequestKind) : Request := { request with kind := k }
    (d .pending).fits (r .release) = false ∧ (d .waiting).fits (r .release) = true ∧ (d .waiting).fits (r .renew) = false ∧
    (d .held).fits (r .renew) = true ∧ Desk.reset.claimFor 9 = none := by decide +kernel

/-! ## Hypotheses met: objections and exits -/

/-- What station `s` hears in a stretch of LINE. -/
def heard (s : State) (raw : RawFrame) : Reception :=
  hearRaw (s.frameBegins raw.looks).1.liu.sampler ((s.frameBegins raw.looks).2.getD [])

/-- A member with a streak count. -/
def streaked (n : Nat) : State := { station .synced with sel := { Selector.reset with streak := n } }

/-- The hunt up to the start bit moves the LIU alone. -/
def BeginsFrame (s : State) (raw : RawFrame) : Prop :=
  s.frameBegins raw.looks =
    ({ s with liu := (s.frameBegins raw.looks).1.liu }, some ((s.frameBegins raw.looks).2.getD []))

/-- A station hears a stretch of LINE in which the hunt finds a start bit and nothing else. -/
theorem hears {s : State} {levels window : List Bool} (h1 : s.pins.resetLow = false) (h2 : s.ctl.state ≠ .halted)
    (h3 : s.sel.onLine = none) (h : BeginsFrame s (raw levels window)) :
    s.Hears (raw levels window) (heard s (raw levels window)) :=
  ⟨h1, h2, rfl, h3, _, _, h, rfl⟩

/-- The levels of a PRESENT of station 7; the same with a wrong check character; and phase by phase with every
driven cell noisy. -/
def presentLevels : List Bool := frameLevels { sender := 7, body := .present }
def spoiltLevels : List Bool := presentLevels.set 12 (!presentLevels.getD 12 false)
def noisyLooks : List Bool :=
  presentLevels.flatMap fun l => if l then List.replicate 7 true ++ List.replicate 5 false else List.replicate 12 false

/-- A wrong check character; noisy cells; malformed content; a frame the member refuses; and one whose window
another station drives. -/
theorem test_hyp_ObjectedFrameIsNotApplied :
    let s := streaked 2
    let f : State := { s with replica := { Replica.empty with joinQueue := [1, 2, 4, 8] } }
    let k := raw spoiltLevels []
    let n := raw [] noisyLooks
    let m := raw (frameLevels { sender := 7, body := .release 0 }) []
    let j := raw (frameLevels { sender := 7, body := .join }) []
    let a := raw presentLevels driven
    (s.Hears k (heard s k) ∧ (heard s k).taken = .complete ∧ (heard s k).frame.sender ≠ s.own ∧
      (heard s k).matched = false) ∧
    (s.Hears n (heard s n) ∧ (heard s n).taken = .complete ∧ (heard s n).frame.sender ≠ s.own ∧
      2 < (heard s n).noisy) ∧
    (s.Hears m (heard s m) ∧ (heard s m).taken = .complete ∧ (heard s m).frame.sender ≠ s.own ∧
      (heard s m).clean = true ∧ malformed s (heard s m).frame = true) ∧
    (f.Hears j (heard f j) ∧ (heard f j).taken = .complete ∧ (heard f j).frame.sender ≠ f.own ∧
      (heard f j).clean = true ∧ malformed f (heard f j).frame = false ∧ refuses f (heard f j).frame = true) ∧
    (s.Hears a (heard s a) ∧ (heard s a).taken = .complete ∧ (heard s a).frame.sender ≠ s.own ∧
      (heard s a).clean = true ∧ malformed s (heard s a).frame = false ∧ refuses s (heard s a).frame = false ∧
      ∃ c ∈ (heard s a).window, cellLevel c = true) :=
  ⟨⟨hears rfl nofun rfl (by unfold BeginsFrame; decide +kernel), by decide +kernel⟩,
   ⟨hears rfl nofun rfl (by unfold BeginsFrame; decide +kernel), by decide +kernel⟩,
   ⟨hears rfl nofun rfl (by unfold BeginsFrame; decide +kernel), by decide +kernel⟩,
   ⟨hears rfl nofun rfl (by unfold BeginsFrame; decide +kernel), by decide +kernel⟩,
   ⟨hears rfl nofun rfl (by unfold BeginsFrame; decide +kernel), by decide +kernel⟩⟩

/-- What a state makes of a frame's content: malformed, refused. -/
def judged (s : State) (p : Station) (b : Body) : Bool × Bool :=
  (malformed s { sender := p, body := b }, refuses s { sender := p, body := b })

/-- A key and a term of 0 and of 1, mode code 1 and 2, an unused position; who makes those tests. -/
theorem test_hyp_malformed_requests :
    let m (b : Body) : Bool := (judged (station .loading) 7 b).1
    [Body.release 0, .renew 1 0, .renew 0 1, .acquire 0 0 1, .acquire 1 0 0, .acquire 1 0x82 1, .acquire 1 0x84 1].all
      m = true ∧ [Body.release 1, .renew 1 1, .acquire 1 0x81 1, .beat, .present, .leave, .join].any m = false ∧
    ([.unconfigured, .idle, .joining, .loading, .synced, .leaving .withdrawn, .halted] : List StationState).map
      (fun st => (judged (station st) 7 (.release 0)).1) = [false, false, false, true, true, true, false] ∧
    ([.idle, .joining, .loading, .synced] : List StationState).map (fun st => (judged (station st) 7 .misshapen).1) =
      [false, true, true, true] := by decide

/-- A HEAD at a member: well formed, a count of 8 silent beats, the wrong joiner, the wrong number, a stranger's; in
LOADING; a FOUND with and without its founder's mark; a PART that is in turn, one that is not, and in LOADING one
whose key is installed; one with no holder. -/
theorem test_hyp_malformed_transfers :
    let s : State := { station .synced with replica := { pair 0 with joinQueue := [9] } }
    let h (silences : BitVec 128) (seq : Seq) : HeadBody :=
      { joiner := 9, seq := seq, partCount := 3, rosterSet := 0x88, silences := silences, queueCount := 1
        entries := [9, 0xFF, 0xFF, 0xFF] }
    let l : State := loading [] 0 1
    let held : State := { l with replica := { l.replica with table := some (slot 1 0) :: List.replicate 63 none } }
    (judged s 7 (.head (h 0x7000 1))).1 = false ∧ (judged s 7 (.head (h 0x8000 1))).1 = true ∧
    (judged s 7 (.head { h 0 1 with joiner := 8 })).1 = true ∧ (judged s 7 (.head (h 0 2))).1 = true ∧
    (judged s 8 (.head (h 0 1))).1 = true ∧ (judged l 7 (.head (h 0 1))).1 = true ∧
    (judged (station .joining) 7 (.found (foundBy 7 0x80))).1 = false ∧
    (judged (station .joining) 7 (.found (foundBy 7 0x81))).1 = true ∧
    (judged l 7 (.part (part 1 1))).1 = false ∧ (judged l 8 (.part (part 1 1))).1 = true ∧
    (judged l 7 (.part { part 1 1 with index := 2 })).1 = true ∧ (judged l 7 (.part (part 0 1))).1 = true ∧
    (judged held 7 (.part { part 1 1 with key := 9 })).1 = true ∧ (judged held 7 (.part (part 1 1))).1 = false := by
  decide +kernel

/-- The four refusals of R122, each beside a frame that is not refused. -/
theorem test_hyp_refusals :
    let s (q : List Station) : State := { station .synced with replica := { pair 0 with joinQueue := q } }
    let j (seen : Bool) (l : List Station) : State :=
      { station .joining with ctl := { (station .joining).ctl with groupSeen := seen, preGroup := l } }
    let l : State := loading [] 0 1
    let spoilt : State := { l with xfer := { l.xfer with phase := some .spoiled } }
    (judged (s []) 7 .join).2 = true ∧ (judged (s [1, 2, 4, 8]) 9 .join).2 = true ∧
    (judged (s [1, 2, 4]) 9 .join).2 = false ∧ (judged (s [1, 2, 4, 9]) 9 .join).2 = false ∧
    (judged (j false [1, 2, 4, 8]) 9 .join).2 = true ∧ (judged (j false [1, 2, 4, 9]) 9 .join).2 = false ∧
    (judged (j true [1, 2, 4, 8]) 9 .join).2 = false ∧ (judged (s []) 7 (.found (foundBy 7 0x80))).2 = true ∧
    (judged (j false []) 7 (.found (foundBy 7 0x80))).2 = false ∧ (judged spoilt 7 (.part (part 1 1))).2 = true ∧
    (judged l 7 (.part (part 1 1))).2 = false := by decide

/-- A class 2 frame of an undefined subtype, of a HEAD one character short, and of a PART that agrees with its counts and
one that does not. -/
theorem test_hyp_misshapen :
    let read (subtype : Byte) (content : List Byte) : Body :=
      (decodeFrame (0x47 :: 0x1E :: subtype :: content ++ [0])).body
    (0x47 : Byte).toNat / 32 = 2 ∧ read 4 [] = .misshapen ∧ read 1 (List.replicate 28 0) = .misshapen ∧
    read 3 (List.replicate 29 0) ≠ .misshapen ∧ read 2 [1, 0, 1, 0, 0x08, 7, 1] ≠ .misshapen ∧
    read 2 [1, 0, 1, 0, 0x09, 7, 1] = .misshapen ∧ read 2 [1, 0, 1, 0] = .misshapen := by decide +kernel

/-- A character of a frame: no start bit, driven throughout, its stop bit driven alone, the length of a class 2 frame at
0, the check character of a PRESENT, and a header with more to come. -/
theorem test_hyp_characters :
    let cells (levels : List Bool) : List Cell := levels.map fun l => { s5 := l, s6 := l, s7 := l }
    let taken (cs : List Cell) (chars : List Byte) : List Byte × Nat × Taken := takeChars 2 cs chars 0
    let zero : List Bool := List.replicate 9 true ++ [false]
    (taken [] []).2.2 = .framing false ∧ (taken (cells (List.replicate 10 true)) []).2.2 = .framing true ∧
    (taken (cells (true :: List.replicate 8 false ++ [true])) []).2.2 = .framing false ∧
    (taken (cells zero) [0x40]) = ([0x40, 0], 0, .framing false) ∧ (taken (cells zero) [0x20]) = ([0x20, 0], 0, .complete) ∧
    taken (cells (zero ++ zero)) [] = ([0, 0], 0, .complete) := by decide +kernel

/-- A stop bit sampled driven, with the streak at 2 and at 3, a whole driven character, a break seen, at 3, and a
wrong check character at 3. -/
theorem test_hyp_broken_frames :
    let r := raw (true :: List.replicate 8 false ++ [true]) driven
    let b := raw (List.replicate 10 true) driven
    let k := raw spoiltLevels []
    ((streaked 2).Hears r (heard (streaked 2) r) ∧ (heard (streaked 2) r).taken = .framing false) ∧
    ((streaked 3).Hears r (heard (streaked 3) r) ∧ (heard (streaked 3) r).taken = .framing false) ∧
    ((streaked 3).Hears b (heard (streaked 3) b) ∧ (heard (streaked 3) b).taken = .framing true) ∧
    ((streaked 3).Hears k (heard (streaked 3) k) ∧ (heard (streaked 3) k).taken = .complete ∧
      (heard (streaked 3) k).frame.sender ≠ (streaked 3).own ∧ (heard (streaked 3) k).matched = false) ∧
    (streaked 2).sel.streak < 3 ∧ (streaked 3).sel.streak = 3 ∧ (streaked 3).sel.streak < 4 :=
  ⟨⟨hears rfl nofun rfl (by unfold BeginsFrame; decide +kernel), by decide +kernel⟩,
   ⟨hears rfl nofun rfl (by unfold BeginsFrame; decide +kernel), by decide +kernel⟩,
   ⟨hears rfl nofun rfl (by unfold BeginsFrame; decide +kernel), by decide +kernel⟩,
   ⟨hears rfl nofun rfl (by unfold BeginsFrame; decide +kernel), by decide +kernel⟩,
   by decide, rfl, by decide⟩

/-- A station in a state with a streak count, and the states in which a station takes part besides SYNCED. -/
def streakedAt (st : StationState) (n : Nat) : State := { station st with sel := { Selector.reset with streak := n } }
def otherParts : List StationState := [.joining, .loading, .leaving .withdrawn, .leaving .failed, .leaving .member]

/-- A JOIN of station 7 with a wrong check character; with the check's stop bit driven; and broken off by another
station's break after the header. -/
def joinLevels : List Bool := frameLevels { sender := 7, body := .join }
def joinSpoilt : RawFrame := raw (joinLevels.set 12 (!joinLevels.getD 12 false)) []
def joinBroken : RawFrame := raw (joinLevels.set 19 true) []
def joinCut : RawFrame := raw (joinLevels.take 10 ++ List.replicate 10 true) []

/-- A PRESENT of station 7 with its window driven, and a header whose stop bit is driven. -/
def presentDriven : RawFrame := raw presentLevels driven
def headerBroken : RawFrame := raw (true :: List.replicate 8 false ++ [true]) driven

/-- A station hears these, whatever its state and streak. -/
theorem hears_streaked {st : StationState} {n : Nat} (h : st ≠ .halted) {f : RawFrame} (hw : f.within = Within.nothing)
    (hb : BeginsFrame (streakedAt st n) f) : (streakedAt st n).Hears f (heard (streakedAt st n) f) :=
  ⟨rfl, h, hw, rfl, _, _, hb, rfl⟩

/-- An error of the station's own finding, at a streak of 2 and of 3, and a break seen, in each of those states. -/
theorem test_hyp_errors_in_every_state : ∀ st ∈ otherParts, ∀ n ∈ [2, 3],
    let s := streakedAt st n
    (s.Hears joinSpoilt (heard s joinSpoilt) ∧ s.TakesPart (heard s joinSpoilt).headerCls ∧
      (heard s joinSpoilt).taken = .complete ∧ (heard s joinSpoilt).frame.sender ≠ s.own ∧
      (heard s joinSpoilt).matched = false) ∧
    (s.Hears joinBroken (heard s joinBroken) ∧ s.TakesPart (heard s joinBroken).headerCls ∧
      (heard s joinBroken).taken = .framing false) ∧
    (s.Hears joinCut (heard s joinCut) ∧ s.TakesPart (heard s joinCut).headerCls ∧
      (heard s joinCut).taken = .framing true) := by
  have b : ∀ st ∈ otherParts, ∀ n ∈ [2, 3], ∀ f ∈ [joinSpoilt, joinBroken, joinCut],
      (streakedAt st n).frameBegins f.looks = ({ streakedAt st n with
        liu := ((streakedAt st n).frameBegins f.looks).1.liu },
        some (((streakedAt st n).frameBegins f.looks).2.getD [])) := by decide +kernel
  have c : ∀ st ∈ otherParts, ∀ n ∈ [2, 3], (streakedAt st n).ctl.state.participating = true ∧ st ≠ .halted ∧
      (heard (streakedAt st n) joinSpoilt).headerCls = some 7 ∧
      (heard (streakedAt st n) joinSpoilt).taken = .complete ∧
      (heard (streakedAt st n) joinSpoilt).frame.sender ≠ (streakedAt st n).own ∧
      (heard (streakedAt st n) joinSpoilt).matched = false ∧
      (heard (streakedAt st n) joinBroken).headerCls = some 7 ∧
      (heard (streakedAt st n) joinBroken).taken = .framing false ∧
      (heard (streakedAt st n) joinCut).headerCls = some 7 ∧
      (heard (streakedAt st n) joinCut).taken = .framing true := by decide +kernel
  intro st hst n hn
  obtain ⟨c1, c2, c3, c4, c5, c6, c7, c8, c9, c10⟩ := c st hst n hn
  have e := b st hst n hn
  exact ⟨⟨hears_streaked c2 rfl (e _ (by simp)), ⟨c1, fun _ => .inr c3⟩, c4, c5, c6⟩,
    ⟨hears_streaked c2 rfl (e _ (by simp)), ⟨c1, fun _ => .inr c7⟩, c8⟩,
    ⟨hears_streaked c2 rfl (e _ (by simp)), ⟨c1, fun _ => .inr c9⟩, c10⟩⟩

/-- A frame the station takes no part in: a PRESENT in JOINING and IDLE, its window driven, and one broken in its
header. -/
theorem test_hyp_errors_of_others : ∀ st ∈ [StationState.joining, .idle],
    let s := streakedAt st 3
    (s.Hears presentDriven (heard s presentDriven) ∧ ¬ s.TakesPart (heard s presentDriven).headerCls ∧
      (heard s presentDriven).taken = .complete ∧ (heard s presentDriven).frame.sender ≠ s.own ∧
      (heard s presentDriven).clean = true ∧ ∃ c ∈ (heard s presentDriven).window, cellLevel c = true) ∧
    (s.Hears headerBroken (heard s headerBroken) ∧ ¬ s.TakesPart (heard s headerBroken).headerCls ∧
      (heard s headerBroken).taken = .framing false) := by
  have b : ∀ st ∈ [StationState.joining, .idle], ∀ f ∈ [presentDriven, headerBroken],
      (streakedAt st 3).frameBegins f.looks = ({ streakedAt st 3 with
        liu := ((streakedAt st 3).frameBegins f.looks).1.liu },
        some (((streakedAt st 3).frameBegins f.looks).2.getD [])) := by decide +kernel
  have p : ∀ st ∈ [StationState.joining, .idle], ∀ f ∈ [presentDriven, headerBroken],
      ((streakedAt st 3).ctl.state.participating &&
        takesPart (streakedAt st 3).ctl.state (heard (streakedAt st 3) f).headerCls) = false := by decide +kernel
  have c : ∀ st ∈ [StationState.joining, .idle], st ≠ .halted ∧
      (heard (streakedAt st 3) presentDriven).taken = .complete ∧
      (heard (streakedAt st 3) presentDriven).frame.sender ≠ (streakedAt st 3).own ∧
      (heard (streakedAt st 3) presentDriven).clean = true ∧
      (∃ c ∈ (heard (streakedAt st 3) presentDriven).window, cellLevel c = true) ∧
      (heard (streakedAt st 3) headerBroken).taken = .framing false := by decide +kernel
  intro st hst
  obtain ⟨c1, c2, c3, c4, c5, c6⟩ := c st hst
  have n : ∀ f ∈ [presentDriven, headerBroken], ¬ (streakedAt st 3).TakesPart (heard (streakedAt st 3) f).headerCls := by
    intro f hf
    rw [takesPart_iff, p st hst f hf]
    decide
  exact ⟨⟨hears_streaked c1 rfl (b st hst _ (by simp)), n _ (by simp), c2, c3, c4, c5⟩,
    ⟨hears_streaked c1 rfl (b st hst _ (by simp)), n _ (by simp), c6⟩⟩

/-- The fourth error objection ends the stay in every participating state (R131). -/
theorem test_streak_exits_everywhere :
    (otherParts.all fun st => After (exec (.streak joinSpoilt) (streakedAt st 3)) fun t =>
      t.ctl.state == .idle && t.ctl.cause == .streak && t.sel.streak == 0) = true := by decide +kernel

/-- A wrong check character draws the member's own verdict break, and a noisy frame too (R121). -/
theorem test_own_verdict_break :
    (After (exec (.frameObjected (raw spoiltLevels [])) (streaked 2)) (fun t =>
        t.sel.streak == 3 && (t.sel.lastEnd.map (·.raised)) == some .error && t.replica.seq == 0) &&
     After (exec (.streak (raw [] noisyLooks)) (streaked 3)) (fun t =>
        t.ctl.state == .idle && t.ctl.cause == .streak)) = true := by decide +kernel

/-- So many objections counted against a candidate with its frame on the line. -/
def objected (n : Nat) (st : StationState) (k : CandKind) (b : Body) : State :=
  { sending st k b with
    sel := { (sending st k b).sel with
      join := true, leave := true, requestCount := n, joinCount := n, leaveCount := n, partCount := n
      headCount := n, streak := 2 } }

/-- A member sending its only part to station 9, and that part. -/
def toNine (n : Nat) : State :=
  { objected n .synced (.part 1) .beat with
    replica := { pair 0 with joinQueue := [9], transfer := some { joiner := 9, sender := 3, total := 1, applied := 0, idle := 0 } }
    xfer := { TransferUnit.reset with
      image := some [some { key := 1, mode := .exclusive, holders := [{ station := 7, remaining := 1 }], waiters := [] }]
      cursor := some 0 } }
def onePart : PartBody :=
  composePart 1 0 { key := 1, mode := .exclusive, holders := [{ station := 7, remaining := 1 }], waiters := [] }

/-- A member whose join queue has station 9 at its head. -/
def queued (n : Nat) : State := { objected n .synced .head .beat with replica := { pair 0 with joinQueue := [9] } }

/-- Six and seven objections against each candidate that has a limit; a window driven whole, and in its last cell
alone. -/
theorem test_hyp_ObjectionsAreCounted :
    let q (n : Nat) : State := { objected n .synced (.request 1) (.acquire 9 0x80 5) with
      desk := { Desk.reset with requests := [request] } }
    Objects (objection 2 driven) ∧ Objects (objection 330 (List.replicate 108 false ++ List.replicate 12 true)) ∧
    (q 7).pins.resetLow = false ∧ (q 7).ctl.state ≠ .halted ∧ (q 7).liu.linePhase = .contend ∧ (q 7).sel.streak < 3 ∧
    (∀ n, (q n).desk.requests = [request] ∧ (q n).sel.requestCount = n ∧
      (objected n .loading .join .join).joinStands = true ∧ (objected n (.leaving .failed) .leave .leave).leaveStands = true ∧
      (toNine n).sel.partCount = n ∧ (queued n).sel.headCount = n) ∧
    partOffer (toNine 6) = some onePart ∧ partOffer (toNine 7) = some onePart ∧ (queued 6).headStands = true ∧
    (queued 7).headStands = true ∧
    let m : State := { objected 7 (.leaving .member) (.request 1) (.acquire 9 0x80 5) with
      desk := { Desk.reset with requests := [request] } }
    let n : State := { q 7 with
      sel := { (q 7).sel with onLine := some { kind := none, frame := { sender := 3, body := .acquire 9 0x80 5 } } } }
    m.ctl.state = .leaving .member ∧ m.desk.requests = [request] ∧ m.sel.onLine = some
      { kind := some (.request request.ticket), frame := { sender := m.own, body := .acquire 9 0x80 5 } } ∧
    n.sel.onLine = some { kind := none, frame := { sender := n.own, body := .acquire 9 0x80 5 } } ∧
    n.ctl.state.participating = true ∧ takesPart n.ctl.state (some (Body.acquire 9 0x80 5).cls) = true :=
  ⟨⟨rfl, by decide +kernel⟩, ⟨rfl, by decide +kernel⟩, rfl, nofun, rfl, by decide,
    fun _ => ⟨rfl, rfl, rfl, rfl, rfl, rfl⟩, by decide, by decide, rfl, rfl, rfl, rfl, rfl, rfl, rfl, rfl⟩

/-- An own PRESENT broken after its header, the next start bit due not driven; an own HEAD broken in its header, another
station's HEAD going on; and ends that wait, six and seven objections counted, in SYNCED and in LEAVING. -/
theorem test_hyp_BrokenEndWaitsForTheGap :
    let f : Offer := { kind := some .present, frame := { sender := 3, body := .present } }
    let s := sending .synced .present f.frame.body
    let sent : List Bool := (frameLevels f.frame).take 10 ++ List.replicate 10 false
    let k : RawFrame := { looks := sent.flatMap (List.replicate 12), within := Within.nothing }
    let a := toStartCell s.liu.sampler k.looks
    let e : FrameEnd := { sent := .broken, ending := .earlyBreak, raised := .nothing, clean := false, applied := none }
    let w (c : Option CandKind) (t : State) : State :=
      { t with liu := Liu.reset, sel := { t.sel with onLine := none, brokenEnds := [{ kind := c, frameEnd := e }] } }
    let q (n : Nat) : State := { objected n .synced (.request 1) (.acquire 9 0x80 5) with
      desk := { Desk.reset with requests := [request] } }
    sentOf s.sel.onLine (hearRaw a.1 a.2).levels = .broken ∧ (hearRaw a.1 a.2).taken = .framing false ∧
    s.sel.onLine = some f ∧ s.liu.linePhase = .contend ∧
    (∀ n c, (w c (q n)).liu.linePhase = .hunt ∧ (w c (q n)).sel.streak < 4 ∧ (w c (q n)).sel.onLine = none ∧
      (w c (q n)).desk.fits request = true ∧ (w c (objected n .loading .join .join)).joinStands = true ∧
      (w c (objected n (.leaving .failed) .leave .leave)).leaveStands = true) ∧
    partOffer (w none (toNine 7)) = some onePart ∧ (w none (queued 7)).headStands = true ∧
    ({ w none (q 7) with ctl := { (q 7).ctl with state := .leaving .member } } : State).desk.requests = [request] ∧
    let o := queued 0
    let g : Frame := { sender := 7, body := .head (composeHead o) }
    let h := sending .synced .head (.head (composeHead o))
    let d := hearRaw h.liu.sampler ((frameLevels g).flatMap (List.replicate 12))
    toStartCell h.liu.sampler ((frameLevels g).flatMap (List.replicate 12)) =
      (h.liu.sampler, (frameLevels g).flatMap (List.replicate 12)) ∧
    sentOf h.sel.onLine d.levels = .broken ∧ d.clean = true ∧ (∀ c ∈ d.window, cellLevel c = false) ∧
    d.frame = g ∧ d.frame.sender ≠ h.own :=
  ⟨by decide +kernel, by decide +kernel, rfl, rfl, fun _ _ => ⟨rfl, (by decide : (2 : Nat) < 4), rfl, rfl, rfl, rfl⟩,
    by decide, rfl, rfl, rfl, by decide +kernel, by decide +kernel, by decide +kernel, by decide +kernel,
    by decide +kernel⟩

/-- A frame bearing the own number at each state that tests for it; as a member finds it malformed, and refuses it. -/
theorem test_hyp_DuplicateHalts :
    (∀ st, st ≠ .halted → (station st).Listening edge) ∧ (3 : Station) = (station .idle).own ∧
    (station .joining).ctl.state.participating = true ∧ (station .loading).ctl.state.participating = true ∧
    (station .idle).ctl.state = .idle ∧ malformed (station .synced) { sender := 3, body := .release 0 } = true ∧
    refuses (station .synced) { sender := 3, body := .found (foundBy 3 0x08) } = true :=
  ⟨fun st h => test_hyp_listening st h Replica.empty TransferUnit.reset, rfl, rfl, rfl, rfl, by decide, rfl⟩

theorem test_hyp_HaltedTakesNoFrame :
    (station .halted).ctl.state = .halted ∧ (station .halted).timer.countdown = .stopped ∧
    (station .halted).timer.window = .stopped ∧ (station .halted).sel.onLine = none := by decide

/-- Another station's frame in UNCONFIGURED and IDLE, malformed content included, and the own number in UNCONFIGURED. -/
theorem test_hyp_frames_outside_the_group :
    (station .unconfigured).Listening edge ∧ (station .idle).Listening edge ∧ (7 : Station) ≠ (station .idle).own ∧
    (3 : Station) = (station .unconfigured).own ∧ (Instr.beat 3 edge) ∈ frameCommands 3 edge .beat ∧
    (Instr.releaseFrame 7 0 edge) ∈ frameCommands 7 edge (.release 0) ∧
    (Instr.spoil { sender := 7, body := .join } edge) ∈ frameCommands 7 edge .join :=
  ⟨test_hyp_listening .unconfigured nofun Replica.empty TransferUnit.reset,
    test_hyp_listening .idle nofun Replica.empty TransferUnit.reset, by decide, by decide, by decide, by decide, by decide⟩

/-! ## Hypotheses met: the table, the streak and the desk -/

/-- Room, no room; a station in the slot; a compatible request at three holders, none at four; waiters to
the limit. -/
theorem test_hyp_AcquireOutcomes :
    findKey 8 [some (slot 1 0), none] = none ∧ (∀ o ∈ [some (slot 1 0)], o.isSome = true) ∧
    ([some (slot 1 0), none] : Table)[1]? = some none ∧
    findKey 9 [some (slot 3 0)] = some (0, slot 3 0) ∧ slotHas 0 (slot 3 0) = true ∧ slotHas 31 (slot 3 0) = false ∧
    (slot 3 0).holders.length < 4 ∧ ¬ (slot 4 0).holders.length < 4 ∧ (slot 1 1).waiters ≠ [] ∧
    slotHas 31 (slot 1 4) = false ∧ 4 ≤ (slot 1 4).waiters.length ∧ (slot 1 3).waiters.length < 4 := by decide

/-- A key in the second slot alone and in none; a holder, a waiter and a stranger of a slot. -/
theorem test_hyp_findKey :
    let t : Table := [some { slot 1 0 with key := 8 }, some (slot 1 1)]
    findKey 9 t = some (1, slot 1 1) ∧ t[1]? = some (some (slot 1 1)) ∧ findKey 7 t = none ∧
    slotHasHolder 0 (slot 1 1) = true ∧ slotHasWaiter 10 (slot 1 1) = true ∧ slotHas 5 (slot 1 1) = false := by decide

/-- A holder, the head waiter, a later waiter, a stranger, and an absent key. -/
theorem test_hyp_RenewAndReleaseOutcomes :
    findKey 9 [some (slot 1 2)] = some (0, slot 1 2) ∧ slotHasHolder 0 (slot 1 2) = true ∧
    (slotHasHolder 10 (slot 1 2) = false ∧ slotHasWaiter 10 (slot 1 2) = true ∧
      (slot 1 2).waiters.head?.map (·.station) = some 10) ∧
    (slotHasHolder 11 (slot 1 2) = false ∧ slotHasWaiter 11 (slot 1 2) = true) ∧
    (slotHasHolder 5 (slot 1 2) = false ∧ slotHasWaiter 5 (slot 1 2) = false) ∧ findKey 8 [some (slot 1 2)] = none := by
  decide

theorem test_hyp_PromotionAndPurge :
    (promote 0 1 (slot 1 2)).1 = some (slot 1 2) ∧ (slot 1 2).waiters ≠ [] ∧
    some (slot 1 0) ∈ (purge 0 1 5 [some (slot 1 0)]).1 ∧ slotHas 5 (slot 1 0) = false ∧
    (promote 0 1 (slot 0 0)).1 = none ∧ slotHas 0 (slot 1 2) = true ∧ slotHas 11 (slot 1 2) = true ∧
    (slot 1 0).waiters = [] := by decide

/-- A head waiter that is grantable to an empty holder list, for the own station and another; to three SHARED holders;
and ones that are not. -/
theorem test_hyp_promotion :
    let w (m : Mode) : Waiter := { station := 5, wanted := m, term := 255 }
    (slot 0 2).waiters ≠ [] ∧ (slot 0 2).holders = [] ∧ grantable .shared [] (w .exclusive) = true ∧
    grantable .shared (slot 3 0).holders (w .shared) = true ∧ grantable .shared (slot 4 0).holders (w .shared) = false ∧
    grantable .exclusive (slot 1 0).holders (w .shared) = false ∧
    grantable .shared (slot 1 0).holders (w .exclusive) = false := by decide

theorem test_hyp_TableStaysLawful : TableLawful [none, some (slot 1 1)] := by
  have e : ∀ x, some x ∈ [none, some (slot 1 1)] → x = slot 1 1 := by
    intro x h
    simpa using h
  refine ⟨fun x h => ?_, by decide⟩
  rw [e x h]
  exact ⟨by decide, by decide, by decide, by decide, by decide, by decide, by decide,
    fun w ws h => by
      have : w = { station := 10, wanted := .exclusive, term := 1 } := by
        have h' : [({ station := 10, wanted := .exclusive, term := 1 } : Waiter)] = w :: ws := h
        injection h' with a _
        exact a.symm
      rw [this]
      decide⟩

/-- A frame end for each row of the streak's table (R130). -/
theorem test_hyp_StreakFollowsTheFrameEnd :
    let e : FrameEnd := { sent := .none, ending := .applied, raised := .nothing, clean := true, applied := none }
    ({ e with raised := .error } : FrameEnd).sent ≠ .broken ∧ e.clean = true ∧ e.raised = .nothing ∧
    ({ e with raised := .breakSeen } : FrameEnd).raised = .breakSeen ∧ ({ e with sent := .broken } : FrameEnd).sent = .broken ∧
    nextStreak 2 { e with raised := .error } < 4 := by decide

/-- A TABLE report that finds a WAITING and a HELD claim, one that finds a row for neither, and one with no claim. -/
theorem test_hyp_reports :
    let d (st : ClaimState) : Desk := { Desk.reset with claims := [claim st] }
    (∀ st, (d st).claimFor 9 = some (claim st)) ∧ (claim .waiting).state = .waiting ∧ (claim .held).state = .held ∧
    ¬ (Outcome.granted = .granted ∧ (claim .held).state = .waiting) ∧
    ¬ (Outcome.expired = .expired ∧ (claim .waiting).state = .held) ∧ (∀ c ∈ (d .held).claims, c.key ≠ 8) :=
  ⟨fun st => by cases st <;> rfl, rfl, rfl, nofun, nofun, by decide⟩

/-- A desk with a queued ACQUIRE and a held claim is lawful; an acceptance, a completion in each group of outcomes,
and a completed RELEASE whose claim is not PENDING. -/
theorem test_hyp_BudgetIsKept :
    let d : Desk := { Desk.reset with
      requests := [request], claims := [claim .pending, { claim .held with key := 8 }], reservation := 4 }
    let e : Desk := { Desk.reset with
      requests := [{ request with kind := .release, key := 8 }], claims := [{ claim .held with key := 8 }], reservation := 2 }
    d.Lawful ∧ e.Lawful ∧ (desked d).admission .release 8 0 0 = .ok ∧ (desked d).admission .acquire 7 0 1 = .ok ∧
    d.requests = [request] ∧ completes request.kind .queued = true ∧ completes .release .released = true ∧
    ∀ c ∈ e.claims, c.key = 8 → c.state ≠ .pending :=
  ⟨⟨⟨by decide, by decide, by decide, by decide⟩, ⟨by decide, by decide⟩⟩,
   ⟨⟨by decide, by decide, by decide, by decide⟩, ⟨by decide, by decide⟩⟩,
   by decide, by decide, rfl, rfl, rfl, by decide⟩

end Sys2Proof.Tests
end

section
/-! PROOF. The lowest free slot, compatibility, and the answer of an ACQUIRE in each of its cases (R10..R13). -/

namespace Sys2Proof.Machine

/-! ## The lowest free slot (R5) -/

theorem lowestFreeFrom_eq_findIdx? (n : Nat) (t : Table) :
    lowestFreeFrom n t = (t.findIdx? Option.isNone).map (n + ·) := by
  induction t generalizing n with
  | nil => rfl
  | cons o t ih =>
    cases o with
    | none => simp [lowestFreeFrom, List.findIdx?_cons]
    | some s => simp [lowestFreeFrom, List.findIdx?_cons, ih, Function.comp_def, Nat.add_assoc, Nat.add_comm 1]

theorem lowestFree_eq_findIdx? (t : Table) : lowestFree t = t.findIdx? Option.isNone := by
  simp [lowestFree, lowestFreeFrom_eq_findIdx?]

/-- No slot is free where every slot is occupied. -/
theorem lowestFree_none (t : Table) : lowestFree t = none ↔ ∀ o ∈ t, o.isSome = true := by
  simp [lowestFree_eq_findIdx?, List.findIdx?_eq_none_iff]

/-- The lowest free slot is the free one with none but occupied slots below it. -/
theorem lowestFree_some (t : Table) (i : Nat) :
    lowestFree t = some i ↔ t[i]? = some none ∧ ∀ j < i, ∃ s, t[j]? = some (some s) := by
  rw [lowestFree_eq_findIdx?, List.findIdx?_eq_some_iff_getElem]
  constructor
  · rintro ⟨hi, free, below⟩
    refine ⟨by simpa [List.getElem?_eq_getElem hi] using free, fun j hj => ?_⟩
    have occupied := below j hj
    rw [Bool.not_eq_true, Option.isNone_eq_false_iff, Option.isSome_iff_exists] at occupied
    simpa [List.getElem?_eq_getElem (hj.trans hi)] using occupied
  · rintro ⟨free, below⟩
    obtain ⟨hi, free⟩ := List.getElem?_eq_some_iff.mp free
    refine ⟨hi, by simp [free], fun j hj => ?_⟩
    obtain ⟨s, hs⟩ := below j hj
    obtain ⟨_, hs⟩ := List.getElem?_eq_some_iff.mp hs
    simp [hs]

/-! ## Where a station stands in a slot; what a slot lets in beside its holders -/

theorem slotHasHolder_iff (p : Station) (x : Slot) : slotHasHolder p x = true ↔ ∃ h ∈ x.holders, h.station = p := by
  simp [slotHasHolder]

theorem slotHasWaiter_iff (p : Station) (x : Slot) : slotHasWaiter p x = true ↔ ∃ w ∈ x.waiters, w.station = p := by
  simp [slotHasWaiter]

theorem slotHas_iff (p : Station) (x : Slot) :
    slotHas p x = true ↔ slotHasHolder p x = true ∨ slotHasWaiter p x = true := by
  simp [slotHas]

theorem compatible_iff (mode : Mode) (x : Slot) :
    compatible mode x = true ↔ x.mode = .shared ∧ mode = .shared ∧ x.holders.length < Config.maxHolders := by
  simp [compatible, and_assoc]

/-- A new waiter beside a holder is grantable where its request is compatible (R6, R12). -/
theorem grantable_eq_compatible {x : Slot} (held : x.holders ≠ []) (p : Station) (mode : Mode) (term : Nat) :
    grantable x.mode x.holders { station := p, wanted := mode, term := term } = compatible mode x := by
  simp [grantable, compatible, held]

/-! ## The answer of an ACQUIRE -/

section
variable (p : Station) (mode : Mode) (wait : Bool) (term : Nat) {key : Key} {t : Table} {i : Nat} {x : Slot}

/-- An absent key and a full table (R11). -/
theorem applyAcquire_of_full (absent : findKey key t = none) (full : lowestFree t = none) :
    applyAcquire p key mode wait term t = { table := t, outcome := .tableFull, mode := none, reports := [] } := by
  simp [applyAcquire, absent, full]

/-- An absent key and a free slot (R11). -/
theorem applyAcquire_of_free (absent : findKey key t = none) (free : lowestFree t = some i) :
    applyAcquire p key mode wait term t =
      { table := t.set i (some { key := key, mode := mode,
                                 holders := [{ station := p, remaining := term }], waiters := [] })
        outcome := .granted, mode := some mode, reports := [] } := by
  simp [applyAcquire, absent, free]

/-- The sender stands in the slot already (R10). -/
theorem applyAcquire_of_has (found : findKey key t = some (i, x)) (has : slotHas p x = true) :
    applyAcquire p key mode wait term t = { table := t, outcome := .already, mode := none, reports := [] } := by
  simp [applyAcquire, found, has]

/-- Nobody waits and the request is compatible (R12). -/
theorem applyAcquire_of_compatible (found : findKey key t = some (i, x)) (stranger : slotHas p x = false)
    (alone : x.waiters = []) (c : compatible mode x = true) :
    applyAcquire p key mode wait term t =
      { table := t.set i (some { x with holders := x.holders ++ [{ station := p, remaining := term }] })
        outcome := .granted, mode := some x.mode, reports := [] } := by
  simp [applyAcquire, found, stranger, alone, c]

section
variable (found : findKey key t = some (i, x)) (stranger : slotHas p x = false)
  (barred : (x.waiters.isEmpty && compatible mode x) = false)
include found stranger barred

/-- A request not granted at once, that does not wait (R13). -/
theorem applyAcquire_of_noWait :
    applyAcquire p key mode false term t = { table := t, outcome := .busy, mode := none, reports := [] } := by
  simp [applyAcquire, found, stranger, barred]

/-- A request not granted at once, that finds no room to wait (R13). -/
theorem applyAcquire_of_queueFull (full : Config.maxWaiters ≤ x.waiters.length) :
    applyAcquire p key mode true term t = { table := t, outcome := .queueFull, mode := none, reports := [] } := by
  simp [applyAcquire, found, stranger, barred, full]

/-- A request not granted at once, that waits (R13). -/
theorem applyAcquire_of_room (room : x.waiters.length < Config.maxWaiters) :
    applyAcquire p key mode true term t =
      { table := t.set i (some { x with
          waiters := x.waiters ++ [{ station := p, wanted := mode, term := term }] })
        outcome := .queued, mode := some mode, reports := [] } := by
  simp [applyAcquire, found, stranger, barred, room]

end

end

end Sys2Proof.Machine

namespace Sys2Proof

open Sys2Proof.Machine

/-- Settles O54, by the cases of R10..R13: each is one of the answers above. -/
theorem acquireOutcomes : Obligations.AcquireOutcomes := by
  intro p key mode wait term i t a
  refine ⟨findKey_none key t, findKey_some key t i,
    fun x => ⟨slotHasHolder_iff p x, slotHasWaiter_iff p x, slotHas_iff p x⟩,
    applyAcquire_reports p key mode wait term t, fun absent => ⟨fun full => ?_, fun free below => ?_⟩,
    fun x found => ⟨fun has => ?_, fun stranger alone fits => ?_, fun stranger blocked => ?_⟩⟩
  · simp [a, applyAcquire_of_full p mode wait term absent ((lowestFree_none t).mpr full)]
  · simp [a, applyAcquire_of_free p mode wait term absent ((lowestFree_some t i).mpr ⟨free, below⟩)]
  · simp [a, applyAcquire_of_has p mode wait term found has]
  · have fit := (compatible_iff mode x).mpr fits
    simp [a, applyAcquire_of_compatible p mode wait term found stranger alone fit, fits.1]
  · have blocked : x.waiters ≠ [] ∨ compatible mode x = false :=
      blocked.imp_right fun unfit => Bool.eq_false_iff.mpr (unfit ∘ (compatible_iff mode x).mp)
    have barred : (x.waiters.isEmpty && compatible mode x) = false := by
      simpa [imp_iff_not_or] using blocked
    refine ⟨fun noWait => ?_, fun waits full => ?_, fun waits room => ?_⟩
    · subst noWait
      simp [a, applyAcquire_of_noWait p mode term found stranger barred]
    · subst waits
      simp [a, applyAcquire_of_queueFull p mode term found stranger barred full]
    · subst waits
      rw [show a = _ from applyAcquire_of_room p mode term found stranger barred room]
      refine ⟨rfl, rfl, rfl, fun alone held => ?_⟩
      rw [grantable_eq_compatible held]
      exact blocked.resolve_left (not_not_intro alone)

end Sys2Proof
end

section
/-! PROOF. SETUP and START at the port (R52, R53), and a frame in which the station takes no part, a START falling
within it (R117, R132). -/

namespace Sys2Proof.Machine

/-! ## SETUP (R52) -/

section
variable (v : Byte) {s : State}

theorem setupCommand_of_barred (h : s.ctl.state ≠ .unconfigured ∨ s.ctl.configured = true) :
    s.setupCommand v = (s, .badState) := by
  simp [State.setupCommand, h]

/-- The test of the interval, which SETUP makes with the limits of R31. -/
theorem intervalOutside_iff : (decide (v.toNat < Config.minInterval) || decide (Config.maxInterval < v.toNat)) = true ↔
    v.toNat < 5 ∨ 250 < v.toNat := by
  rw [Bool.or_eq_true, decide_eq_true_eq, decide_eq_true_eq]
  rfl

theorem setupCommand_of_outside (h : ¬ (s.ctl.state ≠ .unconfigured ∨ s.ctl.configured = true))
    (hv : v.toNat < 5 ∨ 250 < v.toNat) : s.setupCommand v = (s, .badArg) := by
  simp [State.setupCommand, h, (intervalOutside_iff v).mpr hv]

theorem setupCommand_of_inside (h : ¬ (s.ctl.state ≠ .unconfigured ∨ s.ctl.configured = true))
    (hv : ¬ (v.toNat < 5 ∨ 250 < v.toNat)) : s.setupCommand v =
      ({ s with timer := { s.timer with interval := v.toNat }, ctl := { s.ctl with configured := true } }, .ok) := by
  have inside := mt (intervalOutside_iff v).mp hv
  simp [State.setupCommand, h, inside]

end

/-! ## START (R53) -/

section
variable {s : State}

theorem startCommand_taken (h : s.ctl.state = .unconfigured ∨ s.ctl.state = .idle) :
    s.startCommand = (s.started.gapChoice, .ok) := by
  simp [State.startCommand, h]

theorem startCommand_refused (h : s.ctl.state ≠ .unconfigured) (h' : s.ctl.state ≠ .idle) :
    s.startCommand = (s, .badState) := by
  simp [State.startCommand, h, h']

/-- Of the candidates the JOIN alone stands, so a line that stays released brings its offer (R132, R138). -/
theorem started_gapChoice (s : State) : s.started.gapChoice =
    if s.liu.linePhase = .gap then s.started.offer .join .join else s.started := by
  split
  · rename_i released
    exact (gapChoice_open (s := s.started) ⟨released, rfl⟩).trans (choice_join rfl rfl)
  · rename_i busy
    exact gapChoice_closed fun gap => busy gap.1

/-- The byte of START at a port that waits for its command (R187). -/
theorem portByte_start (h : s.Selected) : s.portByte 0x2B =
    { s.startCommand.1 with port := Port.answering 0x2B [] [statusCode s.startCommand.2] } :=
  Host.Outcome.next.inj (start_answers h)

/-- The station after a START taken while the LIU is not in GAP, the reply held. -/
def State.startTaken (s : State) : State := { s.started with port := Port.answering 0x2B [] [0x00] }

/-- With the LIU out of GAP a START taken makes no choice (R132). -/
theorem portByte_start_taken (h : s.Selected) (hs : s.ctl.state = .unconfigured ∨ s.ctl.state = .idle)
    (busy : s.liu.linePhase ≠ .gap) : s.portByte 0x2B = s.startTaken := by
  rw [portByte_start h, startCommand_taken hs, started_gapChoice, if_neg busy]
  rfl

/-- Before a START there is no replicated state, and so no sequence number (R24, R124). -/
theorem kept_seq_zero (kept : s.Kept) (h : s.ctl.state = .unconfigured ∨ s.ctl.state = .idle) : s.replica.seq = 0 := by
  have empty : s.replica = Replica.empty := by
    apply kept.nothingReplicated <;> rcases h with h | h <;> simp [h, StationState.isMember]
  rw [empty]
  rfl

end

/-! ## A frame in which the station takes no part (R117) -/

theorem events_all (w : Within) (s : State) :
    ((s.events w.toHeader).events w.toCheck).events w.toEnd = s.events w.all := by
  simp [State.events, Within.all]

/-- A station without a part in a clean frame of another station finds nothing to raise, whatever it would make of
the content (R117, R121). -/
theorem findings_aside {s : State} {f : Frame} {n : Nat} (w : List Bool) (sent : Sent) (hn : n ≤ Config.maxNoisy)
    (other : f.sender ≠ s.own) :
    findings s (hear f n w) sent false = { error := false, raised := .nothing, duplicate := false } := by
  have distinct : isDuplicate s (hear f n w) (sent == .carried) = false := by simp [isDuplicate, hear, other]
  have quiet : ¬ Config.maxNoisy < (hear f n w).noisy := Nat.not_lt.mpr hn
  simp [findings, distinct, quiet, verdictRaised, show (hear f n w).matched = true from rfl]

/-- The application of a frame in which the station took no part, the LIU already past it. -/
def State.heardAside (f : Frame) (noisy : Nat) (s : State) : State :=
  State.applyFrame f false { s with liu := { Liu.afterFrame f noisy false with blind := s.liu.blind } }

/-- Whatever falls within a frame that a station listening hears, the frame's start leaves the station as it was, its
LIU receiving (R117, R145). -/
theorem frameHeard_within {s : State} {h : Hearing} (hl : s.Listening h) (f : Frame) (w : Within) :
    ∃ l : Liu, l.linePhase = .receive ∧ s.frameHeard f.sender f.body { h with within := w } =
      State.carry .free (hear f h.noisy []) w { s with liu := l } := by
  obtain ⟨run, begun⟩ := frameStart_listening hl
  refine ⟨{ s.liu.frameStart with linePhase := .receive, releasedRun := run }, rfl, ?_⟩
  simp [State.frameHeard, State.frameAfter, deaf_false hl.awake hl.live, begun]

/-- A clean frame of another station, heard by one that was no participant when it began, is applied in the state in
which the events within it leave the station (R117, R152). -/
theorem carry_aside {s : State} {f : Frame} {n : Nat} {w : Within} (first : FirstTrigger)
    (aside : s.ctl.state.participating = false) (silent : s.sel.onLine = none) (hn : n ≤ Config.maxNoisy)
    (otherAtCheck : f.sender ≠ ((s.events w.toHeader).events w.toCheck).own)
    (otherAtEnd : f.sender ≠ (s.events w.all).own) (silentAtEnd : (s.events w.all).sel.onLine = none) :
    s.carry first (hear f n []) w =
      { (s.events w.all).heardAside f n with sel := ((s.events w.all).heardAside f n).sel.afterApplied f } := by
  have complete : (hear f n []).taken = .complete := rfl
  have offLine : (s.events w.all).offLine = s.events w.all := by unfold State.offLine; rw [← silentAtEnd]
  unfold State.carry
  simp only [silent, sentOf, aside, Bool.and_false, Bool.false_and, complete, findings_aside [] _ hn otherAtCheck,
    events_all, silentAtEnd, Option.bind_none, offLine]
  rw [verdictEnd_applied _ _ _ _ (by decide) hn]
  have kept : ((s.events w.all).heardAside f n).own = (s.events w.all).own := (applyFrame_beside f false _).station
  have other : (f.sender == ((s.events w.all).heardAside f n).own) = false := by rw [kept]; simpa using otherAtEnd
  change State.handEnd _ _ _ ((s.events w.all).heardAside f n) = _
  generalize (s.events w.all).heardAside f n = t at other
  simp only [State.handEnd, State.frameEnd, State.ownEnd, nextYield, other]
  rfl

/-- A group frame noted in JOINING takes the FOUND candidate alone (R62). -/
theorem groupNoted_keeps (s : State) :
    s.groupNoted.ctl.state = s.ctl.state ∧ s.groupNoted.sel = { s.sel with found := false } := by
  unfold State.groupNoted
  dsimp only
  split <;> exact ⟨rfl, rfl⟩

/-- Another station's JOIN seen in JOINING moves the pre-group list alone (R61). -/
theorem joinSeen_other (j : Station) (s : State) : s.joinSeen j false =
    if s.ctl.groupSeen then s else { s with ctl := { s.ctl with preGroup := appendPreGroup j s.ctl.preGroup } } := by
  simp [State.joinSeen]

/-- Another station's BEAT or JOIN leaves a station in JOINING there, its JOIN standing (R61, R62). -/
theorem applyJoining_keeps_join {f : Frame} (s : State) (h : f.body = .beat ∨ f.body = .join) :
    (s.applyJoining f false).ctl.state = s.ctl.state ∧ (s.applyJoining f false).sel.join = s.sel.join ∧
    (s.applyJoining f false).sel.joinCount = s.sel.joinCount ∧ (s.applyJoining f false).sel.onLine = s.sel.onLine := by
  rcases h with h | h
  · have noted : s.applyJoining f false = s.groupNoted := by simp [State.applyJoining, h, State.groupFrame]
    obtain ⟨state, sel⟩ := groupNoted_keeps s
    rw [noted, sel]
    exact ⟨state, rfl, rfl, rfl⟩
  · have seen : s.applyJoining f false = s.joinSeen f.sender false := by simp [State.applyJoining, h]
    rw [seen, joinSeen_other]
    split <;> exact ⟨rfl, rfl, rfl, rfl⟩

/-- A BEAT or JOIN in which the station took no part, applied in JOINING, leaves it there with its JOIN standing, the
LIU hunting past the frame (R117, R152). -/
theorem heardAside_keeps_join {s : State} {f : Frame} (n : Nat) (joining : s.ctl.state = .joining)
    (h : f.body = .beat ∨ f.body = .join) :
    (s.heardAside f n).ctl.state = .joining ∧
    (s.heardAside f n).liu = { Liu.afterFrame f n false with blind := s.liu.blind } ∧
    (s.heardAside f n).sel.join = s.sel.join ∧ (s.heardAside f n).sel.joinCount = s.sel.joinCount ∧
    (s.heardAside f n).sel.onLine = s.sel.onLine := by
  have applied : s.heardAside f n = State.applyJoining f false
      { s with liu := { Liu.afterFrame f n false with blind := s.liu.blind } } := by
    simp [State.heardAside, State.applyFrame, joining]
  obtain ⟨state, stands⟩ := applied ▸ applyJoining_keeps_join _ h
  exact ⟨state.trans joining, (applyFrame_beside f false _).liu, stands⟩

/-! ## A START within another station's frame (R53, R117, R132) -/

/-- The byte of START falls within the frame: before the header's stop bit, before the check character's, or after. -/
def startPlaces : List Within :=
  [{ Within.nothing with toHeader := [.byte 0x2B] }, { Within.nothing with toCheck := [.byte 0x2B] },
    { Within.nothing with toEnd := [.byte 0x2B] }]

/-- Wherever it falls, the frame ends with the START taken, and the findings are made before it or after it. -/
theorem events_start {w : Within} (hw : w ∈ startPlaces) (s : State) : s.events w.all = s.portByte 0x2B ∧
    ((s.events w.toHeader).events w.toCheck = s ∨ (s.events w.toHeader).events w.toCheck = s.portByte 0x2B) := by
  simp only [startPlaces, List.mem_cons, List.not_mem_nil, or_false] at hw
  rcases hw with rfl | rfl | rfl
  · exact ⟨rfl, .inr rfl⟩
  · exact ⟨rfl, .inr rfl⟩
  · exact ⟨rfl, .inl rfl⟩

/-- A START taken in IDLE within another station's frame leaves the station out of that frame, which is applied in the
state after the START. -/
theorem carry_start {s : State} {f : Frame} {n : Nat} {w : Within} (selected : s.Selected) (idle : s.ctl.state = .idle)
    (busy : s.liu.linePhase ≠ .gap) (silent : s.sel.onLine = none) (hn : n ≤ Config.maxNoisy) (other : f.sender ≠ s.own)
    (hw : w ∈ startPlaces) : s.carry .free (hear f n []) w =
      { s.startTaken.heardAside f n with sel := (s.startTaken.heardAside f n).sel.afterApplied f } := by
  obtain ⟨atEnd, atCheck⟩ := events_start hw s
  rw [portByte_start_taken selected (.inr idle) busy] at atEnd atCheck
  have own : ((s.events w.toHeader).events w.toCheck).own = s.own :=
    atCheck.elim (congrArg State.own) (congrArg State.own)
  have aside : s.ctl.state.participating = false := by rw [idle]; rfl
  rw [carry_aside .free aside silent hn (own ▸ other) (by rw [atEnd]; exact other) (by rw [atEnd]; rfl), atEnd]

/-- A station in IDLE that takes a START within another station's BEAT or JOIN has no part in that frame, and comes
out of it in JOINING, its JOIN waiting for the choice after it. -/
theorem frameHeard_start {s : State} {h : Hearing} {p : Station} {w : Within} {b : Body} (selected : s.Selected)
    (hl : s.Listening h) (idle : s.ctl.state = .idle) (other : p ≠ s.own) (hw : w ∈ startPlaces)
    (hb : b = .beat ∨ b = .join) :
    ∃ t, s.frameHeard p b { h with within := w } = t ∧ t.ctl.state = .joining ∧ t.liu.takingPart = false ∧
      t.liu.linePhase = .hunt ∧ t.sel.join = true ∧ t.sel.joinCount = 0 ∧ t.sel.onLine = none ∧
      t.sel.lastEnd = some (appliedEnd { sender := p, body := b }) := by
  obtain ⟨l, receiving, heard⟩ := frameHeard_within hl { sender := p, body := b } w
  have busy : l.linePhase ≠ .gap := by simp [receiving]
  rw [carry_start (s := { s with liu := l }) ⟨selected.awake, selected.waits⟩ idle busy hl.silent hl.clean other hw]
    at heard
  obtain ⟨state, liu, join, joinCount, onLine⟩ := heardAside_keeps_join h.noisy
    (s := State.startTaken { s with liu := l }) (f := { sender := p, body := b }) rfl hb
  exact ⟨_, heard, state, congrArg Liu.takingPart liu, congrArg Liu.linePhase liu, join, joinCount, onLine, rfl⟩

end Sys2Proof.Machine

namespace Sys2Proof

open Sys2Proof.Machine

/-- Settles O9, by the answer of SETUP in each of its cases. -/
theorem setupSetsTheInterval : Obligations.SetupSetsTheInterval := by
  intro v s selected
  rw [setup_answers selected]
  split_ifs with barred outside
  · rw [setupCommand_of_barred v barred]; rfl
  · rw [setupCommand_of_outside v barred outside]; rfl
  · rw [setupCommand_of_inside v barred outside]; rfl

/-- Settles O10: a START taken leaves the started station with the JOIN offered where LINE stays released, a START
refused changes the port alone, and a START within a frame is `frameHeard_start`. -/
theorem startBeginsJoining : Obligations.StartBeginsJoining := by
  intro s selected
  refine ⟨fun ready => ?_, fun notUnconfigured notIdle => ?_, fun h p w c b hl idle other hw hc => ?_⟩
  · rw [start_answers selected, startCommand_taken ready, started_gapChoice]
    refine ⟨_, rfl, ?_⟩
    split <;>
      exact ⟨rfl, rfl, rfl, rfl, rfl, rfl, rfl, rfl, rfl, rfl, rfl, rfl, rfl, rfl, rfl, rfl, rfl, rfl, rfl, rfl, rfl,
        fun kept => kept_seq_zero (s := s) kept ready, rfl, rfl, rfl⟩
  · rw [start_answers selected, startCommand_refused notUnconfigured notIdle]
    rfl
  · have heard : exec c s = .next (s.frameHeard p b { h with within := w }) ∧ (b = .beat ∨ b = .join) := by
      simp only [List.mem_cons, List.not_mem_nil, or_false, Prod.mk.injEq] at hc
      rcases hc with ⟨rfl, rfl⟩ | ⟨rfl, rfl⟩
      · exact ⟨rfl, .inl rfl⟩
      · exact ⟨rfl, .inr rfl⟩
    obtain ⟨t, ends, facts⟩ := frameHeard_start selected hl idle other hw heard.2
    exact ⟨t, ends ▸ heard.1, facts⟩

end Sys2Proof
end

section
/-! PROOF. The streak count at a frame end (R130). -/

namespace Sys2Proof.Machine

section
variable (n : Nat) {e : FrameEnd}

/-- The break of an own frame is not the streak's (R130, R148). -/
theorem nextStreak_of_broken (own : e.sent = .broken) : nextStreak n e = n := by
  simp [nextStreak, own]

theorem nextStreak_of_error (notOwn : e.sent ≠ .broken) (error : e.raised = .error) : nextStreak n e = n + 1 := by
  simp [nextStreak, notOwn, error]

theorem nextStreak_of_breakSeen (seen : e.raised = .breakSeen) : nextStreak n e = n := by
  simp [nextStreak, seen]

theorem nextStreak_of_clean (notOwn : e.sent ≠ .broken) (clean : e.clean = true)
    (raised : e.raised = .nothing ∨ e.raised = .refusal) : nextStreak n e = 0 := by
  rcases raised with nothing | refusal
  · simp [nextStreak, notOwn, clean, nothing]
  · simp [nextStreak, notOwn, clean, refusal]

theorem nextStreak_of_unclean (unclean : e.clean = false) (nothing : e.raised = .nothing) : nextStreak n e = n := by
  simp [nextStreak, unclean, nothing]

end

/-- With no own candidate and the streak below its limit a frame end asks for no exit: it moves the streak, the record
of the last frame end and the yield flag alone (R125). -/
theorem frameEnd_below_limit (first : FirstTrigger) {e : FrameEnd} {s : State}
    (below : nextStreak s.sel.streak e < Config.streakLimit) :
    s.frameEnd first e none = { s with sel := { s.sel with
      streak := nextStreak s.sel.streak e, lastEnd := some e, yielding := nextYield s.own s.sel.yielding e } } := by
  have notDue : decide (Config.streakLimit ≤ nextStreak s.sel.streak e) = false :=
    decide_eq_false (Nat.not_le.mpr below)
  simp only [State.frameEnd, notDue]
  rfl

end Sys2Proof.Machine

namespace Sys2Proof

open Sys2Proof.Machine

/-- Settles O58: below the limit a frame end leaves `nextStreak`, and each row of R130's table is a lemma above. -/
theorem streakFollowsTheFrameEnd : Obligations.StreakFollowsTheFrameEnd := by
  refine ⟨rfl, fun s cause st => ?_, fun s first e below => ?_, fun n e => ⟨?_, ?_, ?_, ?_, ?_⟩⟩
  · rw [State.exit_sel]
    rfl
  · rw [frameEnd_below_limit first below]
  · exact nextStreak_of_error n
  · exact nextStreak_of_clean n
  · exact nextStreak_of_breakSeen n
  · exact nextStreak_of_broken n
  · exact nextStreak_of_unclean n

end Sys2Proof
end

section
/-! PROOF. Admission at the port (R160): what each test of its table asks, and what a request turned away and a request
accepted leave at the port (R161, R192). -/

namespace Sys2Proof.Machine

/-! ## The tests one by one -/

/-- The mode code of an options byte is one of the two defined. -/
theorem modeDefined_iff (o : Byte) : (modeOf (modeBits o)).isSome = true ↔ o.toNat % 4 ≤ 1 := by
  have low : (modeBits o).toNat = o.toNat % 4 := by simp [modeBits]
  rw [← Option.not_isNone, Bool.not_eq_true', ← Bool.not_eq_true, modeOf_isNone, low]
  omega

theorem unusedClear_iff (o : Byte) : unusedClear o = true ↔ o.toNat / 4 % 32 = 0 := by
  simp [unusedClear, ← BitVec.toNat_inj, Nat.shiftRight_eq_div_pow]

/-- A failure of step 2: a key of 0, a term of 0 where the request has one, an undefined mode or wait argument. -/
theorem argumentsBad_iff (kind : RequestKind) (key : Key) (o t : Byte) : (!argumentsGood kind key o t) = true ↔
    key = 0 ∨ (kind ≠ .release ∧ t = 0) ∨ (kind = .acquire ∧ (1 < o.toNat % 4 ∨ o.toNat / 4 % 32 ≠ 0)) := by
  have good : argumentsGood kind key o t = true ↔
      key ≠ 0 ∧ (kind = .release ∨ t ≠ 0) ∧ (kind = .acquire → o.toNat % 4 ≤ 1 ∧ o.toNat / 4 % 32 = 0) := by
    cases kind <;> simp [argumentsGood, modeDefined_iff, unusedClear_iff, and_assoc]
  rw [Bool.not_eq_true', ← Bool.not_eq_true, good]
  simp only [not_and_or, not_or, Classical.not_imp, not_not, not_le, ne_eq]

theorem Desk.claimFor_isSome_iff (key : Key) (d : Desk) :
    (d.claimFor key).isSome = true ↔ ∃ c ∈ d.claims, c.key = key := by
  simp [Desk.claimFor]

theorem Desk.claimFor_isNone_iff (key : Key) (d : Desk) :
    (d.claimFor key).isNone = true ↔ ∀ c ∈ d.claims, c.key ≠ key := by
  simp [Desk.claimFor]

theorem requestHolds_eq (kind : RequestKind) : requestHolds kind = if kind = .acquire then 3 else 1 := by
  cases kind <;> rfl

/-- The reservation does not fit where it would take notices and reservation together above 40 (R172, R179). -/
theorem Desk.room_lt_iff (kind : RequestKind) (d : Desk) : d.room < requestHolds kind ↔
    40 < d.notices.length + d.reservation + (if kind = .acquire then 3 else 1) := by
  have holds : 0 < requestHolds kind := by cases kind <;> decide
  rw [← requestHolds_eq, show d.room = 40 - d.notices.length - d.reservation from rfl]
  omega

/-- The table of R160, row by row. -/
theorem admission_eq (kind : RequestKind) (key : Key) (o t : Byte) (s : State) : s.admission kind key o t =
    if s.ctl.state ≠ .synced then .notMember
    else if key = 0 ∨ (kind ≠ .release ∧ t = 0) ∨
        (kind = .acquire ∧ (1 < o.toNat % 4 ∨ o.toNat / 4 % 32 ≠ 0)) then .badArg
    else if 8 ≤ s.desk.requests.length then .reqFull
    else if kind = .acquire ∧ (∃ c ∈ s.desk.claims, c.key = key) then .dupClaim
    else if kind = .acquire ∧ 16 ≤ s.desk.claims.length then .claimsFull
    else if kind ≠ .acquire ∧ (∀ c ∈ s.desk.claims, c.key ≠ key) then .noClaim
    else if 40 < s.desk.notices.length + s.desk.reservation + (if kind = .acquire then 3 else 1) then .noRoom
    else .ok := by
  have notSynced : (s.ctl.state != .synced) = true ↔ s.ctl.state ≠ .synced := bne_iff_ne
  have duplicate : (kind == .acquire && (s.desk.claimFor key).isSome) = true ↔
      kind = .acquire ∧ ∃ c ∈ s.desk.claims, c.key = key := by
    rw [Bool.and_eq_true, beq_iff_eq, Desk.claimFor_isSome_iff]
  have claimsFull : (kind == .acquire && decide (Config.maxClaims ≤ s.desk.claims.length)) = true ↔
      kind = .acquire ∧ 16 ≤ s.desk.claims.length := by
    rw [Bool.and_eq_true, beq_iff_eq, decide_eq_true_eq]
    rfl
  have noClaim : (kind != .acquire && (s.desk.claimFor key).isNone) = true ↔
      kind ≠ .acquire ∧ ∀ c ∈ s.desk.claims, c.key ≠ key := by
    rw [Bool.and_eq_true, bne_iff_ne, Desk.claimFor_isNone_iff]
  exact if_congr notSynced rfl <| if_congr (argumentsBad_iff kind key o t) rfl <| if_congr Iff.rfl rfl <|
    if_congr duplicate rfl <| if_congr claimsFull rfl <| if_congr noClaim rfl <|
    if_congr (Desk.room_lt_iff kind s.desk) rfl rfl

/-! ## The two ends of a request command -/

section
variable {kind : RequestKind} {key : Key} {o t : Byte} {s : State}

/-- A request that fails a test leaves the station as it is (R160). -/
theorem requestCommand_of_refused {st : ReplyStatus} (refused : s.admission kind key o t = st) (bad : st ≠ .ok) :
    s.requestCommand kind key o t = (s, [statusCode st, 0x00]) := by
  subst refused
  unfold State.requestCommand
  split
  · exact absurd ‹_› bad
  all_goals rfl

/-- A request that passes every test is accepted with the next ticket (R161). -/
theorem requestCommand_of_admitted (passes : s.admission kind key o t = .ok) : s.requestCommand kind key o t =
    (s.accept (requestRecord kind key o t s.desk.nextTicket), [0x00, s.desk.nextTicket]) := by
  unfold State.requestCommand
  rw [passes]
  rfl

variable {c : Instr} {code : Byte} {args : List Byte}
  (answers : exec c s = .next { (s.requestCommand kind key o t).1 with
    port := Port.answering code args (s.requestCommand kind key o t).2 })
include answers

/-- A request turned away changes nothing but the port (R160, R192). -/
theorem answer_of_refused {st : ReplyStatus} (bad : st ≠ .ok) (refused : s.admission kind key o t = st) :
    exec c s = .next { s with port := Port.answering code args [statusCode st, 0x00] } := by
  rw [answers, requestCommand_of_refused refused bad]

/-- A request admitted is answered with OK and its ticket (R161, R192). -/
theorem answer_of_admitted (passes : s.admission kind key o t = .ok) :
    ∃ u, exec c s = .next u ∧ u.port = Port.answering code args [0x00, s.desk.nextTicket] := by
  rw [answers, requestCommand_of_admitted passes]
  exact ⟨_, rfl, rfl⟩

end

end Sys2Proof.Machine

namespace Sys2Proof

open Sys2Proof.Machine

/-- Settles O13: `admission_eq` is the table, and each of the three commands is a request command at the port. -/
theorem admissionDecides : Obligations.AdmissionDecides := by
  refine ⟨rfl, fun key o t s => ⟨fun kind => admission_eq kind key o t s, fun st selected bad => ⟨?_, ?_, ?_⟩,
    fun selected => ⟨?_, ?_, ?_⟩⟩⟩
  · exact answer_of_refused (acquire_answers selected key o t) bad
  · exact answer_of_refused (release_answers selected key) bad
  · exact answer_of_refused (renew_answers selected key t) bad
  · exact answer_of_admitted (acquire_answers selected key o t)
  · exact answer_of_admitted (release_answers selected key)
  · exact answer_of_admitted (renew_answers selected key t)

end Sys2Proof
end

section
/-! PROOF. ATTN (R183): the conditions it shows, and what a rise of SEL before the reply was clocked out in full
leaves of them (R180, R182, R188). -/

namespace Sys2Proof.Machine

/-- ATTN shows the notice queue and the station-changed flag, outside RESET (R183). -/
theorem attnDriven_iff (s : State) : s.attnDriven = true ↔
    s.pins.resetLow = false ∧ (s.desk.notices ≠ [] ∨ s.attention.changed = true) := by
  rw [State.attnDriven, Bool.and_eq_true, Bool.or_eq_true, Bool.not_eq_true', Bool.not_eq_true',
    List.isEmpty_eq_false_iff]

/-- Nothing but the level of RESET, the notice queue and the station-changed flag moves ATTN (R183). -/
theorem attnDriven_congr {s t : State} (reset : t.pins.resetLow = s.pins.resetLow)
    (notices : t.desk.notices = s.desk.notices) (changed : t.attention.changed = s.attention.changed) :
    t.attnDriven = s.attnDriven := by
  rw [Bool.eq_iff_iff, attnDriven_iff, attnDriven_iff, reset, notices, changed]

/-- ATTN is driven wherever the station-changed flag is set and RESET is high. -/
theorem attnDriven_of_changed {s : State} (high : s.pins.resetLow = false) (changed : s.attention.changed = true) :
    s.attnDriven = true :=
  (attnDriven_iff s).mpr ⟨high, .inr changed⟩

section
variable {s : State} (cutShort : s.port.phase ≠ .drain)
include cutShort

/-- The reply of a select period cut short was not clocked out in full (R188). -/
theorem inFull_eq_false : s.port.inFull = false := by
  simpa [Port.inFull] using cutShort

/-- A TAKE cut short loses its offered mark and no notice (R180). -/
theorem settleTake_of_cutShort :
    s.settleTake = { s with attention := { s.attention with offered := false } } := by
  simp [State.settleTake, inFull_eq_false cutShort]

/-- A STATUS cut short loses its mark and leaves the flag (R182). -/
theorem settleStatus_of_cutShort :
    s.settleStatus = { s with attention := { s.attention with readMark := false } } := by
  simp [State.settleStatus, inFull_eq_false cutShort]

/-- A rise of SEL that cuts a select period short clears both marks and deselects the port, and nothing else beside its
level (R188). -/
theorem selRises_of_cutShort (high : s.pins.resetLow = false) : s.selRises = { s with
    pins := { resetLow := false, selLow := false }
    port := Port.reset
    attention := { changed := s.attention.changed, readMark := false, offered := false } } := by
  have settled : s.settleTake.settleStatus = { s with
      attention := { changed := s.attention.changed, readMark := false, offered := false } } := by
    rw [settleTake_of_cutShort cutShort]
    exact settleStatus_of_cutShort cutShort
  simp [State.selRises, high, settled]

end

/-- With RESET held a rise of SEL changes its level alone (R191). -/
theorem selRises_of_resetLow {s : State} (held : s.pins.resetLow = true) :
    s.selRises = { s with pins := { s.pins with selLow := false } } := by
  simp [State.selRises, held]

/-- A select period ended before its reply was clocked out leaves ATTN as it was (R180, R182, R183). -/
theorem selRises_attnDriven {s : State} (cutShort : s.port.phase ≠ .drain) :
    s.selRises.attnDriven = s.attnDriven := by
  cases reset : s.pins.resetLow with
  | true =>
    rw [selRises_of_resetLow reset]
    exact attnDriven_congr rfl rfl rfl
  | false =>
    rw [selRises_of_cutShort cutShort reset]
    exact attnDriven_congr reset.symm rfl rfl

end Sys2Proof.Machine

namespace Sys2Proof

open Sys2Proof.Machine

/-- Settles O22: the release of RESET sets the station-changed flag, and a rise of SEL that cuts a select period short
moves none of the three conditions that ATTN shows. -/
theorem attnShowsNoticesAndChange : Obligations.AttnShowsNoticesAndChange := fun s =>
  ⟨attnDriven_iff s, fun _ _ => ⟨_, rfl, attnDriven_of_changed rfl rfl⟩,
    fun cutShort => ⟨_, rfl, selRises_attnDriven cutShort⟩⟩

end Sys2Proof
end

section
/-! PROOF. STATUS (R182, R195), a byte that is no command (R190), and the bytes that follow a command once it has taken
effect (R186, R188, R190). -/

namespace Sys2Proof.Machine

/-! ## STATUS (R195) -/

/-- The rate code stands in the two low positions of its byte of a STATUS reply. -/
theorem rateByte_eq (rate : BitVec 2) : (0 : BitVec 6) ++ rate = BitVec.ofNat 8 rate.toNat := by
  revert rate
  decide

/-- The twelve fields of a STATUS reply in the order of R195. -/
theorem statusBytes_eq (s : State) : s.statusBytes = [0x00, stateCode s.ctl.state, causeCode s.ctl.cause,
    BitVec.ofNat 8 s.ctl.station.val, BitVec.ofNat 8 s.ctl.rate.toNat,
    BitVec.ofNat 8 (if s.ctl.state.isMember then s.replica.roster.length else 0),
    BitVec.ofNat 8 s.desk.notices.length, BitVec.ofNat 8 s.desk.requests.length,
    BitVec.ofNat 8 s.desk.claims.length, if s.attention.changed then 0x01 else 0x00,
    s.replica.seq.extractLsb' 8 8, s.replica.seq.extractLsb' 0 8] := by
  rw [State.statusBytes, rateByte_eq]
  rfl

/-! ## After a command has taken effect (R186, R188, R190) -/

section
variable {s : State}

/-- With RESET held the port ignores its bytes (R191). -/
theorem portByte_of_resetLow (held : s.pins.resetLow = true) (b : Byte) : s.portByte b = s := by
  simp [State.portByte, held]

/-- DRAIN lasts until SEL rises (R188). -/
theorem portByte_of_drain (drain : s.port.phase = .drain) (b : Byte) : s.portByte b = s := by
  simp [State.portByte, drain]

theorem portBytes_of_drain (drain : s.port.phase = .drain) (bs : List Byte) : s.portBytes bs = s := by
  induction bs with
  | nil => rfl
  | cons b bs ih =>
    show (s.portByte b).portBytes bs = s
    rw [portByte_of_drain drain, ih]

section
variable (awake : s.pins.resetLow = false)
include awake

/-- The turnaround byte leads to the reply (R186). -/
theorem portByte_of_turnaround (turnaround : s.port.phase = .turnaround) (b : Byte) :
    s.portByte b = { s with port := { s.port with phase := .reply } } := by
  simp [State.portByte, awake, turnaround]

/-- A reply byte goes out, and after the last one the port is in DRAIN (R188). -/
theorem portByte_of_reply (reply : s.port.phase = .reply) (b : Byte) : s.portByte b = { s with port := { s.port with
    phase := if s.port.reply.length ≤ s.port.clocked + 1 then .drain else .reply
    clocked := s.port.clocked + 1 } } := by
  simp [State.portByte, awake, reply]

end

/-- Once a command has taken effect, what a byte does is the same for every byte, and moves the port alone (R190). -/
theorem portByte_of_answered
    (answered : s.port.phase = .turnaround ∨ s.port.phase = .reply ∨ s.port.phase = .drain) :
    ∃ p : Port, ∀ b, s.portByte b = { s with port := p } := by
  cases reset : s.pins.resetLow with
  | true => exact ⟨s.port, portByte_of_resetLow reset⟩
  | false =>
    rcases answered with turnaround | reply | drain
    · exact ⟨_, portByte_of_turnaround reset turnaround⟩
    · exact ⟨_, portByte_of_reply reset reply⟩
    · exact ⟨s.port, portByte_of_drain drain⟩

end

/-! ## A byte that is no command (R190) -/

section
variable {code : Byte} (unknown : knownCodes.contains code = false)
include unknown

theorem argumentCount_of_unknown : argumentCount code = none := by
  simp_all [knownCodes, argumentCount]

/-- A byte that is no command touches no block and is answered UNKNOWN. -/
theorem takeEffect_of_unknown (s : State) : s.takeEffect code [] = (s, [0x09]) := by
  simp_all [knownCodes, State.takeEffect, statusReply, statusCode]

variable {s : State} (selected : s.Selected)
include selected

theorem portByte_of_unknown : s.portByte code = { s with port := Port.answering code [] [0x09] } := by
  obtain ⟨awake, waits⟩ := selected
  have effect : s.portByte code = s.effectEvent code [] := by
    simp [State.portByte, awake, waits, argumentCount_of_unknown unknown]
  rw [effect, State.effectEvent, takeEffect_of_unknown unknown]
  rfl

/-- The turnaround byte leaves the byte UNKNOWN to go out. -/
theorem portBytes_of_unknown_turnaround (b : Byte) : s.portBytes [code, b] =
    { s with port := { phase := .reply, command := some code, arguments := [], reply := [0x09], clocked := 0 } } := by
  show (s.portByte code).portByte b = _
  rw [portByte_of_unknown unknown selected]
  exact portByte_of_turnaround (s := { s with port := Port.answering code [] [0x09] }) selected.awake rfl b

/-- The reply byte clocked out, the port drains whatever bytes follow. -/
theorem portBytes_of_unknown_drain (b c : Byte) (bs : List Byte) : s.portBytes ([code, b, c] ++ bs) =
    { s with port := { phase := .drain, command := some code, arguments := [], reply := [0x09], clocked := 1 } } := by
  have sent : s.portBytes [code, b, c] =
      { s with port := { phase := .drain, command := some code, arguments := [], reply := [0x09], clocked := 1 } } := by
    show (s.portBytes [code, b]).portByte c = _
    rw [portBytes_of_unknown_turnaround unknown selected, portByte_of_reply]
    · rfl
    · exact selected.awake
    · rfl
  show (s.portBytes [code, b, c]).portBytes bs = _
  rw [sent]
  exact portBytes_of_drain rfl bs

end

end Sys2Proof.Machine

namespace Sys2Proof

open Sys2Proof.Machine

/-- Settles O17: a STATUS is answered with the bytes of `statusBytes_eq`. -/
theorem statusReportsTheStation : Obligations.StatusReportsTheStation := by
  refine ⟨rfl, rfl, fun s selected => ?_⟩
  rw [status_answers selected, State.statusCommand, statusBytes_eq]

/-- Settles O19: an unknown byte is answered and drained, and a byte of an answered command moves the port alone. -/
theorem unknownCommandIsAnswered : Obligations.UnknownCommandIsAnswered := by
  refine ⟨fun code s selected unknown => ⟨?_, rfl, fun b c bs => ?_⟩, fun b c s answered => ?_⟩
  · exact congrArg Host.Outcome.next (portByte_of_unknown unknown selected)
  · exact ⟨_, _, _, portBytes_of_unknown_turnaround unknown selected b, rfl,
      portBytes_of_unknown_drain unknown selected b c [], rfl, rfl,
      portBytes_of_unknown_drain unknown selected b c bs, rfl, rfl⟩
  · obtain ⟨p, moves⟩ := portByte_of_answered answered
    exact ⟨congrArg Host.Outcome.next ((moves b).trans (moves c).symm), p, congrArg Host.Outcome.next (moves b)⟩

end Sys2Proof
end
